-- ==== Sys2Proof/Word.lean ====
section
/-! DEFINITION. The words and bytes of EC-CORE (`00_scope.md` R6, R7): 32-bit registers, 8-bit buffer bytes,
and reduction modulo `2^32`. All quantities are unsigned. -/

namespace Sys2Proof

/-- A 32-bit register or command word. -/
abbrev Word := BitVec 32

/-- One byte of a buffer. -/
abbrev Byte := BitVec 8

/-- `wrap32` of R6: the value in `0 .. 2^32 - 1` congruent to a non-negative integer. -/
def wrap32 (x : Nat) : Word := BitVec.ofNat 32 x

theorem wrap32_toNat (x : Nat) : (wrap32 x).toNat = x % 4294967296 := by
  simp [wrap32]

theorem wrap32_toNat_of_lt {x : Nat} (h : x < 4294967296) : (wrap32 x).toNat = x := by
  rw [wrap32_toNat, Nat.mod_eq_of_lt h]

@[simp] theorem wrap32_toNat_word (w : Word) : wrap32 w.toNat = w := by
  simp [wrap32]

end Sys2Proof
end

