-- ==== Sys2Proof/Config.lean ====
section
/-! DEFINITION. What an implementation of EC-CORE fixes (`00_scope.md` R5, `92_eei_decisions.md` OPEN
parameters), the values the spec leaves free (`60_exceptions.md` R297, U7), and the operand `PROB`'s content. -/

namespace Sys2Proof

/-- The OPEN parameters of R5 that a command's result can depend on. A machine's parameters never change.
They stand in `State` as plain data, so that a statement for every state is a statement for every
parameter value (log entry 2). -/
structure Params where
  /-- `CAP_BYTES`: the capacity of each buffer in bytes. -/
  capBytes : Nat
  /-- `TBL_RMAX`: the largest `R` a table can be built for. -/
  tblRmax : Nat
deriving DecidableEq, Repr

/-- The ranges R5 gives the OPEN parameters: `1 ≤ CAP_BYTES ≤ 2^29 - 1` and `2 ≤ TBL_RMAX ≤ 23`. -/
def Params.wf (p : Params) : Bool :=
  decide (1 ≤ p.capBytes) && decide (p.capBytes ≤ 536870911) && decide (2 ≤ p.tblRmax) && decide (p.tblRmax ≤ 23)

/-- The values of the spec's "default for tests" column (OPEN parameters table of `92_eei_decisions.md`). -/
def Params.default : Params := { capBytes := 65536, tblRmax := 23 }

/-- FREE VALUE (log entry 5): the 32-bit registers that a fault raised in the middle of a command leaves
unspecified (R297, U7), by the number of the occasion and the number of the register. -/
opaque Config.freeWord (occasion item : Nat) : Word

/-- FREE VALUE (log entry 5): the out-buffer bytes that a fault raised in the middle of a command leaves
unspecified (R297, U7), by the number of the occasion, as a list of (byte index, byte). -/
opaque Config.freeCells (occasion : Nat) : List (Nat × Byte)

/-- The content of `PROB` (R5, R8, D4, D34). `prob_format` is OPEN: its contents denote exact rationals or,
where a format admits them, no real number at all. -/
inductive Prob where
  /-- A content that denotes the rational `p`. -/
  | num (p : ℚ)
  /-- A content that denotes no real number (D34). -/
  | notNumber
deriving DecidableEq, Repr

end Sys2Proof
end

