-- ==== Sys2Proof/Syntax.lean ====
section
/-! DEFINITION. The 21 commands of EC-CORE (`30_encoding.md` R93, `opcode_table.json`), the host's actions
between commands (`20_memory.md` R74, `70_reset_and_hazards.md` R310) and the assembler lines of R97. -/

namespace Sys2Proof

/-- The field `sel` (`dir` in a coder command) of R90, R91: which of the two buffers is meant. -/
inductive BufSel where
  | b0
  | b1
deriving DecidableEq, Repr

/-- A command, one constructor per row of R93. A `sel` names the buffer acted on; a `dir` names the
in-buffer, the out-buffer being the other one (R91); `b` is the bit to write or append. The field `t` is
not an operand: it tells `RANS.ENC` from `RANS.ENCT` and `RANS.DEC` from `RANS.DECT`. -/
inductive Instr where
  /-- `BB.NEW` -/
  | bbNew (sel : BufSel)
  /-- `BB.RD` -/
  | bbRd (sel : BufSel)
  /-- `BB.WR` -/
  | bbWr (sel : BufSel) (b : Bool)
  /-- `BB.LEN` -/
  | bbLen (sel : BufSel)
  /-- `BB.BYTE` -/
  | bbByte (sel : BufSel)
  /-- `BS.NEW` -/
  | bsNew (sel : BufSel)
  /-- `BS.APP` -/
  | bsApp (sel : BufSel) (b : Bool)
  /-- `FDIV.SETUP` -/
  | fdivSetup
  /-- `FDIV.DIV` -/
  | fdivDiv
  /-- `FDIV.DIVMOD` -/
  | fdivDivmod
  /-- `FMUL.SETUP` -/
  | fmulSetup
  /-- `FMUL.MUL` -/
  | fmulMul
  /-- `BAC.ENC` -/
  | bacEnc (dir : BufSel)
  /-- `BAC.DEC` -/
  | bacDec (dir : BufSel)
  /-- `RANS.CFG` -/
  | ransCfg
  /-- `RANS.ENC` -/
  | ransEnc (dir : BufSel)
  /-- `RANS.ENCT` -/
  | ransEnct (dir : BufSel)
  /-- `RANS.DEC` -/
  | ransDec (dir : BufSel)
  /-- `RANS.DECT` -/
  | ransDect (dir : BufSel)
  /-- `RANS.BLDE` -/
  | ransBlde
  /-- `RANS.BLDD` -/
  | ransBldd
deriving DecidableEq, Repr

/-- What the host does to the block between two commands (R74, R260, R310). A write to `CMD` starts a
command, which runs to its end within the same step. Reading has no side effect (R264), so it is no action. -/
inductive HostAction where
  /-- `CMD <- w`: the command word `w` is written and the command runs. -/
  | writeCmd (w : Word)
  /-- `ARG0 <- v` -/
  | writeArg0 (v : Word)
  /-- `PROB <- p` -/
  | writeProb (p : Prob)
  /-- `BUF[sel].bytes[k] <- v` -/
  | writeByte (sel : BufSel) (k : Nat) (v : Byte)
  /-- `BUF[sel].len <- n` -/
  | writeLen (sel : BufSel) (n : Word)
  /-- The reset event of R310. -/
  | reset
deriving DecidableEq, Repr

/-- A line of the assembler syntax of R97: a command, with the value its role name writes to `ARG0` and the
value `p=` or `f=` writes to `PROB`. -/
structure Line where
  instr : Instr
  arg   : Option Nat
  prob  : Option ℚ
deriving DecidableEq, Repr

end Sys2Proof
end

