-- ==== Sys2Proof/WellFormed.lean ====
section
/-! DEFINITION. Well-formedness. A term of `Instr` has no ill-formed value: the one-bit fields of
`30_encoding.md` R90 are two-valued types, and a field a format does not use is no operand of its constructor.
What can be ill-formed is an assembler line (R97: the operands a command takes, in range) and a host action
(`20_memory.md` R74: the buffer bytes and lengths the host may write). -/

namespace Sys2Proof

/-- The commands that take `ARG0` as an operand ("operands in" of R93). `BS.NEW` names a capacity hint but
never reads `ARG0` (R115); it is in `Instr.ignoresArg0` instead. -/
def Instr.readsArg0 : Instr → Bool
  | .bbNew _ => true
  | .bbRd _ => true
  | .bbWr _ _ => true
  | .bbLen _ => false
  | .bbByte _ => true
  | .bsNew _ => false
  | .bsApp _ _ => false
  | .fdivSetup => true
  | .fdivDiv => true
  | .fdivDivmod => true
  | .fmulSetup => false
  | .fmulMul => true
  | .bacEnc _ => false
  | .bacDec _ => false
  | .ransCfg => true
  | .ransEnc _ => false
  | .ransEnct _ => false
  | .ransDec _ => true
  | .ransDect _ => true
  | .ransBlde => false
  | .ransBldd => false

/-- `BS.NEW` has an operand that it ignores (R115, D31), so a line may give it or leave it out. -/
def Instr.ignoresArg0 (i : Instr) : Bool :=
  i = .bsNew .b0 || i = .bsNew .b1

/-- The commands that take `PROB` as an operand ("operands in" of R93). -/
def Instr.readsProb (i : Instr) : Bool :=
  i = .fmulSetup || i = .bacEnc .b0 || i = .bacEnc .b1 || i = .bacDec .b0 || i = .bacDec .b1 || i = .ransCfg

/-- A line gives the integer operand exactly where the command takes one. -/
def Line.argPresent (l : Line) : Bool :=
  l.instr.ignoresArg0 || l.arg.isSome == l.instr.readsArg0

/-- An integer operand fits the 32 bits of `ARG0` (R94). -/
def Line.argFits (l : Line) : Bool :=
  match l.arg with
  | none => true
  | some n => decide (n < 4294967296)

/-- A line gives a probability exactly where the command takes one. -/
def Line.probPresent (l : Line) : Bool :=
  l.prob.isSome == l.instr.readsProb

/-- A well-formed assembler line. -/
def Line.wf (l : Line) : Bool :=
  l.argPresent && l.argFits && l.probPresent

/-- The host writes only bytes `k < CAP_BYTES` and lengths `≤ 8 · CAP_BYTES` (R74). -/
def HostAction.wf (p : Params) : HostAction → Bool
  | .writeCmd _ => true
  | .writeArg0 _ => true
  | .writeProb _ => true
  | .writeByte _ k _ => decide (k < p.capBytes)
  | .writeLen _ n => decide (n.toNat ≤ 8 * p.capBytes)
  | .reset => true

end Sys2Proof
end

