-- ==== Sys2Proof/Decode.lean ====
section
/-! DEFINITION. Decoding and encoding the 32-bit command word (`30_encoding.md` R90 to R97). Decoding is
total: every word is either one command or rejected under a name (R95); no state changes how a word is
decoded (R96). -/

namespace Sys2Proof

/-- Why a word matches no row of R93: the forms R95 lists. Each raises `IllegalCommand`. -/
inductive Reject where
  /-- One of the bits 31:11 is set. -/
  | highBits
  /-- The `op` value is in no row. -/
  | unknownOp
  /-- `sel` is set in a `Z` command. -/
  | straySel
  /-- `b` is set in a command that is not `SB`. -/
  | strayB
  /-- `t` is set in a command that is not `ST`. -/
  | strayT
deriving DecidableEq, Repr

/-- Field `op`, bits 7:0. -/
def fieldOp (w : Word) : Nat := w.toNat % 256

/-- Field `sel`, bit 8. -/
def fieldSel (w : Word) : Bool := w.toNat / 256 % 2 == 1

/-- Field `b`, bit 9. -/
def fieldB (w : Word) : Bool := w.toNat / 512 % 2 == 1

/-- Field `t`, bit 10. -/
def fieldT (w : Word) : Bool := w.toNat / 1024 % 2 == 1

/-- Bits 31:11, which must be 0. -/
def fieldZero (w : Word) : Nat := w.toNat / 2048

/-- `sel` as a buffer: 0 is `BUF[0]`, 1 is `BUF[1]`. -/
def BufSel.ofBit (x : Bool) : BufSel := if x then .b1 else .b0

/-- A buffer as its bit `sel`. -/
def BufSel.toBit (x : BufSel) : Nat :=
  match x with
  | .b0 => 0
  | .b1 => 1

/-- Format `Z` (R92): `op` only. -/
def formatZ (w : Word) (i : Instr) : Except Reject Instr :=
  if fieldSel w then .error .straySel
  else if fieldB w then .error .strayB
  else if fieldT w then .error .strayT
  else .ok i

/-- Format `S` (R92): `op` and `sel`. -/
def formatS (w : Word) (f : BufSel → Instr) : Except Reject Instr :=
  if fieldB w then .error .strayB
  else if fieldT w then .error .strayT
  else .ok (f (BufSel.ofBit (fieldSel w)))

/-- Format `SB` (R92): `op`, `sel` and `b`. -/
def formatSB (w : Word) (f : BufSel → Bool → Instr) : Except Reject Instr :=
  if fieldT w then .error .strayT
  else .ok (f (BufSel.ofBit (fieldSel w)) (fieldB w))

/-- Format `ST` (R92): `op`, `sel` as `dir`, and `t`, which selects compute or table mode. -/
def formatST (w : Word) (compute table : BufSel → Instr) : Except Reject Instr :=
  if fieldB w then .error .strayB
  else if fieldT w then .ok (table (BufSel.ofBit (fieldSel w)))
  else .ok (compute (BufSel.ofBit (fieldSel w)))

/-- The decoder of R93, by the `op` column and the format of each row. -/
def decode (w : Word) : Except Reject Instr :=
  if fieldZero w ≠ 0 then .error .highBits
  else
    match fieldOp w with
    | 0x10 => formatS w .bbNew
    | 0x11 => formatS w .bbRd
    | 0x12 => formatSB w .bbWr
    | 0x13 => formatS w .bbLen
    | 0x14 => formatS w .bbByte
    | 0x15 => formatS w .bsNew
    | 0x16 => formatSB w .bsApp
    | 0x20 => formatZ w .fdivSetup
    | 0x21 => formatZ w .fdivDiv
    | 0x22 => formatZ w .fdivDivmod
    | 0x30 => formatZ w .fmulSetup
    | 0x31 => formatZ w .fmulMul
    | 0x40 => formatS w .bacEnc
    | 0x41 => formatS w .bacDec
    | 0x50 => formatZ w .ransCfg
    | 0x51 => formatST w .ransEnc .ransEnct
    | 0x52 => formatST w .ransDec .ransDect
    | 0x53 => formatZ w .ransBlde
    | 0x54 => formatZ w .ransBldd
    | _ => .error .unknownOp

/-- The word `op | sel<<8 | b<<9 | t<<10` of R97; the fields do not overlap, so the ORs are sums. -/
def commandWord (op sel b t : Nat) : Word :=
  BitVec.ofNat 32 (op + sel * 256 + b * 512 + t * 1024)

/-- The encoder of R93. -/
def encode : Instr → Word
  | .bbNew sel => commandWord 0x10 sel.toBit 0 0
  | .bbRd sel => commandWord 0x11 sel.toBit 0 0
  | .bbWr sel b => commandWord 0x12 sel.toBit b.toNat 0
  | .bbLen sel => commandWord 0x13 sel.toBit 0 0
  | .bbByte sel => commandWord 0x14 sel.toBit 0 0
  | .bsNew sel => commandWord 0x15 sel.toBit 0 0
  | .bsApp sel b => commandWord 0x16 sel.toBit b.toNat 0
  | .fdivSetup => commandWord 0x20 0 0 0
  | .fdivDiv => commandWord 0x21 0 0 0
  | .fdivDivmod => commandWord 0x22 0 0 0
  | .fmulSetup => commandWord 0x30 0 0 0
  | .fmulMul => commandWord 0x31 0 0 0
  | .bacEnc dir => commandWord 0x40 dir.toBit 0 0
  | .bacDec dir => commandWord 0x41 dir.toBit 0 0
  | .ransCfg => commandWord 0x50 0 0 0
  | .ransEnc dir => commandWord 0x51 dir.toBit 0 0
  | .ransEnct dir => commandWord 0x51 dir.toBit 0 1
  | .ransDec dir => commandWord 0x52 dir.toBit 0 0
  | .ransDect dir => commandWord 0x52 dir.toBit 0 1
  | .ransBlde => commandWord 0x53 0 0 0
  | .ransBldd => commandWord 0x54 0 0 0

/-- The `match` column of R93, transcribed row by row. -/
def Instr.rowMatch : Instr → Word
  | .bbNew _ => 0x00000010
  | .bbRd _ => 0x00000011
  | .bbWr _ _ => 0x00000012
  | .bbLen _ => 0x00000013
  | .bbByte _ => 0x00000014
  | .bsNew _ => 0x00000015
  | .bsApp _ _ => 0x00000016
  | .fdivSetup => 0x00000020
  | .fdivDiv => 0x00000021
  | .fdivDivmod => 0x00000022
  | .fmulSetup => 0x00000030
  | .fmulMul => 0x00000031
  | .bacEnc _ => 0x00000040
  | .bacDec _ => 0x00000041
  | .ransCfg => 0x00000050
  | .ransEnc _ => 0x00000051
  | .ransEnct _ => 0x00000451
  | .ransDec _ => 0x00000052
  | .ransDect _ => 0x00000452
  | .ransBlde => 0x00000053
  | .ransBldd => 0x00000054

/-- The `mask` column of R93, transcribed row by row. -/
def Instr.rowMask : Instr → Word
  | .bbNew _ => 0xFFFFFEFF
  | .bbRd _ => 0xFFFFFEFF
  | .bbWr _ _ => 0xFFFFFCFF
  | .bbLen _ => 0xFFFFFEFF
  | .bbByte _ => 0xFFFFFEFF
  | .bsNew _ => 0xFFFFFEFF
  | .bsApp _ _ => 0xFFFFFCFF
  | .fdivSetup => 0xFFFFFFFF
  | .fdivDiv => 0xFFFFFFFF
  | .fdivDivmod => 0xFFFFFFFF
  | .fmulSetup => 0xFFFFFFFF
  | .fmulMul => 0xFFFFFFFF
  | .bacEnc _ => 0xFFFFFEFF
  | .bacDec _ => 0xFFFFFEFF
  | .ransCfg => 0xFFFFFFFF
  | .ransEnc _ => 0xFFFFFEFF
  | .ransEnct _ => 0xFFFFFEFF
  | .ransDec _ => 0xFFFFFEFF
  | .ransDect _ => 0xFFFFFEFF
  | .ransBlde => 0xFFFFFFFF
  | .ransBldd => 0xFFFFFFFF

/-- The command word whose bits the host numbers as `opcode_table.json` does; bits above `nbits` are 0. -/
def tableWord (nbits w : Nat) : Word := BitVec.ofNat 32 (w % 2 ^ nbits)

/-- The decoder as the host asks it: the command the word stands for, or nothing where it is rejected. A
command is one 32-bit word (R90, R96), so a longer word is no command. -/
def decodeTableWord (nbits w : Nat) : Option Instr :=
  if w % 2 ^ nbits < 4294967296 then
    match decode (tableWord nbits w) with
    | .ok i => some i
    | .error _ => none
  else none

/-- The lines of R97 as host actions: `ARG0` and `PROB` are written before the command word. -/
def Line.actions (l : Line) : List HostAction :=
  (match l.arg with
    | none => []
    | some n => [.writeArg0 (wrap32 n)]) ++
  (match l.prob with
    | none => []
    | some p => [.writeProb (.num p)]) ++
  [.writeCmd (encode l.instr)]

end Sys2Proof
end

