-- ==== Sys2Proof/Machine/State.lean ====
section
/-! DEFINITION. The state of EC-CORE as plain data (`10_state.md` R22 to R34, `20_memory.md` R60), its value
after reset (`10_state.md` R36, `70_reset_and_hazards.md` R310), and the reasons a step can stop. -/

namespace Sys2Proof.Machine

/-- Why a step stops. No command ever does: a `raise` of the spec is a next state with `STATUS.FAULT = 1`
(`60_exceptions.md` R280), in which the block goes on refusing commands. -/
inductive Fault where
  /-- Raised by the host's write of `BUF[s].bytes[k]` with `k ≥ CAP_BYTES`, a byte that does not exist (R60,
  R74). Safe: the model stops where the spec says nothing. -/
  | hostByteOutsideBuffer
  /-- Raised by the host's write of `BUF[s].len` with a value above `8 · CAP_BYTES`, which R74 does not allow.
  Safe: the model stops where the spec says nothing. -/
  | hostLengthAboveCapacity
deriving DecidableEq, Repr

/-- Why an instruction has no meaning in the model. -/
inductive Refusal where
  /-- Raised by an arm of `exec` whose instruction is not modelled; no arm is, so nothing raises it. Safe. -/
  | notModelled (mnemonic : String)
deriving DecidableEq, Repr

/-- `STATUS` (R24) by its fields; the reserved bits 31:14 have no storage and read as 0. -/
structure Status where
  /-- bit 0, `FAULT` -/
  fault : Bool
  /-- bits 8:1, `CAUSE` -/
  cause : BitVec 8
  /-- bit 9, `CFGV` -/
  cfgv : Bool
  /-- bit 10, `ETV` -/
  etv : Bool
  /-- bit 11, `DTV` -/
  dtv : Bool
  /-- bit 12, `FDGV` -/
  fdgv : Bool
  /-- bit 13, `FMGV` -/
  fmgv : Bool
deriving DecidableEq, Repr

/-- The bytes of one buffer: (byte index, byte) with indices rising and no byte equal to what an unlisted
index reads as, which is 0 (log entry 4). -/
abbrev Memory := List Host.Cell

/-- A buffer `BUF[s]` (R23): its bytes and its bit length. -/
structure Buffer where
  bytes : Memory
  len : Word
deriving DecidableEq, Repr

/-- A fast-division descriptor (R25): 31, 33 and 6 bits. -/
structure FdDesc where
  d : BitVec 31
  mul : BitVec 33
  shift : BitVec 6
deriving DecidableEq, Repr

/-- The registers of the Binary Arithmetic Coder (R27). -/
structure Bac where
  m : Word
  low : Word
  high : Word
  value : Word
  pending : Word
  readPos : Word
  writePos : Word
deriving DecidableEq, Repr

/-- The configuration registers of the rANS unit (R29). -/
structure RansConf where
  r : BitVec 5
  totalFreq : BitVec 24
  freq0 : BitVec 23
  freq1 : BitVec 23
  cum0 : BitVec 23
  cum1 : BitVec 23
  thr0 : BitVec 31
  thr1 : BitVec 31
  fd0 : FdDesc
  fd1 : FdDesc
deriving DecidableEq, Repr

/-- `encTable` (R33, R240): a dense array whose every entry is the formula of R240 in the configuration it
was filled from. Up to `2^32` entries are held as that configuration (log entry 6); `EncTable.entry` reads
one, `EncTable.dense` is the array. -/
structure EncTable where
  filledFrom : RansConf
deriving DecidableEq, Repr

/-- `decTable` (R33, R241), held in the same way (log entry 6). -/
structure DecTable where
  filledFrom : RansConf
deriving DecidableEq, Repr

/-- The state of the block and of the queue in front of it. -/
structure State where
  /-- The OPEN parameters of R5; constant (log entry 2). -/
  params : Params
  /-- MODEL's own field (log entry 1): what the host is still going to do, next action first. `CMD` (R22) is
  write-only and keeps nothing: the word of a `writeCmd` is consumed by the step that runs it. -/
  inbox : List HostAction
  /-- `ARG0` (R22) -/
  arg0 : Word
  /-- `PROB` (R22) -/
  prob : Prob
  /-- `RES0` (R22) -/
  res0 : Word
  /-- `RES1` (R22) -/
  res1 : Word
  /-- `STATUS` (R24) -/
  status : Status
  /-- `BUF[0]` (R23) -/
  buf0 : Buffer
  /-- `BUF[1]` (R23) -/
  buf1 : Buffer
  /-- `FDG` (R25) -/
  fdg : FdDesc
  /-- `FMG.M` (R26) -/
  fmgM : BitVec 33
  /-- `BAC.*` (R27) -/
  bac : Bac
  /-- `RANS.R` to `RANS.FD` (R29) -/
  rans : RansConf
  /-- `RANS.state` (R30) -/
  ransState : Word
  /-- `RANS.readPos` (R30) -/
  ransReadPos : Word
  /-- `encTable` (R33) -/
  encTable : EncTable
  /-- `decTable` (R33) -/
  decTable : DecTable
  /-- MODEL's own field (log entry 5): how many times a step has taken free values. -/
  freeCount : Nat
deriving DecidableEq, Repr

/-- What a step answers. -/
abbrev Result := Host.Outcome State Fault Refusal

/-- `STATUS` after reset: 0 (R24, R36). -/
def Status.zero : Status :=
  { fault := false, cause := 0, cfgv := false, etv := false, dtv := false, fdgv := false, fmgv := false }

/-- A descriptor of zeros: what `FDIV.SETUP` stores for `d = 0` (R130), and the DESIGN CHOICE of log entry 3
for a descriptor after reset. -/
def FdDesc.zero : FdDesc := { d := 0, mul := 0, shift := 0 }

/-- DESIGN CHOICE (log entry 3): a rANS configuration after reset, which the spec leaves unspecified. -/
def RansConf.zero : RansConf :=
  { r := 0, totalFreq := 0, freq0 := 0, freq1 := 0, cum0 := 0, cum1 := 0, thr0 := 0, thr1 := 0,
    fd0 := FdDesc.zero, fd1 := FdDesc.zero }

/-- The machine right after reset. `STATUS = 0` and both lengths 0 are R36's; every other register holds the
DESIGN CHOICE of log entry 3, buffer bytes that of entry 4, tables that of entry 6, parameters those of entry 2. -/
def State.reset : State :=
  { params := Params.default
    inbox := []
    arg0 := 0
    prob := .num 0
    res0 := 0
    res1 := 0
    status := Status.zero
    buf0 := { bytes := [], len := 0 }
    buf1 := { bytes := [], len := 0 }
    fdg := FdDesc.zero
    fmgM := 0
    bac := { m := 0, low := 0, high := 0, value := 0, pending := 0, readPos := 0, writePos := 0 }
    rans := RansConf.zero
    ransState := 0
    ransReadPos := 0
    encTable := { filledFrom := RansConf.zero }
    decTable := { filledFrom := RansConf.zero }
    freeCount := 0 }

end Sys2Proof.Machine
end

