-- ==== Sys2Proof/Machine/Flags.lean ====
section
/-! DEFINITION. `STATUS`: its layout as the host reads it (`10_state.md` R24), the fault causes and their codes
(`60_exceptions.md` R281), and the settings of its valid flags. There are no arithmetic condition codes (R24). -/

namespace Sys2Proof.Machine

/-- The fault causes of R281. -/
inductive Cause where
  | illegalCommand
  | invalidProbability
  | invalidRangeWidth
  | divisorOutOfRange
  | tableNotBuilt
  | notConfigured
  | operandOutOfRange
  | indexOutOfRange
  | bufferOverflow
  | pendingOverflow
  | tableIndexOutOfRange
  | tableTooLarge
deriving DecidableEq, Repr

/-- The code of a cause, R281's first column. -/
def Cause.code : Cause → BitVec 8
  | .illegalCommand => 1
  | .invalidProbability => 2
  | .invalidRangeWidth => 3
  | .divisorOutOfRange => 4
  | .tableNotBuilt => 5
  | .notConfigured => 6
  | .operandOutOfRange => 7
  | .indexOutOfRange => 8
  | .bufferOverflow => 9
  | .pendingOverflow => 10
  | .tableIndexOutOfRange => 11
  | .tableTooLarge => 12

/-- `STATUS` as the 32-bit word the host reads (R24): `FAULT` bit 0, `CAUSE` bits 8:1, `CFGV` 9, `ETV` 10,
`DTV` 11, `FDGV` 12, `FMGV` 13, bits 31:14 read as 0. -/
def Status.toWord (st : Status) : Word :=
  BitVec.ofNat 32 (st.fault.toNat + st.cause.toNat * 2 + st.cfgv.toNat * 512 + st.etv.toNat * 1024 +
    st.dtv.toNat * 2048 + st.fdgv.toNat * 4096 + st.fmgv.toNat * 8192)

/-- What a fault does to `STATUS` (R280, R295): `FAULT` and `CAUSE`; the valid flags keep their values. -/
def Status.faulted (st : Status) (c : Cause) : Status := { st with fault := true, cause := c.code }

/-- `FDIV.SETUP` success: `FDGV <- 1` (R24, R131). -/
def Status.setFdgv (st : Status) : Status := { st with fdgv := true }

/-- `FMUL.SETUP` success: `FMGV <- 1` (R24, R151). -/
def Status.setFmgv (st : Status) : Status := { st with fmgv := true }

/-- `RANS.CFG` success: `CFGV <- 1`, `ETV <- 0`, `DTV <- 0` (R24, R201). -/
def Status.configured (st : Status) : Status := { st with cfgv := true, etv := false, dtv := false }

/-- `RANS.BLDE` success: `ETV <- 1` (R24, R242). -/
def Status.setEtv (st : Status) : Status := { st with etv := true }

/-- `RANS.BLDD` success: `DTV <- 1` (R24, R243). -/
def Status.setDtv (st : Status) : Status := { st with dtv := true }

end Sys2Proof.Machine
end

