-- ==== Sys2Proof/Machine/Ops.lean ====
section
/-! DEFINITION. The named operations over buffers and registers: the access primitives of `20_memory.md` R61
to R67, taking a fault (`60_exceptions.md` R280, R295 to R297) and the reset that alone ends one
(`70_reset_and_hazards.md` R310). -/

namespace Sys2Proof

/-- The other buffer: `1 - dir` of R91. -/
def BufSel.other : BufSel → BufSel
  | .b0 => .b1
  | .b1 => .b0

namespace Machine

/-- What a byte index that is not listed reads as: DESIGN CHOICE 0x00 (log entry 4). -/
def Memory.unlisted : Byte := 0

/-- The byte at index `a`. -/
def Memory.read : Memory → Nat → Byte
  | [], _ => Memory.unlisted
  | (b, v) :: m, a => if a = b then v else Memory.read m a

/-- `m` with the byte at index `a` replaced by `v`, in canonical form. -/
def Memory.write : Memory → Nat → Byte → Memory
  | [], a, v => if v = Memory.unlisted then [] else [(a, v)]
  | (b, u) :: m, a, v =>
    if a < b then (if v = Memory.unlisted then (b, u) :: m else (a, v) :: (b, u) :: m)
    else if a = b then (if v = Memory.unlisted then m else (a, v) :: m)
    else (b, u) :: Memory.write m a v

/-- `m` with every byte at an index below `n` replaced by 0x00: the loop "for k in 0 .. n - 1" of R110. -/
def Memory.clearBelow (m : Memory) (n : Nat) : Memory := m.filter (fun c => decide (n ≤ c.1))

/-- The canonical form: indices strictly rising, no entry equal to what an unlisted index reads as. -/
def Memory.wf : Memory → Bool
  | [] => true
  | (a, v) :: m => decide (v ≠ Memory.unlisted) && m.all (fun c => decide (a < c.1)) && Memory.wf m

/-- Every listed index is below the capacity: `BUF[s].bytes[k]` exists for `k < CAP_BYTES` only (R60). -/
def Memory.within (m : Memory) (cap : Nat) : Bool := m.all (fun c => decide (c.1 < cap))

/-- Arbitrary cells as the contents of a buffer of `cap` bytes: cells outside it dropped, the rest written one
by one, so that every contents of such a buffer arises from some cells. -/
def Memory.ofCells (cap : Nat) : List (Nat × Byte) → Memory
  | [] => []
  | (a, v) :: cs => if a < cap then (Memory.ofCells cap cs).write a v else Memory.ofCells cap cs

/-- The buffer `BUF[sel]`. -/
def State.buf (s : State) : BufSel → Buffer
  | .b0 => s.buf0
  | .b1 => s.buf1

/-- The state with `BUF[sel]` replaced. -/
def State.setBuf (s : State) (sel : BufSel) (b : Buffer) : State :=
  match sel with
  | .b0 => { s with buf0 := b }
  | .b1 => { s with buf1 := b }

/-- Byte `k` of a buffer. -/
def Buffer.byte (b : Buffer) (k : Nat) : Byte := b.bytes.read k

/-- `ByteLen` (R62): `ceil(len / 8)`. -/
def Buffer.byteLen (b : Buffer) : Nat := (b.len.toNat + 7) / 8

/-- `BitRead` (R63): bit `i & 7` of byte `i >> 3`, LSB first (R61). -/
def Buffer.bitRead (b : Buffer) (i : Nat) : Bool := (b.byte (i / 8)).getLsbD (i % 8)

/-- Byte `i >> 3` of the buffer with `b << (i & 7)` ORed in. -/
def Buffer.orBit (b : Buffer) (i : Nat) (x : Bool) : Byte :=
  b.byte (i / 8) ||| (BitVec.ofNat 8 x.toNat <<< (i % 8))

/-- `BitWrite` (R64): OR the bit `x` into index `i`; nothing else changes. -/
def Buffer.bitWrite (b : Buffer) (i : Nat) (x : Bool) : Buffer :=
  { b with bytes := b.bytes.write (i / 8) (b.orBit i x) }

/-- The buffer after "push a new zero byte" where `len` is a multiple of 8 (R65). -/
def Buffer.pushZeroByte (b : Buffer) : Buffer :=
  if b.len.toNat % 8 = 0 then { b with bytes := b.bytes.write (b.len.toNat / 8) 0 } else b

/-- `BitAppend` (R65) on a buffer of `cap` bytes. R23 bounds `len` by `8 · cap`, so R65's test for equality is
written as a test for "at least". -/
def Buffer.bitAppend (b : Buffer) (cap : Nat) (x : Bool) : Except Cause Buffer :=
  if 8 * cap ≤ b.len.toNat then .error .bufferOverflow
  else .ok { b.pushZeroByte.bitWrite b.len.toNat x with len := b.len + 1 }

/-- `ByteAppend` (R67) on a buffer of `cap` bytes, with the same reading of its test. -/
def Buffer.byteAppend (b : Buffer) (cap : Nat) (v : Byte) : Except Cause Buffer :=
  if cap ≤ b.len.toNat / 8 then .error .bufferOverflow
  else .ok { bytes := b.bytes.write (b.len.toNat / 8) v, len := b.len + 8 }

/-- "swap `bytes[i]` and `bytes[j]`" of R206. -/
def Buffer.swapBytes (b : Buffer) (i j : Nat) : Buffer :=
  { b with bytes := (b.bytes.write i (b.byte j)).write j (b.byte i) }

/-- "for k in 0 .. n - 1: swap `bytes[k]` and `bytes[nb - 1 - k]`" of R206. -/
def Buffer.swapLoop (b : Buffer) (nb : Nat) : Nat → Buffer
  | 0 => b
  | n + 1 => (b.swapLoop nb n).swapBytes n (nb - 1 - n)

/-- Step 3 of R206: the first `nb` bytes in reverse order. -/
def Buffer.reverseBytes (b : Buffer) (nb : Nat) : Buffer := b.swapLoop nb (nb / 2)

/-- `raise F` (R280, R295): `STATUS.FAULT` and `STATUS.CAUSE`, and nothing else. -/
def State.raise (s : State) (c : Cause) : State := { s with status := s.status.faulted c }

/-- A fault of classes (2) to (5) of R294: precise, raised before the command has changed anything (R297). -/
def raised (s : State) (c : Cause) : Result := .next (s.raise c)

/-- FREE VALUE (log entry 5): a buffer as a fault of class (6) leaves it, bytes and length unspecified. -/
def freeBuffer (cap occasion : Nat) : Buffer :=
  { bytes := Memory.ofCells cap (Config.freeCells occasion), len := Config.freeWord occasion 0 }

/-- FREE VALUE (log entry 5): the BAC registers as a fault of class (6) leaves them. -/
def freeBac (occasion : Nat) : Bac :=
  { m := Config.freeWord occasion 1
    low := Config.freeWord occasion 2
    high := Config.freeWord occasion 3
    value := Config.freeWord occasion 4
    pending := Config.freeWord occasion 5
    readPos := Config.freeWord occasion 6
    writePos := Config.freeWord occasion 7 }

/-- The state with `BUF[o]` unspecified, which is what the class (6) faults of both encoders share (R297). -/
def State.freeOut (s : State) (o : BufSel) : State :=
  { s.setBuf o (freeBuffer s.params.capBytes s.freeCount) with freeCount := s.freeCount + 1 }

/-- A fault in the middle of `BAC.ENC` (R297): `BUF[o]` and all BAC registers are unspecified. -/
def raisedInBacEnc (s : State) (o : BufSel) (c : Cause) : Result :=
  .next ({ s.freeOut o with bac := freeBac s.freeCount }.raise c)

/-- A fault in the middle of `RANS.ENC` or `RANS.ENCT` (R297): `BUF[o]`, `RANS.state` and `RES0` are
unspecified. -/
def raisedInRansEnc (s : State) (o : BufSel) (c : Cause) : Result :=
  .next ({ s.freeOut o with
    ransState := Config.freeWord s.freeCount 8, res0 := Config.freeWord s.freeCount 9 }.raise c)

/-- The reset event (R310), the only way out of a fault (R296). The parameters, what the host does next and
the count of free values are not the block's to reset; registers the spec leaves unspecified take the values
of `State.reset` (log entry 3). -/
def State.afterReset (s : State) : State :=
  { State.reset with params := s.params, inbox := s.inbox, freeCount := s.freeCount }

/-- Refusal of every command while `STATUS.FAULT = 1` (R296). -/
def State.refusesCommands (s : State) : Bool := s.status.fault

end Machine

end Sys2Proof
end

