-- ==== Sys2Proof/Machine/Operands.lean ====
section
/-! DEFINITION. The operands of a command: `ARG0` and `PROB` (`30_encoding.md` R94), exact arithmetic on
probabilities (`00_scope.md` R8), and the in-buffer and out-buffer of a coder command (R91). -/

namespace Sys2Proof

open Machine

/-- A probability operand that must lie in `[0, 1]`: the rational, or `InvalidProbability` (R151, R201, D34). -/
def Prob.inUnit : Prob → Except Cause ℚ
  | .notNumber => .error .invalidProbability
  | .num p => if p < 0 ∨ 1 < p then .error .invalidProbability else .ok p

/-- A probability operand of the BAC: any rational; only a content that is no number is rejected (R166, D34). -/
def Prob.anyNumber : Prob → Except Cause ℚ
  | .notNumber => .error .invalidProbability
  | .num p => .ok p

namespace Machine

/-- The integer operand: `ARG0` as an unsigned 32-bit integer (R94). -/
def State.argNat (s : State) : Nat := s.arg0.toNat

/-- `clip(x, a, b)` of R8. -/
def clip (x a b : ℚ) : ℚ := min (max x a) b

/-- `round(x)` of R8 for a non-negative rational: `floor(x + 1/2)`, ties going up (D5). -/
def roundHalfUp (x : ℚ) : Nat := ⌊x + 1 / 2⌋₊

/-- The in-buffer `BUF[dir]` of a coder command (R91). -/
def State.inBuf (s : State) (dir : BufSel) : Buffer := s.buf dir

/-- The out-buffer `BUF[1 - dir]` of a coder command (R91). -/
def State.outBuf (s : State) (dir : BufSel) : Buffer := s.buf dir.other

end Machine

end Sys2Proof
end

