-- ==== Sys2Proof/Machine/FracMul.lean ====
section
/-! DEFINITION. The fraction multiplier, 32.32 fixed point (`42_fracmul.md` R150 to R156). -/

namespace Sys2Proof.Machine

/-- `FmSetup(f)` (R150): `floor(f · 2^32)`, for `0 ≤ f ≤ 1`. -/
def fmSetup (f : ℚ) : Nat := ⌊f * 4294967296⌋₊

/-- `FmMul(M, x)` (R152): `(x · M) >> 32`. -/
def fmMul (M x : Nat) : Nat := (x * M) >>> 32

/-- `FMUL.SETUP` (R151). -/
def execFmulSetup (s : State) : Result :=
  match s.prob.inUnit with
  | .error c => raised s c
  | .ok f => .next { s with fmgM := BitVec.ofNat 33 (fmSetup f), status := s.status.setFmgv }

/-- `FMUL.MUL` (R153). -/
def execFmulMul (s : State) : Result :=
  if s.status.fmgv = false then raised s .notConfigured
  else .next { s with res0 := wrap32 (fmMul s.fmgM.toNat s.argNat) }

end Sys2Proof.Machine
end

