-- ==== Sys2Proof/Machine/Bac.lean ====
section
/-! DEFINITION. The Binary Arithmetic Coder (`43_bac.md` R165 to R185). The registers are 32 bits; the rules
compute with unbounded integers and the results fit, but for the decoder's `value`, which is kept modulo
`2^32` (R185, D6). -/

namespace Sys2Proof.Machine

/-- `Q1` (R165). -/
def q1 : Nat := 1073741824

/-- `HALF` (R165). -/
def half : Nat := 2147483648

/-- `Q3` (R165). -/
def q3 : Nat := 3221225472

/-- `EPS` (R5, D28): exactly `10^-9`. -/
def eps : ℚ := 1 / 1000000000

/-- `2^PENDW - 1` (R5, D7). -/
def pendingMax : Nat := 4294967295

/-- `BacM(p)` (R166): the multiplier of the clamped probability of symbol 0. -/
def bacM (p : ℚ) : Nat := fmSetup (1 - clip p eps (1 - eps))

/-- `Mid(low, high, M)` (R168). -/
def Bac.mid (b : Bac) : Nat := b.low.toNat + fmMul b.m.toNat (b.high.toNat - b.low.toNat)

/-- Narrow (R168): symbol 0 takes the lower part, symbol 1 the upper part. -/
def Bac.narrow (b : Bac) (sym : Bool) : Bac :=
  if sym then { b with low := wrap32 b.mid } else { b with high := wrap32 b.mid }

/-- The cases of R169; `done` is its `NONE`. -/
inductive RenormCase where
  | e1
  | e2
  | e3
  | done
deriving DecidableEq, Repr

/-- `Case(low, high)` (R169): the first matching case. -/
def renormCase (low high : Nat) : RenormCase :=
  if high < half then .e1
  else if half ≤ low then .e2
  else if q1 ≤ low ∧ high < q3 then .e3
  else .done

/-- The case in which the registers stand. -/
def Bac.case (b : Bac) : RenormCase := renormCase b.low.toNat b.high.toNat

/-- What a case subtracts before it doubles: 0 in E1 (R170), `HALF` in E2 (R171), `Q1` in E3 (R172). -/
def RenormCase.offset : RenormCase → Nat
  | .e1 => 0
  | .e2 => half
  | .e3 => q1
  | .done => 0

/-- The doubling of `low` and `high` (R170 to R172). -/
def Bac.rescale (b : Bac) (off : Nat) : Bac :=
  { b with low := wrap32 (2 * (b.low.toNat - off)), high := wrap32 (2 * (b.high.toNat - off)) }

/-- The doubling of the decoder's `value` (R180 to R182), modulo `2^32` also where `value` is below the offset. -/
def Bac.rescaleValue (b : Bac) (off : Nat) : Bac := { b with value := 2 * (b.value - wrap32 off) }

/-- The out-buffer and the registers that a BAC command works on. -/
structure BacRun where
  out : Buffer
  bac : Bac
deriving DecidableEq, Repr

/-- `BitAppend(o, x)` repeated `n` times. -/
def appendCopies (cap : Nat) (x : Bool) : Nat → Buffer → Except Cause Buffer
  | 0, o => .ok o
  | n + 1, o =>
    match o.bitAppend cap x with
    | .error c => .error c
    | .ok o' => appendCopies cap x n o'

/-- `Emit(o, bit)` (R173): the bit, then `pending` copies of its opposite. -/
def emit (cap : Nat) (x : Bool) (r : BacRun) : Except Cause BacRun :=
  match r.out.bitAppend cap x with
  | .error c => .error c
  | .ok o =>
    match appendCopies cap (!x) r.bac.pending.toNat o with
    | .error c => .error c
    | .ok o' => .ok { out := o', bac := { r.bac with pending := 0 } }

/-- "pending <- pending + 1", or `PendingOverflow` (R174, R175). -/
def countPending (r : BacRun) : Except Cause BacRun :=
  if r.bac.pending.toNat = pendingMax then .error .pendingOverflow
  else .ok { r with bac := { r.bac with pending := r.bac.pending + 1 } }

/-- One pass of the loop of R174 in case `c`, the emission before the doubling. -/
def encStep (cap : Nat) (c : RenormCase) (r : BacRun) : Except Cause BacRun :=
  match (match c with
    | .e1 => emit cap false r
    | .e2 => emit cap true r
    | .e3 => countPending r
    | .done => .ok r) with
  | .error e => .error e
  | .ok r' => .ok { r' with bac := r'.bac.rescale c.offset }

/-- The loop of R174 with at most `fuel` passes. -/
def encRenorm (cap : Nat) : Nat → BacRun → Except Cause BacRun
  | 0, r => .ok r
  | fuel + 1, r =>
    if r.bac.case = .done then .ok r
    else
      match encStep cap r.bac.case r with
      | .error c => .error c
      | .ok r' => encRenorm cap fuel r'

/-- How many passes a renormalisation loop is given. R187: it exits after at most 31, so this never cuts it. -/
def renormFuel : Nat := 32

/-- One symbol of `BAC.ENC` (R176): read, narrow, renormalise, advance `readPos`. -/
def encSymbol (cap : Nat) (inp : Buffer) (r : BacRun) : Except Cause BacRun :=
  match encRenorm cap renormFuel
    { r with bac := r.bac.narrow (inp.bitRead r.bac.readPos.toNat) } with
  | .error c => .error c
  | .ok r' => .ok { r' with bac := { r'.bac with readPos := r'.bac.readPos + 1 } }

/-- The symbol loop of R176, `n` symbols from `readPos` on. -/
def encSymbols (cap : Nat) (inp : Buffer) : Nat → BacRun → Except Cause BacRun
  | 0, r => .ok r
  | n + 1, r =>
    match encSymbol cap inp r with
    | .error c => .error c
    | .ok r' => encSymbols cap inp n r'

/-- `EncFinal(o)` (R175). -/
def encFinal (cap : Nat) (r : BacRun) : Except Cause BacRun :=
  match countPending r with
  | .error c => .error c
  | .ok r' => emit cap (!decide (r'.bac.low.toNat < q1)) r'

/-- The encoder's initial state (R167); `value` and `writePos` are not its registers (R27). -/
def Bac.encInit (b : Bac) (m : Nat) : Bac :=
  { b with m := wrap32 m, low := 0, high := 0xFFFFFFFF, pending := 0, readPos := 0 }

/-- `BAC.ENC`'s effect (R176) on the out-buffer and the registers. -/
def bacEncode (cap : Nat) (inp out : Buffer) (b : Bac) (p : ℚ) : Except Cause BacRun :=
  match encSymbols cap inp inp.len.toNat { out := out, bac := b.encInit (bacM p) } with
  | .error c => .error c
  | .ok r => encFinal cap r

/-- `BAC.ENC` (R176): the code is appended to `BUF[1 - dir]`. -/
def execBacEnc (dir : BufSel) (s : State) : Result :=
  match s.prob.anyNumber with
  | .error c => raised s c
  | .ok p =>
    match bacEncode s.params.capBytes (s.inBuf dir) (s.outBuf dir) s.bac p with
    | .error c => raisedInBacEnc s dir.other c
    | .ok r => .next { s.setBuf dir.other r.out with bac := r.bac }

/-- The loop of `ValueLoad` (R178): the first `k` encoded bits, the first becoming the highest. -/
def loadValueBits (inp : Buffer) : Nat → Nat
  | 0 => 0
  | k + 1 => 2 * loadValueBits inp k + (inp.bitRead k).toNat

/-- `ValueLoad(in)` (R178). -/
def Bac.valueLoad (b : Bac) (inp : Buffer) : Bac :=
  { b with
    value := wrap32 (loadValueBits inp (min inp.len.toNat 32) * 2 ^ (32 - min inp.len.toNat 32))
    readPos := wrap32 (min inp.len.toNat 32) }

/-- `Refill(in)` (R183): past the end of the stream the low bit stays 0. -/
def Bac.refill (b : Bac) (inp : Buffer) : Bac :=
  if b.readPos.toNat < inp.len.toNat then
    { b with value := b.value ||| wrap32 (inp.bitRead b.readPos.toNat).toNat, readPos := b.readPos + 1 }
  else b

/-- The renormalisation loop of R184 with at most `fuel` passes. -/
def decRenorm (inp : Buffer) : Nat → Bac → Bac
  | 0, b => b
  | fuel + 1, b =>
    if b.case = .done then b
    else decRenorm inp fuel (((b.rescaleValue b.case.offset).rescale b.case.offset).refill inp)

/-- The symbol that `DecSymbol` decides (R179): an unsigned comparison. -/
def Bac.decodedSym (b : Bac) : Bool := !decide (b.value.toNat < b.mid)

/-- `DecSymbol(o)` (R179): decide, narrow, OR-write the bit at `writePos`, advance `writePos`. -/
def decSymbol (r : BacRun) : BacRun :=
  { out := r.out.bitWrite r.bac.writePos.toNat r.bac.decodedSym
    bac := { r.bac.narrow r.bac.decodedSym with writePos := r.bac.writePos + 1 } }

/-- The symbol loop of R184, `n` symbols. -/
def decSymbols (inp : Buffer) : Nat → BacRun → BacRun
  | 0, r => r
  | n + 1, r =>
    decSymbols inp n { decSymbol r with bac := decRenorm inp renormFuel (decSymbol r).bac }

/-- The decoder's initial state (R177); `pending` is not its register (R27). -/
def Bac.decInit (b : Bac) (m : Nat) : Bac :=
  { b with m := wrap32 m, low := 0, high := 0xFFFFFFFF, value := 0, readPos := 0, writePos := 0 }

/-- `BAC.DEC`'s effect (R184) on the out-buffer and the registers. -/
def bacDecode (inp out : Buffer) (b : Bac) (p : ℚ) : BacRun :=
  decSymbols inp out.len.toNat { out := out, bac := (b.decInit (bacM p)).valueLoad inp }

/-- `BAC.DEC` (R184): as many bits as `BUF[1 - dir]` is long are OR-written into it. -/
def execBacDec (dir : BufSel) (s : State) : Result :=
  match s.prob.anyNumber with
  | .error c => raised s c
  | .ok p =>
    .next { s.setBuf dir.other (bacDecode (s.inBuf dir) (s.outBuf dir) s.bac p).out with
      bac := (bacDecode (s.inBuf dir) (s.outBuf dir) s.bac p).bac }

end Sys2Proof.Machine
end

