-- ==== Sys2Proof/Machine/BitBuffer.lean ====
section
/-! DEFINITION. The bit-buffer commands (`40_bitbuffer.md` R110 to R116). -/

namespace Sys2Proof.Machine

/-- `BB.NEW` (R110): `ARG0` bits, all zero; bytes from `ceil(n/8)` on keep their contents. -/
def execBbNew (sel : BufSel) (s : State) : Result :=
  if 8 * s.params.capBytes < s.argNat then raised s .bufferOverflow
  else .next (s.setBuf sel
    { bytes := (s.buf sel).bytes.clearBelow ((s.argNat + 7) / 8), len := s.arg0 })

/-- `BB.RD` (R111): the bit at index `ARG0`, 0 or 1, into `RES0`. -/
def execBbRd (sel : BufSel) (s : State) : Result :=
  if (s.buf sel).len.toNat ≤ s.argNat then raised s .indexOutOfRange
  else .next { s with res0 := wrap32 ((s.buf sel).bitRead s.argNat).toNat }

/-- `BB.WR` (R112): OR the bit `b` into index `ARG0`. -/
def execBbWr (sel : BufSel) (b : Bool) (s : State) : Result :=
  if (s.buf sel).len.toNat ≤ s.argNat then raised s .indexOutOfRange
  else .next (s.setBuf sel ((s.buf sel).bitWrite s.argNat b))

/-- `BB.LEN` (R113): bit length into `RES0`, byte length into `RES1`. -/
def execBbLen (sel : BufSel) (s : State) : Result :=
  .next { s with res0 := (s.buf sel).len, res1 := wrap32 (s.buf sel).byteLen }

/-- `BB.BYTE` (R114): byte `ARG0`, zero-extended, into `RES0`. -/
def execBbByte (sel : BufSel) (s : State) : Result :=
  if (s.buf sel).byteLen ≤ s.argNat then raised s .indexOutOfRange
  else .next { s with res0 := wrap32 ((s.buf sel).byte s.argNat).toNat }

/-- `BS.NEW` (R115): the length becomes 0, no byte is written, `ARG0` is ignored. -/
def execBsNew (sel : BufSel) (s : State) : Result :=
  .next (s.setBuf sel { s.buf sel with len := 0 })

/-- `BS.APP` (R116): `BitAppend(sel, b)`; its only fault is precise (R297). -/
def execBsApp (sel : BufSel) (b : Bool) (s : State) : Result :=
  match (s.buf sel).bitAppend s.params.capBytes b with
  | .error c => raised s c
  | .ok o => .next (s.setBuf sel o)

end Sys2Proof.Machine
end

