-- ==== Sys2Proof/Machine/FastDiv.lean ====
section
/-! DEFINITION. Fast division by an invariant divisor (`41_fastdiv.md` R130 to R138). -/

namespace Sys2Proof.Machine

/-- `w` of R130: 0 for `d ≤ 1`, else the number of bits of `d - 1`. -/
def divisorWidth (d : Nat) : Nat := if d ≤ 1 then 0 else Nat.log2 (d - 1) + 1

/-- `FdDesc(d)` (R130), for `d < 2^31`; always the general form (R138). -/
def fdDesc (d : Nat) : FdDesc :=
  if d = 0 then FdDesc.zero
  else
    { d := BitVec.ofNat 31 d
      mul := BitVec.ofNat 33 ((2 ^ (32 + divisorWidth d) + d - 1) / d)
      shift := BitVec.ofNat 6 (32 + divisorWidth d) }

/-- `FdDiv(D, n)` (R132): the high part of the product; nothing is lost. -/
def fdDiv (D : FdDesc) (n : Nat) : Nat := (n * D.mul.toNat) >>> D.shift.toNat

/-- `FdDivMod(D, n)` (R133): quotient and residual. A descriptor that R130 builds has `q · d ≤ n`, so the
residual never borrows. -/
def fdDivMod (D : FdDesc) (n : Nat) : Nat × Nat := (fdDiv D n, n - fdDiv D n * D.d.toNat)

/-- `FDIV.SETUP` (R131). -/
def execFdivSetup (s : State) : Result :=
  if 2147483648 ≤ s.argNat then raised s .divisorOutOfRange
  else .next { s with fdg := fdDesc s.argNat, status := s.status.setFdgv }

/-- `FDIV.DIV` (R134). -/
def execFdivDiv (s : State) : Result :=
  if s.status.fdgv = false then raised s .notConfigured
  else if 2147483648 ≤ s.argNat then raised s .operandOutOfRange
  else .next { s with res0 := wrap32 (fdDiv s.fdg s.argNat) }

/-- `FDIV.DIVMOD` (R135). -/
def execFdivDivmod (s : State) : Result :=
  if s.status.fdgv = false then raised s .notConfigured
  else if 2147483648 ≤ s.argNat then raised s .operandOutOfRange
  else .next { s with
    res0 := wrap32 (fdDivMod s.fdg s.argNat).1, res1 := wrap32 (fdDivMod s.fdg s.argNat).2 }

end Sys2Proof.Machine
end

