-- ==== Sys2Proof/Machine/Rans.lean ====
section
/-! DEFINITION. The binary rANS coder, configuration and compute mode (`44_rans.md` R200 to R210). -/

namespace Sys2Proof.Machine

/-- `RANS.freq[sym]` (R29). -/
def RansConf.freq (c : RansConf) (sym : Bool) : Nat := if sym then c.freq1.toNat else c.freq0.toNat

/-- `RANS.cum[sym]` (R29). -/
def RansConf.cum (c : RansConf) (sym : Bool) : Nat := if sym then c.cum1.toNat else c.cum0.toNat

/-- `RANS.thr[sym]` (R29), the flush threshold. -/
def RansConf.thr (c : RansConf) (sym : Bool) : Nat := if sym then c.thr1.toNat else c.thr0.toNat

/-- `RANS.FD[sym]` (R29). -/
def RansConf.fd (c : RansConf) (sym : Bool) : FdDesc := if sym then c.fd1 else c.fd0

/-- `f0` of R200: rounded, then clipped to `1 .. totalFreq - 1`. -/
def freqZero (p : ℚ) (totalFreq : Nat) : Nat :=
  min (max (roundHalfUp ((1 - p) * totalFreq)) 1) (totalFreq - 1)

/-- The configuration registers as functions of `R` and `f0` (R200). -/
def confOf (r f0 : Nat) : RansConf :=
  { r := BitVec.ofNat 5 r
    totalFreq := BitVec.ofNat 24 (2 ^ r)
    freq0 := BitVec.ofNat 23 f0
    freq1 := BitVec.ofNat 23 (2 ^ r - f0)
    cum0 := 0
    cum1 := BitVec.ofNat 23 f0
    thr0 := BitVec.ofNat 31 (f0 * 256)
    thr1 := BitVec.ofNat 31 ((2 ^ r - f0) * 256)
    fd0 := fdDesc f0
    fd1 := fdDesc (2 ^ r - f0) }

/-- `RansCfg(p, R)` (R200), for `0 ≤ p ≤ 1` and `2 ≤ R ≤ 23`. -/
def ransConf (p : ℚ) (r : Nat) : RansConf := confOf r (freqZero p (2 ^ r))

/-- `RANS.CFG` (R201): the probability is checked before the range width (R294). -/
def execRansCfg (s : State) : Result :=
  match s.prob.inUnit with
  | .error c => raised s c
  | .ok p =>
    if s.argNat < 2 ∨ 23 < s.argNat then raised s .invalidRangeWidth
    else .next { s with rans := ransConf p s.argNat, status := s.status.configured }

/-- `EncTr(x, sym)` (R202). -/
def encTr (c : RansConf) (x : Nat) (sym : Bool) : Nat :=
  c.totalFreq.toNat * (fdDivMod (c.fd sym) x).1 + c.cum sym + (fdDivMod (c.fd sym) x).2

/-- The symbol that `DecTr` finds (R203): 1 where `x & (totalFreq - 1) ≥ cum[1]`. -/
def decSym (c : RansConf) (x : Nat) : Bool := decide (c.cum true ≤ (x &&& (c.totalFreq.toNat - 1)))

/-- The next state that `DecTr` finds (R203). -/
def decNext (c : RansConf) (x : Nat) : Nat :=
  c.freq (decSym c x) * (x >>> c.r.toNat) + ((x &&& (c.totalFreq.toNat - 1)) - c.cum (decSym c x))

/-- `DecTr(x)` (R203). -/
def decTr (c : RansConf) (x : Nat) : Nat × Bool := (decNext c x, decSym c x)

/-- The out-buffer and the state that a rANS encoder works on. -/
structure RansRun where
  out : Buffer
  st : Word
deriving DecidableEq, Repr

/-- `Flush(o, sym)` (R204) with at most `fuel` passes. -/
def flush (cap : Nat) (c : RansConf) (sym : Bool) : Nat → RansRun → Except Cause RansRun
  | 0, r => .ok r
  | fuel + 1, r =>
    if r.st.toNat < c.thr sym then .ok r
    else
      match r.out.byteAppend cap (BitVec.ofNat 8 (r.st.toNat &&& 0xFF)) with
      | .error e => .error e
      | .ok o => flush cap c sym fuel { out := o, st := r.st >>> 8 }

/-- How many passes `Flush` is given. Four shifts bring any 32-bit state to 0, below every legal threshold
(R204 needs at most 3); a threshold of 0, which no configuration holds, ends in `BufferOverflow` first. -/
def flushFuel (cap : Nat) : Nat := cap + 5

/-- One symbol of `RANS.ENC` or `RANS.ENCT` (R206, R244): flush, then the transition `tr`. -/
def ransEncSymbol (cap : Nat) (c : RansConf) (tr : Word → Bool → Word) (sym : Bool) (r : RansRun) :
    Except Cause RansRun :=
  match flush cap c sym (flushFuel cap) r with
  | .error e => .error e
  | .ok r' => .ok { r' with st := tr r'.st sym }

/-- The symbol loop of R206: message bits `n - 1` down to 0. -/
def ransEncSymbols (cap : Nat) (c : RansConf) (tr : Word → Bool → Word) (inp : Buffer) :
    Nat → RansRun → Except Cause RansRun
  | 0, r => .ok r
  | n + 1, r =>
    match ransEncSymbol cap c tr (inp.bitRead n) r with
    | .error e => .error e
    | .ok r' => ransEncSymbols cap c tr inp n r'

/-- The encoder of R206 and R244 with the transition `tr`: the out-buffer emptied, the symbols last first, the
bytes reversed. -/
def ransEncode (cap : Nat) (c : RansConf) (tr : Word → Bool → Word) (inp out : Buffer) : Except Cause RansRun :=
  match ransEncSymbols cap c tr inp inp.len.toNat
    { out := { out with len := 0 }, st := wrap32 c.totalFreq.toNat } with
  | .error e => .error e
  | .ok r => .ok { r with out := r.out.reverseBytes (r.out.len.toNat / 8) }

/-- What both encoders do with an encoder run: the results of R206, or the fault of R297. -/
def finishRansEnc (s : State) (o : BufSel) : Except Cause RansRun → Result
  | .error c => raisedInRansEnc s o c
  | .ok r => .next { s.setBuf o r.out with ransState := r.st, res0 := r.st }

/-- The compute-mode encode transition (R202), narrowed to the 32 bits it fits in. -/
def computeEnc (c : RansConf) (x : Word) (sym : Bool) : Word := wrap32 (encTr c x.toNat sym)

/-- The compute-mode decode transition (R203), narrowed to the 32 bits it fits in. -/
def computeDec (c : RansConf) (x : Word) : Word × Bool := (wrap32 (decNext c x.toNat), decSym c x.toNat)

/-- `RANS.ENC` (R206). -/
def execRansEnc (dir : BufSel) (s : State) : Result :=
  if s.status.cfgv = false then raised s .notConfigured
  else finishRansEnc s dir.other
    (ransEncode s.params.capBytes s.rans (computeEnc s.rans) (s.inBuf dir) (s.outBuf dir))

/-- The out-buffer, the state and the read position that a rANS decoder works on. -/
structure RansDecRun where
  out : Buffer
  st : Word
  readPos : Word
deriving DecidableEq, Repr

/-- `Unflush(in)` (R205), at most `n` bytes. -/
def unflush (c : RansConf) (inp : Buffer) : Nat → RansDecRun → RansDecRun
  | 0, r => r
  | n + 1, r =>
    if r.st.toNat < c.totalFreq.toNat ∧ r.readPos.toNat < inp.byteLen then
      unflush c inp n { r with
        st := (r.st <<< 8) ||| wrap32 (inp.byte r.readPos.toNat).toNat, readPos := r.readPos + 1 }
    else r

/-- One symbol of `RANS.DEC` or `RANS.DECT` (R207, R245), message index `j`: unflush (as long as bytes
remain), the transition `tr`, the OR-write. -/
def ransDecSymbol (c : RansConf) (tr : Word → Word × Bool) (inp : Buffer) (j : Nat) (r : RansDecRun) :
    RansDecRun :=
  let u := unflush c inp (inp.byteLen - r.readPos.toNat) r
  { u with st := (tr u.st).1, out := u.out.bitWrite j (tr u.st).2 }

/-- The symbol loop of R207: message bits 0 to `n - 1`. -/
def ransDecSymbols (c : RansConf) (tr : Word → Word × Bool) (inp : Buffer) : Nat → RansDecRun → RansDecRun
  | 0, r => r
  | n + 1, r => ransDecSymbol c tr inp n (ransDecSymbols c tr inp n r)

/-- The decoder of R207 and R245 with the transition `tr`, from the final state `x`. -/
def ransDecode (c : RansConf) (tr : Word → Word × Bool) (inp out : Buffer) (x : Word) : RansDecRun :=
  ransDecSymbols c tr inp out.len.toNat { out := out, st := x, readPos := 0 }

/-- What both decoders do with a decoder run (R207). -/
def finishRansDec (s : State) (o : BufSel) (r : RansDecRun) : Result :=
  .next { s.setBuf o r.out with ransState := r.st, ransReadPos := r.readPos }

/-- `RANS.DEC` (R207). -/
def execRansDec (dir : BufSel) (s : State) : Result :=
  if s.status.cfgv = false then raised s .notConfigured
  else finishRansDec s dir.other
    (ransDecode s.rans (computeDec s.rans) (s.inBuf dir) (s.outBuf dir) s.arg0)

end Sys2Proof.Machine
end

