-- ==== Sys2Proof/Machine/RansTable.lean ====
section
/-! DEFINITION. rANS table mode (`45_rans_table.md` R240 to R249). -/

namespace Sys2Proof.Machine

/-- The number of entries of `encTable`: `totalFreq · 512` (R240). -/
def EncTable.size (t : EncTable) : Nat := t.filledFrom.totalFreq.toNat * 512

/-- `encTable[i]` for `i < size`: index `2x + sym` holds `EncTr(x, sym) mod 2^32` (R240, R248). -/
def EncTable.entry (t : EncTable) (i : Nat) : Word := wrap32 (encTr t.filledFrom (i / 2) (i % 2 == 1))

/-- The array of R240, entry by entry. -/
def EncTable.dense (t : EncTable) : List Word := (List.range t.size).map t.entry

/-- The number of entries of `decTable`: `totalFreq · 256` (R241). -/
def DecTable.size (t : DecTable) : Nat := t.filledFrom.totalFreq.toNat * 256

/-- `decTable[x]` for `x < size`: the pair `DecTr(x)` (R241), a 32-bit state and a symbol. -/
def DecTable.entry (t : DecTable) (x : Nat) : Word × Bool := (wrap32 (decNext t.filledFrom x), decSym t.filledFrom x)

/-- The array of R241, entry by entry. -/
def DecTable.dense (t : DecTable) : List (Word × Bool) := (List.range t.size).map t.entry

/-- `RANS.BLDE` (R242): the fill of R240 from the current configuration. -/
def execRansBlde (s : State) : Result :=
  if s.status.cfgv = false then raised s .notConfigured
  else if s.params.tblRmax < s.rans.r.toNat then raised s .tableTooLarge
  else .next { s with encTable := { filledFrom := s.rans }, status := s.status.setEtv }

/-- `RANS.BLDD` (R243): the fill of R241 from the current configuration. -/
def execRansBldd (s : State) : Result :=
  if s.status.cfgv = false then raised s .notConfigured
  else if s.params.tblRmax < s.rans.r.toNat then raised s .tableTooLarge
  else .next { s with decTable := { filledFrom := s.rans }, status := s.status.setDtv }

/-- The lookup `encTable[2 · state + sym]` (R244). -/
def tableEnc (t : EncTable) (x : Word) (sym : Bool) : Word := t.entry (2 * x.toNat + sym.toNat)

/-- The lookup `decTable[state]` (R245). -/
def tableDec (t : DecTable) (x : Word) : Word × Bool := t.entry x.toNat

/-- `RANS.ENCT` (R244): R206 with the transition replaced by a lookup. -/
def execRansEnct (dir : BufSel) (s : State) : Result :=
  if s.status.cfgv = false then raised s .notConfigured
  else if s.status.etv = false then raised s .tableNotBuilt
  else finishRansEnc s dir.other
    (ransEncode s.params.capBytes s.rans (tableEnc s.encTable) (s.inBuf dir) (s.outBuf dir))

/-- `RANS.DECT` (R245): R207 with the transition replaced by a lookup, from a state inside the table. -/
def execRansDect (dir : BufSel) (s : State) : Result :=
  if s.status.cfgv = false then raised s .notConfigured
  else if s.status.dtv = false then raised s .tableNotBuilt
  else if s.rans.totalFreq.toNat * 256 ≤ s.argNat then raised s .tableIndexOutOfRange
  else finishRansDec s dir.other
    (ransDecode s.rans (tableDec s.decTable) (s.inBuf dir) (s.outBuf dir) s.arg0)

end Sys2Proof.Machine
end

