-- ==== Sys2Proof/Machine/Dispatch.lean ====
section
/-! DEFINITION. One arm per command: "execute the rule of that row to its end, or until its first raise"
(`46_sequencing_and_system.md` R260). The refusal while `FAULT = 1` and the decoding come before
(Machine/Sequencer.lean). -/

namespace Sys2Proof.Machine

def exec (i : Instr) (s : State) : Host.Outcome State Fault Refusal :=
  match i with
  | .bbNew sel => Sys2Proof.Machine.execBbNew sel s
  | .bbRd sel => Sys2Proof.Machine.execBbRd sel s
  | .bbWr sel b => Sys2Proof.Machine.execBbWr sel b s
  | .bbLen sel => Sys2Proof.Machine.execBbLen sel s
  | .bbByte sel => Sys2Proof.Machine.execBbByte sel s
  | .bsNew sel => Sys2Proof.Machine.execBsNew sel s
  | .bsApp sel b => Sys2Proof.Machine.execBsApp sel b s
  | .fdivSetup => Sys2Proof.Machine.execFdivSetup s
  | .fdivDiv => Sys2Proof.Machine.execFdivDiv s
  | .fdivDivmod => Sys2Proof.Machine.execFdivDivmod s
  | .fmulSetup => Sys2Proof.Machine.execFmulSetup s
  | .fmulMul => Sys2Proof.Machine.execFmulMul s
  | .bacEnc dir => Sys2Proof.Machine.execBacEnc dir s
  | .bacDec dir => Sys2Proof.Machine.execBacDec dir s
  | .ransCfg => Sys2Proof.Machine.execRansCfg s
  | .ransEnc dir => Sys2Proof.Machine.execRansEnc dir s
  | .ransEnct dir => Sys2Proof.Machine.execRansEnct dir s
  | .ransDec dir => Sys2Proof.Machine.execRansDec dir s
  | .ransDect dir => Sys2Proof.Machine.execRansDect dir s
  | .ransBlde => Sys2Proof.Machine.execRansBlde s
  | .ransBldd => Sys2Proof.Machine.execRansBldd s

end Sys2Proof.Machine
end

