-- ==== Sys2Proof/Machine/HostInterface.lean ====
section
/-! DEFINITION. What the host can do to the block and see of it between commands (`20_memory.md` R74,
`46_sequencing_and_system.md` R264), and the host directives of `30_encoding.md` R98. -/

namespace Sys2Proof.Machine

/-- The host writes `BUF[sel].bytes[k]`, which exists for `k < CAP_BYTES` (R74). -/
def hostWriteByte (sel : BufSel) (k : Nat) (v : Byte) (s : State) : Result :=
  if k < s.params.capBytes then .next (s.setBuf sel { s.buf sel with bytes := (s.buf sel).bytes.write k v })
  else .fault .hostByteOutsideBuffer

/-- The host writes `BUF[sel].len`, to a value of at most `8 · CAP_BYTES` (R74). -/
def hostWriteLen (sel : BufSel) (n : Word) (s : State) : Result :=
  if n.toNat ≤ 8 * s.params.capBytes then .next (s.setBuf sel { s.buf sel with len := n })
  else .fault .hostLengthAboveCapacity

/-- The registers the host reads as numbers (R22, R25 to R30). `CMD` is write-only and `TBL` is internal
(R33), so neither has a name here; `PROB` is no number (`hostReadProb`). -/
inductive HostReg where
  | arg0 | res0 | res1 | status
  | fdgD | fdgMul | fdgShift | fmgM
  | bacM | bacLow | bacHigh | bacValue | bacPending | bacReadPos | bacWritePos
  | ransR | ransTotalFreq
  | ransFreq (sym : Bool) | ransCum (sym : Bool) | ransThr (sym : Bool)
  | ransFdD (sym : Bool) | ransFdMul (sym : Bool) | ransFdShift (sym : Bool)
  | ransState | ransReadPos
  | bufLen (sel : BufSel)
deriving DecidableEq, Repr

/-- What the host reads in a register (R74, R264); the state does not change. -/
def hostRead (s : State) : HostReg → Nat
  | .arg0 => s.arg0.toNat
  | .res0 => s.res0.toNat
  | .res1 => s.res1.toNat
  | .status => s.status.toWord.toNat
  | .fdgD => s.fdg.d.toNat
  | .fdgMul => s.fdg.mul.toNat
  | .fdgShift => s.fdg.shift.toNat
  | .fmgM => s.fmgM.toNat
  | .bacM => s.bac.m.toNat
  | .bacLow => s.bac.low.toNat
  | .bacHigh => s.bac.high.toNat
  | .bacValue => s.bac.value.toNat
  | .bacPending => s.bac.pending.toNat
  | .bacReadPos => s.bac.readPos.toNat
  | .bacWritePos => s.bac.writePos.toNat
  | .ransR => s.rans.r.toNat
  | .ransTotalFreq => s.rans.totalFreq.toNat
  | .ransFreq sym => if sym then s.rans.freq1.toNat else s.rans.freq0.toNat
  | .ransCum sym => if sym then s.rans.cum1.toNat else s.rans.cum0.toNat
  | .ransThr sym => if sym then s.rans.thr1.toNat else s.rans.thr0.toNat
  | .ransFdD sym => if sym then s.rans.fd1.d.toNat else s.rans.fd0.d.toNat
  | .ransFdMul sym => if sym then s.rans.fd1.mul.toNat else s.rans.fd0.mul.toNat
  | .ransFdShift sym => if sym then s.rans.fd1.shift.toNat else s.rans.fd0.shift.toNat
  | .ransState => s.ransState.toNat
  | .ransReadPos => s.ransReadPos.toNat
  | .bufLen sel => (s.buf sel).len.toNat

/-- What the host reads in `PROB` (R22). -/
def hostReadProb (s : State) : Prob := s.prob

/-- What the host reads in byte `k` of a buffer, for `k < CAP_BYTES` (R74). DESIGN CHOICE (log entry 14): R74 leaves
a read at any other index open, and the model answers no value there, the byte not existing (R60). -/
def hostReadByte (s : State) (sel : BufSel) (k : Nat) : Option Byte :=
  if k < s.params.capBytes then some ((s.buf sel).byte k) else none

/-- The writes of the bytes `vs` from index `k` on. -/
def byteWrites (sel : BufSel) : Nat → List Byte → List HostAction
  | _, [] => []
  | k, v :: vs => .writeByte sel k v :: byteWrites sel (k + 1) vs

/-- The directive `.loadbytes sel, [...]` (R98). -/
def loadBytesActions (sel : BufSel) (vs : List Byte) : List HostAction :=
  byteWrites sel 0 vs ++ [.writeLen sel (wrap32 (8 * vs.length))]

/-- Byte `k` of a bit string stored LSB first (R61), the bits past its end 0. -/
def packByte (bits : List Bool) (k : Nat) : Byte :=
  BitVec.ofNat 8 ((List.range 8).foldr (fun i acc => (bits.getD (8 * k + i) false).toNat + 2 * acc) 0)

/-- The directive `.load sel, bits "..."` (R98). -/
def loadBitsActions (sel : BufSel) (bits : List Bool) : List HostAction :=
  byteWrites sel 0 ((List.range ((bits.length + 7) / 8)).map (packByte bits)) ++
    [.writeLen sel (wrap32 bits.length)]

end Sys2Proof.Machine
end

