-- ==== Sys2Proof/Machine/Sequencer.lean ====
section
/-! DEFINITION. What one host action does (`46_sequencing_and_system.md` R260, `20_memory.md` R74). -/

namespace Sys2Proof.Machine

/-- `Step(w)` of R260: refused while `FAULT = 1`, else decoded, else executed. -/
def runCommand (w : Word) (s : State) : Result :=
  if s.refusesCommands then .next s
  else
    match decode w with
    | .error _ => raised s .illegalCommand
    | .ok i => exec i s

/-- One host action on the block. -/
def act (a : HostAction) (s : State) : Result :=
  match a with
  | .writeCmd w => runCommand w s
  | .writeArg0 v => .next { s with arg0 := v }
  | .writeProb p => .next { s with prob := p }
  | .writeByte sel k v => hostWriteByte sel k v s
  | .writeLen sel n => hostWriteLen sel n s
  | .reset => .next s.afterReset

/-- The next host action, taken from the queue. With none left the block is idle and holds its state for any
length of time (R266, R303). -/
def serve (s : State) : Result :=
  match s.inbox with
  | [] => .next s
  | a :: rest => act a { s with inbox := rest }

/-- The queue with the write of a command word in front, which is how a command comes to run. -/
def State.pushCommand (s : State) (w : Word) : State := { s with inbox := .writeCmd w :: s.inbox }

end Sys2Proof.Machine
end

