-- ==== Sys2Proof/Machine/Step.lean ====
section
/-! DEFINITION. The machine's step: one host action, a command being one indivisible action
(`46_sequencing_and_system.md` R260). -/

namespace Sys2Proof.Machine

/-- One step: the next host action. -/
def step (s : State) : Host.Outcome State Fault Refusal := serve s

/-- The state in which the very next step is the write of the command word `w` to `CMD` (log entry 1). -/
def State.withFetchWord (s : State) (nbits w : Nat) : State := s.pushCommand (tableWord nbits w)

end Sys2Proof.Machine
end

