-- ==== Sys2Proof/Safety.lean ====
section
/-! DEFINITION. What claims about a run are stated in: the legal values of the registers (`10_state.md` R22 to
R33), the invariant of the machine (R37, `20_memory.md` R75, `60_exceptions.md` R281), and the precise faults
of a command in the order in which it checks them (R294). -/

namespace Sys2Proof.Machine

/-- A descriptor as R130 builds it for its divisor. -/
def FdDesc.Legal (D : FdDesc) : Prop := D = fdDesc D.d.toNat

/-- The legal values of the rANS configuration registers (R29). -/
structure RansConf.Legal (c : RansConf) : Prop where
  /-- "`R ∈ [2, 23]`" -/
  r_range : 2 ≤ c.r.toNat ∧ c.r.toNat ≤ 23
  /-- "`totalFreq = 2^R`" -/
  totalFreq_eq : c.totalFreq.toNat = 2 ^ c.r.toNat
  /-- "`freq[0] + freq[1] = totalFreq`, each `≥ 1`" -/
  freq_sum : c.freq false + c.freq true = c.totalFreq.toNat
  freq_pos : ∀ sym, 1 ≤ c.freq sym
  /-- "`cum[0] = 0`, `cum[1] = freq[0]`" -/
  cum_zero : c.cum false = 0
  cum_one : c.cum true = c.freq false
  /-- "`flushThreshold[s] = freq[s] · 256`" -/
  thr_eq : ∀ sym, c.thr sym = c.freq sym * 256
  /-- "`fastDiv[s]` — fast division by `freq[s]`" -/
  fd_eq : ∀ sym, c.fd sym = fdDesc (c.freq sym)

/-- The bytes of both buffers are in canonical form, and none is listed beyond the capacity (R23, R60). -/
def State.BytesOk (s : State) : Prop :=
  ∀ sel, (s.buf sel).bytes.wf = true ∧ (s.buf sel).bytes.within s.params.capBytes = true

/-- "width 32, unsigned, ≤ 8·`CAP_BYTES`" (R23). -/
def State.LensOk (s : State) : Prop := ∀ sel, (s.buf sel).len.toNat ≤ 8 * s.params.capBytes

/-- The invariant of the machine between commands. R37 claims the closure "provided no fault is recorded";
what a fault can leave open (R297) is only claimed without one. -/
structure State.Inv (s : State) : Prop where
  /-- The OPEN parameters are in their ranges (R5). -/
  params : s.params.wf = true
  /-- The buffers' bytes are in canonical form and in place. -/
  bytes : s.BytesOk
  /-- The lengths are within the capacity as long as no fault is recorded. -/
  lens : s.status.fault = false → s.LensOk
  /-- `CAUSE` is 0 without a fault and a code of R281 with one. -/
  cause_none : s.status.fault = false → s.status.cause = 0
  cause_some : s.status.fault = true → ∃ c : Cause, s.status.cause = c.code
  /-- `FDG` is a descriptor of R130 once set up (R25). -/
  fdg : s.status.fdgv = true → s.fdg.Legal
  /-- `FMG.M` is in `0 .. 2^32` once set up (R26). -/
  fmg : s.status.fmgv = true → s.fmgM.toNat ≤ 4294967296
  /-- The rANS configuration is legal once set up (R29). -/
  rans : s.status.cfgv = true → s.rans.Legal
  /-- A valid table is that of the current configuration (R75), small enough for `TBL` (R242, R243). -/
  enc : s.status.etv = true →
    s.status.cfgv = true ∧ s.encTable.filledFrom = s.rans ∧ s.rans.r.toNat ≤ s.params.tblRmax
  dec : s.status.dtv = true →
    s.status.cfgv = true ∧ s.decTable.filledFrom = s.rans ∧ s.rans.r.toNat ≤ s.params.tblRmax

/-- A probability operand outside `[0, 1]`, or none at all (R283). -/
def probOutOfUnit : Prob → Prop
  | .notNumber => True
  | .num p => p < 0 ∨ 1 < p

/-- The first of the listed causes whose condition holds: the order in which R294 has a command check. -/
def firstCause : List (Prop × Cause) → Cause → Prop
  | [], _ => False
  | (p, c) :: rest, x => (p ∧ x = c) ∨ (¬ p ∧ firstCause rest x)

/-- The conditions of R281 under which a command raises a precise fault (classes (3) to (5) of R294), in the
order in which R294 has them checked. -/
def faultChecks (i : Instr) (s : State) : List (Prop × Cause) :=
  match i with
  | .bbNew _ => [(8 * s.params.capBytes < s.arg0.toNat, .bufferOverflow)]
  | .bbRd sel => [((s.buf sel).len.toNat ≤ s.arg0.toNat, .indexOutOfRange)]
  | .bbWr sel _ => [((s.buf sel).len.toNat ≤ s.arg0.toNat, .indexOutOfRange)]
  | .bbLen _ => []
  | .bbByte sel => [(((s.buf sel).len.toNat + 7) / 8 ≤ s.arg0.toNat, .indexOutOfRange)]
  | .bsNew _ => []
  | .bsApp sel _ => [(8 * s.params.capBytes ≤ (s.buf sel).len.toNat, .bufferOverflow)]
  | .fdivSetup => [(2 ^ 31 ≤ s.arg0.toNat, .divisorOutOfRange)]
  | .fdivDiv => [(s.status.fdgv = false, .notConfigured), (2 ^ 31 ≤ s.arg0.toNat, .operandOutOfRange)]
  | .fdivDivmod => [(s.status.fdgv = false, .notConfigured), (2 ^ 31 ≤ s.arg0.toNat, .operandOutOfRange)]
  | .fmulSetup => [(probOutOfUnit s.prob, .invalidProbability)]
  | .fmulMul => [(s.status.fmgv = false, .notConfigured)]
  | .bacEnc _ => [(s.prob = .notNumber, .invalidProbability)]
  | .bacDec _ => [(s.prob = .notNumber, .invalidProbability)]
  | .ransCfg =>
    [(probOutOfUnit s.prob, .invalidProbability), (s.arg0.toNat < 2 ∨ 23 < s.arg0.toNat, .invalidRangeWidth)]
  | .ransEnc _ => [(s.status.cfgv = false, .notConfigured)]
  | .ransEnct _ => [(s.status.cfgv = false, .notConfigured), (s.status.etv = false, .tableNotBuilt)]
  | .ransDec _ => [(s.status.cfgv = false, .notConfigured)]
  | .ransDect _ =>
    [(s.status.cfgv = false, .notConfigured), (s.status.dtv = false, .tableNotBuilt),
      (s.rans.totalFreq.toNat * 256 ≤ s.arg0.toNat, .tableIndexOutOfRange)]
  | .ransBlde =>
    [(s.status.cfgv = false, .notConfigured), (s.params.tblRmax < s.rans.r.toNat, .tableTooLarge)]
  | .ransBldd =>
    [(s.status.cfgv = false, .notConfigured), (s.params.tblRmax < s.rans.r.toNat, .tableTooLarge)]

/-- The command `i` raises the precise fault `c` in the state `s`. -/
def RaisesPrecisely (i : Instr) (s : State) (c : Cause) : Prop := firstCause (faultChecks i s) c

/-- The commands that can fault in the middle (class (6) of R294): the encoders. -/
def isEncoder : Instr → Bool
  | .bacEnc _ => true
  | .ransEnc _ => true
  | .ransEnct _ => true
  | _ => false

end Sys2Proof.Machine
end

