-- ==== Sys2Proof/Certificates/Slice0/Obligations.lean ====
section
/-! DEFINITION. The statements for the provers. Each docstring names the rules of spec/ that the statement
formalises, or says that it is derived. A frame is written as `t = { s with … }`: `t` is `s` but for the named
fields, so every other register, flag, buffer and table is unchanged. -/

open Sys2Proof Sys2Proof.Machine

/-! ### The command word -/

/-- R93 on words written out from its rows, R95 on some of the words it excludes. -/
def Obligations.WrittenCommandWordsDecode : Prop :=
  decode 0x00000010#32 = .ok (.bbNew .b0) ∧ decode 0x00000114#32 = .ok (.bbByte .b1) ∧
  decode 0x00000312#32 = .ok (.bbWr .b1 true) ∧ decode 0x00000216#32 = .ok (.bsApp .b0 true) ∧
  decode 0x00000022#32 = .ok .fdivDivmod ∧ decode 0x00000031#32 = .ok .fmulMul ∧
  decode 0x00000140#32 = .ok (.bacEnc .b1) ∧ decode 0x00000051#32 = .ok (.ransEnc .b0) ∧
  decode 0x00000551#32 = .ok (.ransEnct .b1) ∧ decode 0x00000452#32 = .ok (.ransDect .b0) ∧
  decode 0x00000054#32 = .ok .ransBldd ∧
  decode 0x00000000#32 = .error .unknownOp ∧ decode 0x000000FF#32 = .error .unknownOp ∧
  decode 0x00000120#32 = .error .straySel ∧ decode 0x00000211#32 = .error .strayB ∧
  decode 0x00000440#32 = .error .strayT ∧ decode 0x00000840#32 = .error .highBits

/-- Derived from R93, R96, R97: decoding inverts encoding, and a word decodes only to the command that it
encodes, so no bit of a word is dropped. -/
def Obligations.DecodeAndEncodeAgree : Prop :=
  (∀ i : Instr, decode (encode i) = .ok i) ∧
  ∀ (w : Word) (i : Instr), decode w = .ok i → encode i = w

/-- R93: "a word `w` selects the row when `w & mask = match`", and R93's disjointness: a word that selects a
row decodes to a command of that row, whichever command of the row one starts from, and a decoded word
selects its command's row. -/
def Obligations.DecodeFollowsMatchAndMask : Prop :=
  (∀ (w : Word) (i : Instr), decode w = .ok i → w &&& i.rowMask = i.rowMatch) ∧
  ∀ (w : Word) (i : Instr), w &&& i.rowMask = i.rowMatch →
    ∃ j, decode w = .ok j ∧ j.rowMatch = i.rowMatch ∧ j.rowMask = i.rowMask

/-- R95, R282: a word that matches no row of R93 raises `IllegalCommand` and changes nothing but `FAULT` and
`CAUSE`. -/
def Obligations.UnlistedWordRaisesIllegalCommand : Prop :=
  ∀ (s : State) (w : Word) (rest : List HostAction),
    s.inbox = .writeCmd w :: rest → s.status.fault = false →
    (∀ i : Instr, w &&& i.rowMask ≠ i.rowMatch) →
    step s = .next { s with inbox := rest, status := { s.status with fault := true, cause := 1 } }

/-! ### Steps -/

/-- R260: a step whose host action writes a word that decodes to `i`, with no fault recorded, is `exec i` after
the action is taken from the queue. -/
def Obligations.StepRunsTheDecodedCommand : Prop :=
  ∀ (s : State) (w : Word) (rest : List HostAction) (i : Instr),
    s.inbox = .writeCmd w :: rest → s.status.fault = false → decode w = .ok i →
    step s = exec i { s with inbox := rest }

/-- R296: while `FAULT = 1` the write to `CMD` changes nothing at all, whatever the word. -/
def Obligations.FaultedBlockRefusesCommands : Prop :=
  ∀ (s : State) (w : Word) (rest : List HostAction),
    s.inbox = .writeCmd w :: rest → s.status.fault = true → step s = .next { s with inbox := rest }

/-- R296, R322 (derived: over any number of steps): without a reset, a recorded fault stays, `CAUSE` names it,
and no register of a unit, no result and no table changes. -/
def Obligations.FaultStaysUntilReset : Prop :=
  ∀ (n : Nat) (s t : State), s.status.fault = true → (∀ a ∈ s.inbox, a ≠ .reset) →
    Host.Core.run Sys2Proof.core n s = .next t →
    t = { s with inbox := t.inbox, arg0 := t.arg0, prob := t.prob, buf0 := t.buf0, buf1 := t.buf1 }

/-- R310: after the reset event `STATUS` reads 0 and both lengths are 0, also when a fault was recorded. -/
def Obligations.ResetEventClearsStatusAndLengths : Prop :=
  ∀ (s : State) (rest : List HostAction), s.inbox = .reset :: rest →
    ∃ t, step s = .next t ∧ t.status.toWord = 0 ∧ (∀ sel, (t.buf sel).len = 0) ∧
      t.inbox = rest ∧ t.params = s.params

/-- R74 (with the model's own stops outside its bounds, Machine/State.lean `Fault`; the queue of actions and
the idle step are log entry 1): the host's writes between commands. -/
def Obligations.HostWritesBetweenCommands : Prop :=
  (∀ (s : State) (v : Word) (rest : List HostAction), s.inbox = .writeArg0 v :: rest →
    step s = .next { s with inbox := rest, arg0 := v }) ∧
  (∀ (s : State) (p : Prob) (rest : List HostAction), s.inbox = .writeProb p :: rest →
    step s = .next { s with inbox := rest, prob := p }) ∧
  (∀ (s : State) (sel : BufSel) (k : Nat) (v : Byte) (rest : List HostAction),
    s.inbox = .writeByte sel k v :: rest → (s.buf sel).bytes.wf = true →
    (k < s.params.capBytes → ∃ t, step s = .next t ∧
      t = { s.setBuf sel (t.buf sel) with inbox := rest } ∧ (t.buf sel).len = (s.buf sel).len ∧
      ∀ a, (t.buf sel).byte a = if a = k then v else (s.buf sel).byte a) ∧
    (s.params.capBytes ≤ k → step s = .fault .hostByteOutsideBuffer)) ∧
  ∀ (s : State) (sel : BufSel) (n : Word) (rest : List HostAction), s.inbox = .writeLen sel n :: rest →
    (n.toNat ≤ 8 * s.params.capBytes → ∃ t, step s = .next t ∧
      t = { s.setBuf sel (t.buf sel) with inbox := rest } ∧ (t.buf sel).len = n ∧
      ∀ a, (t.buf sel).byte a = (s.buf sel).byte a) ∧
    (8 * s.params.capBytes < n.toNat → step s = .fault .hostLengthAboveCapacity)

/-! ### STATUS and faults -/

/-- R24: the places of the fields in the word the host reads; bits 31:14 read as 0. -/
def Obligations.StatusWordLayout : Prop :=
  ∀ st : Status,
    st.toWord.getLsbD 0 = st.fault ∧ st.toWord.extractLsb' 1 8 = st.cause ∧
    st.toWord.getLsbD 9 = st.cfgv ∧ st.toWord.getLsbD 10 = st.etv ∧ st.toWord.getLsbD 11 = st.dtv ∧
    st.toWord.getLsbD 12 = st.fdgv ∧ st.toWord.getLsbD 13 = st.fmgv ∧ st.toWord.extractLsb' 14 18 = 0

/-- R280, R281, R294, R297: a command whose checks fail raises the first failing one's cause, and changes
nothing but `FAULT` and `CAUSE`; a command that is no encoder and whose checks all pass records no fault. -/
def Obligations.CommandsFaultExactlyAsListed : Prop :=
  (∀ (i : Instr) (s : State) (c : Cause), RaisesPrecisely i s c →
    exec i s = .next { s with status := { s.status with fault := true, cause := c.code } }) ∧
  ∀ (i : Instr) (s : State), s.status.fault = false → isEncoder i = false →
    (∀ c, ¬ RaisesPrecisely i s c) → ∃ t, exec i s = .next t ∧ t.status.fault = false

/-- R297, R295: a fault in the middle of an encoder leaves everything but the listed items unchanged, and its
cause is `BufferOverflow` or, in `BAC.ENC`, `PendingOverflow`. (`freeCount` is the model's own field, log
entry 5.) -/
def Obligations.EncoderFaultsChangeOnlyListedItems : Prop :=
  (∀ (dir : BufSel) (s t : State), s.status.fault = false → (∀ c, ¬ RaisesPrecisely (.bacEnc dir) s c) →
    exec (.bacEnc dir) s = .next t → t.status.fault = true →
    (t.status.cause = 9 ∨ t.status.cause = 10) ∧
    t = { s.setBuf dir.other (t.buf dir.other) with
      bac := t.bac, freeCount := t.freeCount,
      status := { s.status with fault := true, cause := t.status.cause } }) ∧
  ∀ (dir : BufSel) (i : Instr) (s t : State), i = .ransEnc dir ∨ i = .ransEnct dir →
    s.status.fault = false → (∀ c, ¬ RaisesPrecisely i s c) → exec i s = .next t → t.status.fault = true →
    t.status.cause = 9 ∧
    t = { s.setBuf dir.other (t.buf dir.other) with
      ransState := t.ransState, res0 := t.res0, freeCount := t.freeCount,
      status := { s.status with fault := true, cause := t.status.cause } }

/-- R290, R294 class (6): with room for fewer than the two bits that finalisation always appends, `BAC.ENC`
ends in a fault. -/
def Obligations.BacEncoderNeedsRoomForTwoBits : Prop :=
  ∀ (dir : BufSel) (s : State) (p : ℚ), s.params.wf = true → (s.buf dir.other).bytes.wf = true →
    s.prob = .num p → 8 * s.params.capBytes < (s.buf dir.other).len.toNat + 2 →
    ∃ t, exec (.bacEnc dir) s = .next t ∧ t.status.fault = true

/-! ### Bit buffers -/

/-- The command `i` ends in the precise fault of the given code (R280, R295): `FAULT` and `CAUSE` change, and
nothing else. -/
def FaultsWith (i : Instr) (s : State) (code : BitVec 8) : Prop :=
  exec i s = .next { s with status := { s.status with fault := true, cause := code } }

/-- R110: `BB.NEW` within the capacity, and beyond it. -/
def Obligations.BbNewGivesZeroBits : Prop :=
  ∀ (sel : BufSel) (s : State),
    (s.arg0.toNat ≤ 8 * s.params.capBytes →
      ∃ t, exec (.bbNew sel) s = .next t ∧ t = s.setBuf sel (t.buf sel) ∧ (t.buf sel).len = s.arg0 ∧
        ∀ k, (t.buf sel).byte k = if k < (s.arg0.toNat + 7) / 8 then 0 else (s.buf sel).byte k) ∧
    (8 * s.params.capBytes < s.arg0.toNat → FaultsWith (.bbNew sel) s 9)

/-- R111 with R63: `BB.RD` within the length, and beyond it. -/
def Obligations.BbRdReadsOneBit : Prop :=
  ∀ (sel : BufSel) (s : State),
    (s.arg0.toNat < (s.buf sel).len.toNat →
      ∃ t, exec (.bbRd sel) s = .next t ∧ t = { s with res0 := t.res0 } ∧
        t.res0.toNat = ((s.buf sel).byte (s.arg0.toNat / 8)).toNat / 2 ^ (s.arg0.toNat % 8) % 2) ∧
    ((s.buf sel).len.toNat ≤ s.arg0.toNat → FaultsWith (.bbRd sel) s 8)

/-- R112 with R64: `BB.WR` within the length ORs the one bit in, every other bit of the buffer being unchanged;
and beyond the length. -/
def Obligations.BbWrOrsOneBit : Prop :=
  ∀ (sel : BufSel) (b : Bool) (s : State), (s.buf sel).bytes.wf = true →
    (s.arg0.toNat < (s.buf sel).len.toNat →
      ∃ t, exec (.bbWr sel b) s = .next t ∧ t = s.setBuf sel (t.buf sel) ∧ (t.buf sel).len = (s.buf sel).len ∧
        (∀ j, (t.buf sel).bitRead j = ((s.buf sel).bitRead j || (decide (j = s.arg0.toNat) && b))) ∧
        ∀ k, k ≠ s.arg0.toNat / 8 → (t.buf sel).byte k = (s.buf sel).byte k) ∧
    ((s.buf sel).len.toNat ≤ s.arg0.toNat → FaultsWith (.bbWr sel b) s 8)

/-- R113: `BB.LEN`. -/
def Obligations.BbLenReturnsBothLengths : Prop :=
  ∀ (sel : BufSel) (s : State),
    ∃ t, exec (.bbLen sel) s = .next t ∧ t = { s with res0 := t.res0, res1 := t.res1 } ∧
      t.res0.toNat = (s.buf sel).len.toNat ∧ t.res1.toNat = ((s.buf sel).len.toNat + 7) / 8

/-- R114: `BB.BYTE` within the byte length, and beyond it. -/
def Obligations.BbByteReadsOneByte : Prop :=
  ∀ (sel : BufSel) (s : State),
    (s.arg0.toNat < ((s.buf sel).len.toNat + 7) / 8 →
      ∃ t, exec (.bbByte sel) s = .next t ∧ t = { s with res0 := t.res0 } ∧
        t.res0.toNat = ((s.buf sel).byte s.arg0.toNat).toNat) ∧
    (((s.buf sel).len.toNat + 7) / 8 ≤ s.arg0.toNat → FaultsWith (.bbByte sel) s 8)

/-- R115: `BS.NEW` empties the stream and writes no byte, whatever `ARG0` holds. -/
def Obligations.BsNewOnlyEmptiesTheStream : Prop :=
  ∀ (sel : BufSel) (s : State),
    ∃ t, exec (.bsNew sel) s = .next t ∧ t = s.setBuf sel (t.buf sel) ∧ (t.buf sel).len = 0 ∧
      ∀ k, (t.buf sel).byte k = (s.buf sel).byte k

/-- R116 with R65: `BS.APP` with room, and at the capacity. At a length that is a multiple of 8 the byte at
`len div 8` is first overwritten with 0x00; then the bit is ORed in. -/
def Obligations.BsAppAppendsOneBit : Prop :=
  ∀ (sel : BufSel) (b : Bool) (s : State), s.params.wf = true → (s.buf sel).bytes.wf = true →
    ((s.buf sel).len.toNat < 8 * s.params.capBytes →
      ∃ t, exec (.bsApp sel b) s = .next t ∧ t = s.setBuf sel (t.buf sel) ∧
        (t.buf sel).len.toNat = (s.buf sel).len.toNat + 1 ∧
        (∀ j, (t.buf sel).bitRead j =
          if (s.buf sel).len.toNat % 8 = 0 ∧ j / 8 = (s.buf sel).len.toNat / 8
          then decide (j = (s.buf sel).len.toNat) && b
          else (s.buf sel).bitRead j || (decide (j = (s.buf sel).len.toNat) && b)) ∧
        ∀ k, k ≠ (s.buf sel).len.toNat / 8 → (t.buf sel).byte k = (s.buf sel).byte k) ∧
    ((s.buf sel).len.toNat = 8 * s.params.capBytes → FaultsWith (.bsApp sel b) s 9)

/-- The host actions of a stream command per bit of `bs`. -/
def appendActions (sel : BufSel) (bs : List Bool) : List HostAction :=
  bs.map fun b => .writeCmd (encode (.bsApp sel b))

/-- Derived from R61, R65, R116: a stream started by `BS.NEW` and given the bits `bs` holds `bs` LSB first, and
the bits of its last byte above the length are 0. -/
def Obligations.AppendedStreamReadsBack : Prop :=
  ∀ (sel : BufSel) (bs : List Bool) (s : State), s.params.wf = true → (s.buf sel).bytes.wf = true →
    s.status.fault = false → bs.length ≤ 8 * s.params.capBytes →
    s.inbox = .writeCmd (encode (.bsNew sel)) :: appendActions sel bs →
    ∃ t, Host.Core.run Sys2Proof.core (bs.length + 1) s = .next t ∧
      t = { s.setBuf sel (t.buf sel) with inbox := [] } ∧ (t.buf sel).len.toNat = bs.length ∧
      ∀ j, j / 8 < (bs.length + 7) / 8 → (t.buf sel).bitRead j = bs.getD j false

/-- The commands that R98 gives as the equivalent of `.load sel, bits bs`: `BB.NEW`, then `BB.WR` of a 1 at
every index `k ≥ k0` whose bit of `bs` is 1. -/
def setBitActions (sel : BufSel) : Nat → List Bool → List HostAction
  | _, [] => []
  | k, true :: bs => .writeArg0 (wrap32 k) :: .writeCmd (encode (.bbWr sel true)) :: setBitActions sel (k + 1) bs
  | k, false :: bs => setBitActions sel (k + 1) bs

/-- R98's equivalence: the directive `.load sel, bits bs` leaves the same buffer as `BB.NEW sel, n = |bs|`
followed by a `BB.WR sel, b = 1` for every 1 of `bs` (which also write `ARG0`). -/
def Obligations.LoadDirectiveEqualsItsCommands : Prop :=
  ∀ (sel : BufSel) (bs : List Bool) (s : State), s.params.wf = true → (s.buf sel).bytes.wf = true →
    s.status.fault = false → bs.length ≤ 8 * s.params.capBytes →
    ∃ t u,
      Host.Core.run Sys2Proof.core (loadBitsActions sel bs).length { s with inbox := loadBitsActions sel bs } =
        .next t ∧
      Host.Core.run Sys2Proof.core
        ((setBitActions sel 0 bs).length + 2)
        { s with inbox := .writeArg0 (wrap32 bs.length) :: .writeCmd (encode (.bbNew sel)) ::
            setBitActions sel 0 bs } = .next u ∧
      t.buf sel = u.buf sel ∧ (t.buf sel).len.toNat = bs.length ∧
      ∀ j, j < bs.length → (t.buf sel).bitRead j = bs.getD j false

/-! ### Fast division -/

/-- R137: "for all `d ∈ [1, 2³¹−1]` and all `n ∈ [0, 2³¹)`, `fastDiv(d).divmod(n) = (n/d, n mod d)`". -/
def Obligations.FastDivisionIsExact : Prop :=
  ∀ d n : Nat, 1 ≤ d → d < 2 ^ 31 → n < 2 ^ 31 → fdDivMod (fdDesc d) n = (n / d, n % d)

/-- R136 (derived there): the widths of a descriptor, and when `mul` is `2^32`. -/
def Obligations.DescriptorFieldsFitTheirWidths : Prop :=
  ∀ d : Nat, 1 ≤ d → d < 2 ^ 31 →
    (fdDesc d).d.toNat = d ∧
    32 ≤ (fdDesc d).shift.toNat ∧ (fdDesc d).shift.toNat ≤ 63 ∧
    2 ^ 32 ≤ (fdDesc d).mul.toNat ∧ (fdDesc d).mul.toNat < 2 ^ 33 ∧
    ((fdDesc d).mul.toNat = 2 ^ 32 ↔ ∃ k, d = 2 ^ k)

/-- R131 with R130: `FDIV.SETUP` of a divisor below `2^31`, 0 storing zeros, and of one that is not. -/
def Obligations.FdivSetupStoresTheDescriptor : Prop :=
  ∀ s : State,
    (s.arg0.toNat < 2 ^ 31 →
      ∃ t, exec .fdivSetup s = .next t ∧
        t = { s with fdg := t.fdg, status := { s.status with fdgv := true } } ∧
        t.fdg.d.toNat = s.arg0.toNat ∧
        (s.arg0.toNat = 0 → t.fdg.mul = 0 ∧ t.fdg.shift = 0) ∧
        (1 ≤ s.arg0.toNat →
          t.fdg.shift.toNat = 32 + Nat.clog 2 s.arg0.toNat ∧
          t.fdg.mul.toNat = (2 ^ t.fdg.shift.toNat + s.arg0.toNat - 1) / s.arg0.toNat)) ∧
    (2 ^ 31 ≤ s.arg0.toNat → FaultsWith .fdivSetup s 4)

/-- R134 with R132 and R137: `FDIV.DIV` by a set-up divisor gives the shifted product, which is the quotient, and
by the descriptor of 0 gives 0; `RES1` is unchanged. Without a descriptor it is `NotConfigured`, with a dividend of
`2^31` or more `OperandOutOfRange`. -/
def Obligations.FdivDivGivesTheQuotient : Prop :=
  ∀ s : State,
    (s.status.fdgv = true → s.fdg.Legal → s.arg0.toNat < 2 ^ 31 →
      ∃ t, exec .fdivDiv s = .next t ∧ t = { s with res0 := t.res0 } ∧
        t.res0.toNat = s.arg0.toNat * s.fdg.mul.toNat / 2 ^ s.fdg.shift.toNat ∧
        t.res0.toNat = s.arg0.toNat / s.fdg.d.toNat) ∧
    (s.status.fdgv = false → FaultsWith .fdivDiv s 6) ∧
    (s.status.fdgv = true → 2 ^ 31 ≤ s.arg0.toNat → FaultsWith .fdivDiv s 7)

/-- R135 with R133 and R137: `FDIV.DIVMOD` by a set-up divisor gives quotient and remainder, and by the descriptor
of 0 gives `(0, n)`. Its faults are those of `FDIV.DIV`. -/
def Obligations.FdivDivmodGivesQuotientAndRemainder : Prop :=
  ∀ s : State,
    (s.status.fdgv = true → s.fdg.Legal → s.arg0.toNat < 2 ^ 31 →
      ∃ t, exec .fdivDivmod s = .next t ∧ t = { s with res0 := t.res0, res1 := t.res1 } ∧
        t.res0.toNat = s.arg0.toNat / s.fdg.d.toNat ∧ t.res1.toNat = s.arg0.toNat % s.fdg.d.toNat) ∧
    (s.status.fdgv = false → FaultsWith .fdivDivmod s 6) ∧
    (s.status.fdgv = true → 2 ^ 31 ≤ s.arg0.toNat → FaultsWith .fdivDivmod s 7)

/-! ### The fraction multiplier -/

/-- R154 with R150, R152 and R155 (derived: "never more" is R154's own derivation, "at most `x`" is R155's): the
product is `floor(x · f)` or one less, never more, and at most `x`. -/
def Obligations.FractionMultiplierErrorBound : Prop :=
  ∀ (f : ℚ) (x : Nat), 0 ≤ f → f ≤ 1 → x < 2 ^ 32 →
    fmMul (fmSetup f) x ≤ ⌊(x : ℚ) * f⌋₊ ∧ ⌊(x : ℚ) * f⌋₊ ≤ fmMul (fmSetup f) x + 1 ∧
    fmMul (fmSetup f) x = x * ⌊f * 2 ^ 32⌋₊ / 2 ^ 32 ∧ fmMul (fmSetup f) x ≤ x

/-- R151 with R150: `FMUL.SETUP` of a fraction in `[0, 1]` stores `floor(f · 2^32)`, 33 bits being enough; of any
other content of `PROB` it is `InvalidProbability`. -/
def Obligations.FmulSetupStoresTheMultiplier : Prop :=
  (∀ (s : State) (f : ℚ), s.prob = .num f → 0 ≤ f → f ≤ 1 →
    ∃ t, exec .fmulSetup s = .next t ∧
      t = { s with fmgM := t.fmgM, status := { s.status with fmgv := true } } ∧
      (t.fmgM.toNat : ℚ) ≤ f * 2 ^ 32 ∧ f * 2 ^ 32 < (t.fmgM.toNat : ℚ) + 1) ∧
  (∀ (s : State) (f : ℚ), s.prob = .num f → f < 0 ∨ 1 < f → FaultsWith .fmulSetup s 2) ∧
  ∀ s : State, s.prob = .notNumber → FaultsWith .fmulSetup s 2

/-- R153 with R152: `FMUL.MUL` by a set-up multiplier, the 32-bit result losing nothing; without one it is
`NotConfigured`. -/
def Obligations.FmulMulGivesTheHighProduct : Prop :=
  ∀ s : State,
    (s.status.fmgv = true → s.fmgM.toNat ≤ 2 ^ 32 →
      ∃ t, exec .fmulMul s = .next t ∧ t = { s with res0 := t.res0 } ∧
        t.res0.toNat = s.arg0.toNat * s.fmgM.toNat / 2 ^ 32) ∧
    (s.status.fmgv = false → FaultsWith .fmulMul s 6)

/-! ### The Binary Arithmetic Coder -/

/-- R166: the multiplier of a BAC call is in `4 .. 2^32 - 5` for every rational, also outside `[0, 1]`, where it
is that of the nearer bound. -/
def Obligations.BacMultiplierInRange : Prop :=
  (∀ p : ℚ, 4 ≤ bacM p ∧ bacM p ≤ 2 ^ 32 - 5) ∧
  (∀ p : ℚ, p ≤ 1 / 10 ^ 9 → bacM p = 2 ^ 32 - 5) ∧ ∀ p : ℚ, 1 - 1 / 10 ^ 9 ≤ p → bacM p = 4

/-- R186 (c), (e) (derived there): where a renormalisation loop has exited, narrowing never collapses the
interval. -/
def Obligations.BacNarrowingNeverCollapses : Prop :=
  ∀ (b : Bac) (p : ℚ), b.low.toNat < b.high.toNat → b.case = .done → b.m.toNat = bacM p →
    b.low.toNat < b.mid ∧ b.mid < b.high.toNat ∧
    ∀ sym, (b.narrow sym).low.toNat < (b.narrow sym).high.toNat

/-- R186 (b), (d), R187 (derived there): from any interval that is not empty, 31 passes of either
renormalisation loop end outside the three cases, with an interval of length at least `2^30 + 1`. -/
def Obligations.BacRenormalisationEndsWithin31Passes : Prop :=
  (∀ (inp : Buffer) (b : Bac), b.low.toNat < b.high.toNat →
    (decRenorm inp 31 b).case = .done ∧
    (decRenorm inp 31 b).low.toNat + 2 ^ 30 + 1 ≤ (decRenorm inp 31 b).high.toNat) ∧
  ∀ (cap : Nat) (r r' : BacRun), r.bac.low.toNat < r.bac.high.toNat → encRenorm cap 31 r = .ok r' →
    r'.bac.case = .done ∧ r'.bac.low.toNat + 2 ^ 30 + 1 ≤ r'.bac.high.toNat

/-- R176, R192, R324: with room for `31 · N + 2` more bits `BAC.ENC` completes, appends between 2 and that many
bits after what the out-buffer holds, and leaves its registers as R176 says; no fault is recorded. -/
def Obligations.BacEncoderCompletesWithRoom : Prop :=
  ∀ (dir : BufSel) (s : State) (p : ℚ), s.params.wf = true → (s.buf dir.other).bytes.wf = true →
    s.prob = .num p →
    (s.buf dir.other).len.toNat + 31 * (s.buf dir).len.toNat + 2 ≤ 8 * s.params.capBytes →
    ∃ t, exec (.bacEnc dir) s = .next t ∧
      t = { s.setBuf dir.other (t.buf dir.other) with bac := t.bac } ∧
      t.bac.m.toNat = bacM p ∧ t.bac.pending = 0 ∧ t.bac.readPos = (s.buf dir).len ∧
      t.bac.value = s.bac.value ∧ t.bac.writePos = s.bac.writePos ∧
      t.bac.low.toNat < t.bac.high.toNat ∧
      (s.buf dir.other).len.toNat + 2 ≤ (t.buf dir.other).len.toNat ∧
      (t.buf dir.other).len.toNat ≤ (s.buf dir.other).len.toNat + 31 * (s.buf dir).len.toNat + 2 ∧
      (∀ j, j < (s.buf dir.other).len.toNat → (t.buf dir.other).bitRead j = (s.buf dir.other).bitRead j) ∧
      ∀ k, (k < (s.buf dir.other).len.toNat / 8 ∨ (t.buf dir.other).byteLen ≤ k) →
        (t.buf dir.other).byte k = (s.buf dir.other).byte k

/-- R176's corner case with R175: the empty message appends exactly `0 1`, here to an empty stream. -/
def Obligations.BacEncodesTheEmptyMessageAsTwoBits : Prop :=
  ∀ (dir : BufSel) (s : State) (p : ℚ), s.params.wf = true → (s.buf dir.other).bytes.wf = true →
    s.prob = .num p → (s.buf dir).len = 0 → (s.buf dir.other).len = 0 →
    ∃ t, exec (.bacEnc dir) s = .next t ∧ t.status = s.status ∧ (t.buf dir.other).len = 2 ∧
      (t.buf dir.other).byte 0 = 2

/-- R184, R189: for every rational and every stream `BAC.DEC` completes without a fault, OR-writes `N` bits,
changes no bit at an index from `N` on and no length, and leaves its registers as R184 says. -/
def Obligations.BacDecoderAlwaysCompletes : Prop :=
  ∀ (dir : BufSel) (s : State) (p : ℚ), (s.buf dir.other).bytes.wf = true → s.prob = .num p →
    ∃ t, exec (.bacDec dir) s = .next t ∧
      t = { s.setBuf dir.other (t.buf dir.other) with bac := t.bac } ∧
      t.bac.m.toNat = bacM p ∧ t.bac.writePos = (s.buf dir.other).len ∧
      t.bac.readPos.toNat ≤ (s.buf dir).len.toNat ∧ t.bac.pending = s.bac.pending ∧
      t.bac.low.toNat < t.bac.high.toNat ∧ (t.buf dir.other).len = (s.buf dir.other).len ∧
      (∀ j, (s.buf dir.other).bitRead j = true → (t.buf dir.other).bitRead j = true) ∧
      (∀ j, (s.buf dir.other).len.toNat ≤ j → (t.buf dir.other).bitRead j = (s.buf dir.other).bitRead j) ∧
      ∀ k, (s.buf dir.other).byteLen ≤ k → (t.buf dir.other).byte k = (s.buf dir.other).byte k

/-- Two buffers hold the same bits. -/
def SameBits (a b : Buffer) : Prop := a.len = b.len ∧ ∀ j, j < a.len.toNat → a.bitRead j = b.bitRead j

/-- R190: the code and the final registers of `BAC.ENC` are a function of the in-buffer's bits and `PROB` only,
whatever else two machines (of any capacity) hold, their out-buffers being empty at the start. -/
def Obligations.BacEncodingIsAFunctionOfItsInputs : Prop :=
  ∀ (dir dir' : BufSel) (s s' t t' : State),
    s.params.wf = true → s'.params.wf = true →
    (s.buf dir.other).bytes.wf = true → (s'.buf dir'.other).bytes.wf = true →
    (s.buf dir.other).len = 0 → (s'.buf dir'.other).len = 0 →
    s.prob = s'.prob → SameBits (s.buf dir) (s'.buf dir') →
    exec (.bacEnc dir) s = .next t → exec (.bacEnc dir') s' = .next t' →
    t.status.fault = false → t'.status.fault = false →
    SameBits (t.buf dir.other) (t'.buf dir'.other) ∧
    t.bac.m = t'.bac.m ∧ t.bac.low = t'.bac.low ∧ t.bac.high = t'.bac.high ∧
    t.bac.pending = t'.bac.pending ∧ t.bac.readPos = t'.bac.readPos

/-- R190: the bits and the final registers of `BAC.DEC` are a function of the in-buffer's bits, `N` and `PROB`
only, given zero out-buffers. -/
def Obligations.BacDecodingIsAFunctionOfItsInputs : Prop :=
  ∀ (dir dir' : BufSel) (s s' t t' : State) (p : ℚ),
    (s.buf dir.other).bytes.wf = true → (s'.buf dir'.other).bytes.wf = true →
    (s.buf dir.other).len = (s'.buf dir'.other).len →
    (∀ j, j < (s.buf dir.other).len.toNat →
      (s.buf dir.other).bitRead j = false ∧ (s'.buf dir'.other).bitRead j = false) →
    s.prob = .num p → s'.prob = .num p → SameBits (s.buf dir) (s'.buf dir') →
    exec (.bacDec dir) s = .next t → exec (.bacDec dir') s' = .next t' →
    SameBits (t.buf dir.other) (t'.buf dir'.other) ∧
    t.bac.m = t'.bac.m ∧ t.bac.low = t'.bac.low ∧ t.bac.high = t'.bac.high ∧
    t.bac.value = t'.bac.value ∧ t.bac.readPos = t'.bac.readPos ∧ t.bac.writePos = t'.bac.writePos

/-- R191 (D0 states it as a testable property for `p ∈ [0.001, 0.999]` and `N ≤ 10⁵`; here, derived from the
rules, for every rational and every message whose code fits the buffer): the BAC round trip. `BAC.ENC` into an
empty stream, `BB.NEW` of `N` bits over the message, `BAC.DEC` back: the message is there again. -/
def Obligations.BacRoundTrip : Prop :=
  ∀ (dir : BufSel) (s t u v : State) (p : ℚ),
    s.params.wf = true → s.BytesOk → s.prob = .num p → (s.buf dir.other).len = 0 →
    exec (.bacEnc dir) s = .next t → t.status.fault = false →
    exec (.bbNew dir) { t with arg0 := (s.buf dir).len } = .next u → u.status.fault = false →
    exec (.bacDec dir.other) u = .next v →
    v.status.fault = false ∧ SameBits (v.buf dir) (s.buf dir)

/-! ### rANS, compute mode -/

/-- R201 with R200: `RANS.CFG` of a legal pair stores the legal configuration whose `freq[0]` is the rounded and
clipped `(1 - p) · 2^R`, sets `CFGV` and clears `ETV` and `DTV`; a bad probability is reported before a bad range
width. -/
def Obligations.RansCfgStoresALegalConfiguration : Prop :=
  (∀ (s : State) (p : ℚ), s.prob = .num p → 0 ≤ p → p ≤ 1 →
    (2 ≤ s.arg0.toNat → s.arg0.toNat ≤ 23 →
      ∃ t, exec .ransCfg s = .next t ∧
        t = { s with rans := t.rans, status := { s.status with cfgv := true, etv := false, dtv := false } } ∧
        t.rans.Legal ∧ t.rans.r.toNat = s.arg0.toNat ∧
        (t.rans.freq false : ℚ) =
          min (max (⌊(1 - p) * 2 ^ s.arg0.toNat + 1 / 2⌋ : ℚ) 1) (2 ^ s.arg0.toNat - 1)) ∧
    (s.arg0.toNat < 2 ∨ 23 < s.arg0.toNat → FaultsWith .ransCfg s 3)) ∧
  (∀ (s : State) (p : ℚ), s.prob = .num p → p < 0 ∨ 1 < p → FaultsWith .ransCfg s 2) ∧
  ∀ s : State, s.prob = .notNumber → FaultsWith .ransCfg s 2

/-- R202, R203: the decode transition undoes the encode transition, on every state the divider takes. -/
def Obligations.DecodeTransitionInvertsEncodeTransition : Prop :=
  ∀ (c : RansConf) (x : Nat) (sym : Bool), c.Legal → x < 2 ^ 31 → decTr c (encTr c x sym) = (x, sym)

/-- R202 (the formula with exact quotient and remainder), R204 and R208: below its threshold a state's encode
transition stays below `totalFreq · 256`, and from `freq[sym]` on it reaches `totalFreq`. -/
def Obligations.EncodeTransitionStaysInRange : Prop :=
  ∀ (c : RansConf) (x : Nat) (sym : Bool), c.Legal → x < c.thr sym →
    encTr c x sym = c.totalFreq.toNat * (x / c.freq sym) + c.cum sym + x % c.freq sym ∧
    encTr c x sym < c.totalFreq.toNat * 256 ∧ c.totalFreq.toNat * 256 ≤ 2 ^ 31 ∧
    (c.freq sym ≤ x → c.totalFreq.toNat ≤ encTr c x sym)

/-- R203, R241: the decode transition of a 32-bit state fits 32 bits, and inside the table it stays inside. -/
def Obligations.DecodeTransitionStaysInRange : Prop :=
  ∀ (c : RansConf) (x : Nat), c.Legal → x < 2 ^ 32 →
    (decTr c x).1 < 2 ^ 32 ∧
    (x < c.totalFreq.toNat * 256 → (decTr c x).1 < c.totalFreq.toNat * 256)

/-- R204, R208 (a), (b): a flush from a state in `[totalFreq, totalFreq · 256)` appends at most 3 bytes and ends
in `[freq[sym], thr[sym])`, where a table index lies inside the table (R244). -/
def Obligations.FlushEndsBelowTheThreshold : Prop :=
  ∀ (cap : Nat) (c : RansConf) (sym : Bool) (r r' : RansRun), c.Legal → cap ≤ 2 ^ 29 - 1 →
    c.totalFreq.toNat ≤ r.st.toNat → r.st.toNat < c.totalFreq.toNat * 256 →
    flush cap c sym (flushFuel cap) r = .ok r' →
    c.freq sym ≤ r'.st.toNat ∧ r'.st.toNat < c.thr sym ∧
    2 * r'.st.toNat + sym.toNat < c.totalFreq.toNat * 512 ∧
    r.out.len.toNat ≤ r'.out.len.toNat ∧ r'.out.len.toNat ≤ r.out.len.toNat + 24

/-- R206, R208 (c), R324: configured, and with room for `3 · N` bytes, `RANS.ENC` completes; the final state is
in `[totalFreq, totalFreq · 256)`, the out-buffer holds whole bytes, and bytes from its new length on are
unchanged; no fault is recorded. -/
def Obligations.RansEncoderCompletesWithRoom : Prop :=
  ∀ (dir : BufSel) (s : State), s.params.wf = true → (s.buf dir.other).bytes.wf = true →
    s.status.cfgv = true → s.rans.Legal → 3 * (s.buf dir).len.toNat ≤ s.params.capBytes →
    ∃ t, exec (.ransEnc dir) s = .next t ∧
      t = { s.setBuf dir.other (t.buf dir.other) with ransState := t.ransState, res0 := t.ransState } ∧
      s.rans.totalFreq.toNat ≤ t.ransState.toNat ∧ t.ransState.toNat < s.rans.totalFreq.toNat * 256 ∧
      (t.buf dir.other).len.toNat % 8 = 0 ∧ (t.buf dir.other).len.toNat ≤ 24 * (s.buf dir).len.toNat ∧
      ∀ k, (t.buf dir.other).len.toNat / 8 ≤ k → (t.buf dir.other).byte k = (s.buf dir.other).byte k

/-- R206's corner case: the empty message gives no bytes and the final state `totalFreq`. -/
def Obligations.RansEncodesTheEmptyMessageAsNoBytes : Prop :=
  ∀ (dir : BufSel) (s : State), s.status.cfgv = true → (s.buf dir).len = 0 →
    ∃ t, exec (.ransEnc dir) s = .next t ∧ t.status = s.status ∧ (t.buf dir.other).len = 0 ∧
      t.res0.toNat = s.rans.totalFreq.toNat ∧ t.ransState = t.res0 ∧ t.res1 = s.res1

/-- R207, R211: configured, `RANS.DEC` completes on any bytes, any state and any `N`, OR-writes `N` bits and
changes no length and no bit from index `N` on; no fault is recorded. -/
def Obligations.RansDecoderAlwaysCompletes : Prop :=
  ∀ (dir : BufSel) (s : State), (s.buf dir.other).bytes.wf = true → s.status.cfgv = true →
    ∃ t, exec (.ransDec dir) s = .next t ∧
      t = { s.setBuf dir.other (t.buf dir.other) with ransState := t.ransState, ransReadPos := t.ransReadPos } ∧
      t.ransReadPos.toNat ≤ (s.buf dir).byteLen ∧ (t.buf dir.other).len = (s.buf dir.other).len ∧
      (∀ j, (s.buf dir.other).bitRead j = true → (t.buf dir.other).bitRead j = true) ∧
      (∀ j, (s.buf dir.other).len.toNat ≤ j → (t.buf dir.other).bitRead j = (s.buf dir.other).bitRead j) ∧
      ∀ k, (s.buf dir.other).byteLen ≤ k → (t.buf dir.other).byte k = (s.buf dir.other).byte k

/-- R212 (the source states it as a testable property for `p ∈ [0.001, 0.999]` and `N ≤ 10⁵`; here, as R212 derives
it from R202 to R205 and R208, "for every legal `(p, R)` and every `N` the capacity allows"): the rANS round trip.
`RANS.ENC`, `BB.NEW` of `N` bits over the message, `RANS.DEC` from the final state: the message is there again. -/
def Obligations.RansRoundTrip : Prop :=
  ∀ (dir : BufSel) (s t u v : State),
    s.params.wf = true → s.BytesOk → s.status.cfgv = true → s.rans.Legal →
    exec (.ransEnc dir) s = .next t → t.status.fault = false →
    exec (.bbNew dir) { t with arg0 := (s.buf dir).len } = .next u → u.status.fault = false →
    exec (.ransDec dir.other) { u with arg0 := t.res0 } = .next v →
    v.status.fault = false ∧ SameBits (v.buf dir) (s.buf dir)

/-! ### rANS, table mode -/

/-- R242 with R240: `RANS.BLDE` fills `encTable`: `totalFreq · 512` entries, index `2x + sym` holding
`EncTr(x, sym)` modulo `2^32`; and its two faults. -/
def Obligations.BldeFillsTheEncodeTable : Prop :=
  ∀ s : State,
    (s.status.cfgv = true → s.rans.r.toNat ≤ s.params.tblRmax →
      ∃ t, exec .ransBlde s = .next t ∧
        t = { s with encTable := t.encTable, status := { s.status with etv := true } } ∧
        t.encTable.dense.length = s.rans.totalFreq.toNat * 512 ∧
        ∀ (x : Nat) (sym : Bool), x < s.rans.totalFreq.toNat * 256 →
          (t.encTable.dense.map BitVec.toNat)[2 * x + sym.toNat]? = some (encTr s.rans x sym % 2 ^ 32)) ∧
    (s.status.cfgv = false → FaultsWith .ransBlde s 6) ∧
    (s.status.cfgv = true → s.params.tblRmax < s.rans.r.toNat → FaultsWith .ransBlde s 12)

/-- R243 with R241: `RANS.BLDD` fills `decTable`: `totalFreq · 256` entries, index `x` holding `DecTr(x)`; and its
two faults. -/
def Obligations.BlddFillsTheDecodeTable : Prop :=
  ∀ s : State,
    (s.status.cfgv = true → s.rans.Legal → s.rans.r.toNat ≤ s.params.tblRmax →
      ∃ t, exec .ransBldd s = .next t ∧
        t = { s with decTable := t.decTable, status := { s.status with dtv := true } } ∧
        t.decTable.dense.length = s.rans.totalFreq.toNat * 256 ∧
        ∀ x, x < s.rans.totalFreq.toNat * 256 →
          (t.decTable.dense.map fun e => (e.1.toNat, e.2))[x]? = some (decTr s.rans x)) ∧
    (s.status.cfgv = false → FaultsWith .ransBldd s 6) ∧
    (s.status.cfgv = true → s.params.tblRmax < s.rans.r.toNat → FaultsWith .ransBldd s 12)

/-- R244, R247: with its table built for the configuration in place and with room, `RANS.ENCT` completes and
leaves exactly the state that `RANS.ENC` leaves. (Its precise faults: `CommandsFaultExactlyAsListed`.) -/
def Obligations.TableEncodeEqualsComputeEncode : Prop :=
  ∀ (dir : BufSel) (s : State), s.params.wf = true → (s.buf dir.other).bytes.wf = true →
    s.status.cfgv = true → s.status.etv = true → s.rans.Legal → s.encTable.filledFrom = s.rans →
    3 * (s.buf dir).len.toNat ≤ s.params.capBytes →
    ∃ t, exec (.ransEnct dir) s = .next t ∧ exec (.ransEnc dir) s = .next t ∧ t.status = s.status

/-- R245, R247: with its table built for the configuration in place, and from a state inside the table,
`RANS.DECT` completes and leaves exactly the state that `RANS.DEC` leaves. -/
def Obligations.TableDecodeEqualsComputeDecode : Prop :=
  ∀ (dir : BufSel) (s : State), s.status.cfgv = true → s.status.dtv = true → s.rans.Legal →
    s.decTable.filledFrom = s.rans → s.arg0.toNat < s.rans.totalFreq.toNat * 256 →
    ∃ t, exec (.ransDect dir) s = .next t ∧ exec (.ransDec dir) s = .next t ∧ t.status = s.status ∧
      t.ransState.toNat < s.rans.totalFreq.toNat * 256

/-! ### The machine -/

/-- The commands whose rule names `RES0` among its results (R93, D30). -/
def namesRes0 (i : Instr) : Bool :=
  match i with
  | .bbRd _ | .bbLen _ | .bbByte _ | .fdivDiv | .fdivDivmod | .fmulMul | .ransEnc _ | .ransEnct _ => true
  | _ => false

/-- The commands whose rule names `RES1` among its results (R93, D30). -/
def namesRes1 (i : Instr) : Bool :=
  match i with
  | .bbLen _ | .fdivDivmod => true
  | _ => false

/-- The one buffer that a command writes, if any: the buffer `sel` of a buffer command, the out-buffer of a coder
command (R91). -/
def writtenBuf : Instr → Option BufSel
  | .bbNew sel | .bbWr sel _ | .bsNew sel | .bsApp sel _ => some sel
  | .bacEnc dir | .bacDec dir | .ransEnc dir | .ransEnct dir | .ransDec dir | .ransDect dir => some dir.other
  | _ => none

/-- R22, R23, R33, R265, R295 (derived over all commands, in every state): no command writes `ARG0`, `PROB` or
the queue; `RES0`, `RES1` and a buffer change only by the commands that name them; each unit's registers change
only by its own commands; `RANS.CFG` alone clears a valid flag, and no command clears `FAULT`. -/
def Obligations.CommandsLeaveOtherUnitsAlone : Prop :=
  ∀ (i : Instr) (s t : State), exec i s = .next t →
    t.arg0 = s.arg0 ∧ t.prob = s.prob ∧ t.inbox = s.inbox ∧ t.params = s.params ∧
    (namesRes0 i = false → t.res0 = s.res0) ∧ (namesRes1 i = false → t.res1 = s.res1) ∧
    (∀ sel, writtenBuf i ≠ some sel → t.buf sel = s.buf sel) ∧
    (i ≠ .fdivSetup → t.fdg = s.fdg ∧ t.status.fdgv = s.status.fdgv) ∧
    (i ≠ .fmulSetup → t.fmgM = s.fmgM ∧ t.status.fmgv = s.status.fmgv) ∧
    ((∀ dir, i ≠ .bacEnc dir ∧ i ≠ .bacDec dir) → t.bac = s.bac) ∧
    (i ≠ .ransCfg → t.rans = s.rans ∧ t.status.cfgv = s.status.cfgv) ∧
    ((∀ dir, i ≠ .ransEnc dir ∧ i ≠ .ransEnct dir ∧ i ≠ .ransDec dir ∧ i ≠ .ransDect dir) →
      t.ransState = s.ransState) ∧
    ((∀ dir, i ≠ .ransDec dir ∧ i ≠ .ransDect dir) → t.ransReadPos = s.ransReadPos) ∧
    (i ≠ .ransBlde → t.encTable = s.encTable ∧ (i ≠ .ransCfg → t.status.etv = s.status.etv)) ∧
    (i ≠ .ransBldd → t.decTable = s.decTable ∧ (i ≠ .ransCfg → t.status.dtv = s.status.dtv)) ∧
    (s.status.fault = true → t.status.fault = true)

/-- R36: right after reset `STATUS` is 0 and both lengths are 0, and the invariant of the machine holds (the
other reset values are log entry 3). -/
def Obligations.ResetMeetsTheInvariant : Prop :=
  State.reset.status.toWord = 0 ∧ State.reset.buf0.len = 0 ∧ State.reset.buf1.len = 0 ∧ State.reset.Inv

/-- R37, R75, R281: every step keeps the invariant of the machine (`State.Inv`, Safety.lean): canonical bytes in
place, legal lengths and registers, valid tables of the current configuration, a legal `CAUSE`. -/
def Obligations.StepKeepsTheInvariant : Prop :=
  ∀ s t : State, s.Inv → step s = .next t → t.Inv
end

