-- ==== Sys2Proof/Laws/Memory.lean ====
section
/-! SUPPORT. What the memory operations do to one byte, and that each of them keeps the canonical form. -/

namespace Sys2Proof.Machine

theorem Memory.wf_cons (a : Nat) (v : Byte) (m : Memory) :
    Memory.wf ((a, v) :: m) = true ↔ v ≠ Memory.unlisted ∧ (∀ c ∈ m, a < c.1) ∧ Memory.wf m = true := by
  simp [Memory.wf, and_assoc]

theorem Memory.read_of_below {m : Memory} {a : Nat} (h : ∀ c ∈ m, a < c.1) :
    m.read a = Memory.unlisted := by
  induction m with
  | nil => rfl
  | cons c m ih =>
    have hc := h c (by simp)
    rw [Memory.read, if_neg (by omega)]
    exact ih (fun d hd => h d (by simp [hd]))

/-- Every cell of a written memory is an old cell or the written one. -/
theorem Memory.mem_write {m : Memory} {a : Nat} {v : Byte} {c : Host.Cell} (h : c ∈ m.write a v) :
    c ∈ m ∨ c = (a, v) := by
  induction m with
  | nil => rw [Memory.write] at h; split at h <;> simp_all
  | cons d m ih =>
    obtain ⟨b, u⟩ := d
    rw [Memory.write] at h
    split at h
    · split at h
      · exact .inl h
      · rcases List.mem_cons.mp h with rfl | h
        · exact .inr rfl
        · exact .inl h
    · split at h
      · split at h
        · exact .inl (by simp [h])
        · rcases List.mem_cons.mp h with rfl | h
          · exact .inr rfl
          · exact .inl (by simp [h])
      · rcases List.mem_cons.mp h with rfl | h
        · exact .inl (by simp)
        · rcases ih h with h | h
          · exact .inl (by simp [h])
          · exact .inr h

/-- A write keeps the canonical form. -/
theorem Memory.wf_write {m : Memory} (h : m.wf = true) (a : Nat) (v : Byte) : (m.write a v).wf = true := by
  induction m with
  | nil =>
    rw [Memory.write]
    split
    · rfl
    · rw [Memory.wf_cons]; exact ⟨by assumption, by simp, rfl⟩
  | cons d m ih =>
    obtain ⟨b, u⟩ := d
    obtain ⟨hu, hb, hm⟩ := (Memory.wf_cons b u m).mp h
    rw [Memory.write]
    split
    · split
      · exact h
      · rw [Memory.wf_cons]
        refine ⟨by assumption, ?_, h⟩
        intro c hc
        rcases List.mem_cons.mp hc with rfl | hc
        · assumption
        · have := hb c hc; omega
    · split
      · subst_vars
        split
        · exact hm
        · rw [Memory.wf_cons]; exact ⟨by assumption, hb, hm⟩
      · rw [Memory.wf_cons]
        refine ⟨hu, ?_, ih hm⟩
        intro c hc
        rcases Memory.mem_write hc with hc | rfl
        · exact hb c hc
        · show b < a; omega

/-- Reading one byte after a write. -/
theorem Memory.read_write {m : Memory} (h : m.wf = true) (a : Nat) (v : Byte) (k : Nat) :
    (m.write a v).read k = if k = a then v else m.read k := by
  induction m with
  | nil => rw [Memory.write]; split <;> simp_all [Memory.read]
  | cons d m ih =>
    obtain ⟨b, u⟩ := d
    obtain ⟨hu, hb, hm⟩ := (Memory.wf_cons b u m).mp h
    rw [Memory.write]
    split
    · have hlow : ∀ c ∈ (b, u) :: m, a < c.1 := by
        intro c hc
        rcases List.mem_cons.mp hc with rfl | hc
        · assumption
        · have := hb c hc; omega
      split
      · split
        · subst_vars; exact Memory.read_of_below hlow
        · rfl
      · rfl
    · split
      · subst_vars
        split
        · by_cases hk : k = b
          · subst_vars; rw [if_pos rfl]; exact Memory.read_of_below hb
          · simp [hk, Memory.read]
        · by_cases hk : k = b <;> simp [hk, Memory.read]
      · rw [Memory.read, Memory.read, ih hm]
        by_cases hk : k = b
        · subst_vars; simp; intro h'; omega
        · simp [hk]

theorem Memory.within_write {m : Memory} {cap a : Nat} (h : m.within cap = true) (ha : a < cap) (v : Byte) :
    (m.write a v).within cap = true := by
  simp only [Memory.within, List.all_eq_true, decide_eq_true_eq] at h ⊢
  intro c hc
  rcases Memory.mem_write hc with hc | rfl
  · exact h c hc
  · exact ha

/-- Zeroing keeps the canonical form. -/
theorem Memory.wf_clearBelow {m : Memory} (h : m.wf = true) (n : Nat) : (m.clearBelow n).wf = true := by
  induction m with
  | nil => rfl
  | cons d m ih =>
    obtain ⟨b, u⟩ := d
    obtain ⟨hu, hb, hm⟩ := (Memory.wf_cons b u m).mp h
    unfold Memory.clearBelow
    rw [List.filter_cons]
    split
    · rw [Memory.wf_cons]
      exact ⟨hu, fun c hc => hb c (List.mem_filter.mp hc).1, ih hm⟩
    · exact ih hm

/-- Reading one byte after the first `n` bytes are zeroed. -/
theorem Memory.read_clearBelow (m : Memory) (n k : Nat) :
    (m.clearBelow n).read k = if k < n then 0 else m.read k := by
  induction m with
  | nil => simp [Memory.clearBelow, Memory.read, Memory.unlisted]
  | cons d m ih =>
    obtain ⟨b, u⟩ := d
    unfold Memory.clearBelow at ih ⊢
    rw [List.filter_cons]
    by_cases hb : n ≤ b
    · rw [if_pos (by simpa using hb), Memory.read, Memory.read, ih]
      by_cases hk : k = b
      · subst hk; simp [show ¬ k < n by omega]
      · simp [hk]
    · rw [if_neg (by simpa using hb), ih, Memory.read]
      by_cases hk : k = b
      · subst hk; simp [show k < n by omega]
      · simp [hk]

theorem Memory.within_clearBelow {m : Memory} {cap : Nat} (h : m.within cap = true) (n : Nat) :
    (m.clearBelow n).within cap = true := by
  simp only [Memory.within, Memory.clearBelow, List.all_eq_true, decide_eq_true_eq] at h ⊢
  exact fun c hc => h c (List.mem_filter.mp hc).1

theorem Memory.wf_ofCells (cap : Nat) (cs : List (Nat × Byte)) : (Memory.ofCells cap cs).wf = true := by
  induction cs with
  | nil => rfl
  | cons c cs ih =>
    rw [Memory.ofCells]
    split
    · exact Memory.wf_write ih _ _
    · exact ih

theorem Memory.within_ofCells (cap : Nat) (cs : List (Nat × Byte)) :
    (Memory.ofCells cap cs).within cap = true := by
  induction cs with
  | nil => rfl
  | cons c cs ih =>
    rw [Memory.ofCells]
    split
    · exact Memory.within_write ih (by assumption) _
    · exact ih

/-- Canonical memories that read alike are equal data. -/
theorem Memory.ext_of_read {m m' : Memory} (h : m.wf = true) (h' : m'.wf = true)
    (hr : ∀ k, m.read k = m'.read k) : m = m' := by
  induction m generalizing m' with
  | nil =>
    cases m' with
    | nil => rfl
    | cons d m' =>
      obtain ⟨b, u⟩ := d
      obtain ⟨hu, -, -⟩ := (Memory.wf_cons b u m').mp h'
      have := hr b
      simp [Memory.read] at this
      exact absurd this.symm hu
  | cons d m ih =>
    obtain ⟨b, u⟩ := d
    obtain ⟨hu, hb, hm⟩ := (Memory.wf_cons b u m).mp h
    cases m' with
    | nil =>
      have := hr b
      simp [Memory.read] at this
      exact absurd this hu
    | cons d' m' =>
      obtain ⟨b', u'⟩ := d'
      obtain ⟨hu', hb', hm'⟩ := (Memory.wf_cons b' u' m').mp h'
      have hbb : b = b' := by
        rcases Nat.lt_trichotomy b b' with hlt | heq | hgt
        · have hx := hr b
          rw [Memory.read, if_pos rfl, Memory.read_of_below] at hx
          · exact absurd hx hu
          · intro c hc
            rcases List.mem_cons.mp hc with rfl | hc
            · exact hlt
            · have := hb' c hc; omega
        · exact heq
        · have hx := hr b'
          rw [Memory.read_of_below, Memory.read, if_pos rfl] at hx
          · exact absurd hx.symm hu'
          · intro c hc
            rcases List.mem_cons.mp hc with rfl | hc
            · exact hgt
            · have := hb c hc; omega
      subst hbb
      have huu : u = u' := by have := hr b; simpa [Memory.read] using this
      subst huu
      congr 1
      refine ih hm hm' (fun k => ?_)
      have hk := hr k
      rw [Memory.read, Memory.read] at hk
      split at hk
      · subst_vars; rw [Memory.read_of_below hb, Memory.read_of_below hb']
      · exact hk

/-- The closed form of R110's zero fill is that loop: one write of 0x00 per byte index below `n`. -/
theorem Memory.clearBelow_eq_loop {m : Memory} (h : m.wf = true) (n : Nat) :
    m.clearBelow n = (List.range n).foldl (fun acc k => acc.write k 0) m := by
  have key : ∀ n, ((List.range n).foldl (fun acc k => Memory.write acc k 0) m).wf = true ∧
      ∀ k, ((List.range n).foldl (fun acc k => Memory.write acc k 0) m).read k =
        if k < n then 0 else m.read k := by
    intro n
    induction n with
    | zero => simp [h]
    | succ n ih =>
      rw [List.range_succ, List.foldl_append]
      refine ⟨Memory.wf_write ih.1 _ _, fun k => ?_⟩
      simp only [List.foldl_cons, List.foldl_nil]
      rw [Memory.read_write ih.1, ih.2]
      by_cases h1 : k = n
      · simp [h1]
      · by_cases h2 : k < n
        · simp [h1, h2, Nat.lt_succ_of_lt h2]
        · simp [h1, h2, show ¬ k < n + 1 by omega]
  exact Memory.ext_of_read (Memory.wf_clearBelow h n) (key n).1
    (fun k => by rw [Memory.read_clearBelow, (key n).2])

/-- In canonical form, what is listed lies below `cap` exactly when every byte from `cap` on reads as unlisted. -/
theorem Memory.within_iff {m : Memory} (h : m.wf = true) (cap : Nat) :
    m.within cap = true ↔ ∀ k, cap ≤ k → m.read k = Memory.unlisted := by
  induction m with
  | nil => simp [Memory.within, Memory.read]
  | cons d m ih =>
    obtain ⟨b, u⟩ := d
    obtain ⟨hu, hb, hm⟩ := (Memory.wf_cons b u m).mp h
    have hw : Memory.within ((b, u) :: m) cap = true ↔ b < cap ∧ Memory.within m cap = true := by
      simp [Memory.within]
    rw [hw, ih hm]
    constructor
    · rintro ⟨h1, h2⟩ k hk
      rw [Memory.read, if_neg (by omega)]
      exact h2 k hk
    · intro h2
      have hlt : b < cap := by
        by_contra hge
        have := h2 b (by omega)
        rw [Memory.read, if_pos rfl] at this
        exact hu this
      refine ⟨hlt, fun k hk => ?_⟩
      have := h2 k hk
      rwa [Memory.read, if_neg (by omega)] at this

end Sys2Proof.Machine
end

