-- ==== Sys2Proof/Laws/State.lean ====
section
/-! SUPPORT. One lemma per field per update of the state, so that no proof unfolds a record update. -/

namespace Sys2Proof

@[simp] theorem BufSel.other_other (x : BufSel) : x.other.other = x := by cases x <;> rfl

@[simp] theorem BufSel.other_ne (x : BufSel) : x.other ≠ x := by cases x <;> decide

@[simp] theorem BufSel.ne_other (x : BufSel) : x ≠ x.other := by cases x <;> decide

/-- There are two buffers. -/
theorem BufSel.eq_or_eq_other (x y : BufSel) : x = y ∨ x = y.other := by
  cases x <;> cases y <;> decide

namespace Machine

/-- A state's buffers are its fields `buf0` and `buf1`. -/
theorem State.buf_congr {s t : State} (h0 : t.buf0 = s.buf0) (h1 : t.buf1 = s.buf1) (sel : BufSel) :
    t.buf sel = s.buf sel := by
  cases sel <;> assumption

/-! ### `setBuf` -/

@[simp] theorem State.buf_setBuf (s : State) (sel : BufSel) (b : Buffer) : (s.setBuf sel b).buf sel = b := by
  cases sel <;> rfl

@[simp] theorem State.buf_setBuf_other (s : State) (sel : BufSel) (b : Buffer) :
    (s.setBuf sel.other b).buf sel = s.buf sel := by
  cases sel <;> rfl

@[simp] theorem State.buf_other_setBuf (s : State) (sel : BufSel) (b : Buffer) :
    (s.setBuf sel b).buf sel.other = s.buf sel.other := by
  cases sel <;> rfl

/-- A buffer after another one may have been replaced. -/
theorem State.buf_setBuf_eq (s : State) (sel sel' : BufSel) (b : Buffer) :
    (s.setBuf sel b).buf sel' = if sel' = sel then b else s.buf sel' := by
  cases sel <;> cases sel' <;> rfl

@[simp] theorem State.setBuf_buf (s : State) (sel : BufSel) : s.setBuf sel (s.buf sel) = s := by
  cases sel <;> rfl

@[simp] theorem State.setBuf_setBuf (s : State) (sel : BufSel) (b b' : Buffer) :
    (s.setBuf sel b).setBuf sel b' = s.setBuf sel b' := by
  cases sel <;> rfl

@[simp] theorem State.setBuf_params (s : State) (sel : BufSel) (b : Buffer) : (s.setBuf sel b).params = s.params := by
  cases sel <;> rfl

@[simp] theorem State.setBuf_inbox (s : State) (sel : BufSel) (b : Buffer) : (s.setBuf sel b).inbox = s.inbox := by
  cases sel <;> rfl

@[simp] theorem State.setBuf_arg0 (s : State) (sel : BufSel) (b : Buffer) : (s.setBuf sel b).arg0 = s.arg0 := by
  cases sel <;> rfl

@[simp] theorem State.setBuf_prob (s : State) (sel : BufSel) (b : Buffer) : (s.setBuf sel b).prob = s.prob := by
  cases sel <;> rfl

@[simp] theorem State.setBuf_res0 (s : State) (sel : BufSel) (b : Buffer) : (s.setBuf sel b).res0 = s.res0 := by
  cases sel <;> rfl

@[simp] theorem State.setBuf_res1 (s : State) (sel : BufSel) (b : Buffer) : (s.setBuf sel b).res1 = s.res1 := by
  cases sel <;> rfl

@[simp] theorem State.setBuf_status (s : State) (sel : BufSel) (b : Buffer) : (s.setBuf sel b).status = s.status := by
  cases sel <;> rfl

@[simp] theorem State.setBuf_fdg (s : State) (sel : BufSel) (b : Buffer) : (s.setBuf sel b).fdg = s.fdg := by
  cases sel <;> rfl

@[simp] theorem State.setBuf_fmgM (s : State) (sel : BufSel) (b : Buffer) : (s.setBuf sel b).fmgM = s.fmgM := by
  cases sel <;> rfl

@[simp] theorem State.setBuf_bac (s : State) (sel : BufSel) (b : Buffer) : (s.setBuf sel b).bac = s.bac := by
  cases sel <;> rfl

@[simp] theorem State.setBuf_rans (s : State) (sel : BufSel) (b : Buffer) : (s.setBuf sel b).rans = s.rans := by
  cases sel <;> rfl

@[simp] theorem State.setBuf_ransState (s : State) (sel : BufSel) (b : Buffer) : (s.setBuf sel b).ransState = s.ransState := by
  cases sel <;> rfl

@[simp] theorem State.setBuf_ransReadPos (s : State) (sel : BufSel) (b : Buffer) : (s.setBuf sel b).ransReadPos = s.ransReadPos := by
  cases sel <;> rfl

@[simp] theorem State.setBuf_encTable (s : State) (sel : BufSel) (b : Buffer) : (s.setBuf sel b).encTable = s.encTable := by
  cases sel <;> rfl

@[simp] theorem State.setBuf_decTable (s : State) (sel : BufSel) (b : Buffer) : (s.setBuf sel b).decTable = s.decTable := by
  cases sel <;> rfl

@[simp] theorem State.setBuf_freeCount (s : State) (sel : BufSel) (b : Buffer) : (s.setBuf sel b).freeCount = s.freeCount := by
  cases sel <;> rfl

/-! ### `raise` -/

@[simp] theorem State.raise_params (s : State) (c : Cause) : (s.raise c).params = s.params := rfl

@[simp] theorem State.raise_inbox (s : State) (c : Cause) : (s.raise c).inbox = s.inbox := rfl

@[simp] theorem State.raise_arg0 (s : State) (c : Cause) : (s.raise c).arg0 = s.arg0 := rfl

@[simp] theorem State.raise_prob (s : State) (c : Cause) : (s.raise c).prob = s.prob := rfl

@[simp] theorem State.raise_res0 (s : State) (c : Cause) : (s.raise c).res0 = s.res0 := rfl

@[simp] theorem State.raise_res1 (s : State) (c : Cause) : (s.raise c).res1 = s.res1 := rfl

@[simp] theorem State.raise_status (s : State) (c : Cause) : (s.raise c).status = s.status.faulted c := rfl

@[simp] theorem State.raise_fdg (s : State) (c : Cause) : (s.raise c).fdg = s.fdg := rfl

@[simp] theorem State.raise_fmgM (s : State) (c : Cause) : (s.raise c).fmgM = s.fmgM := rfl

@[simp] theorem State.raise_bac (s : State) (c : Cause) : (s.raise c).bac = s.bac := rfl

@[simp] theorem State.raise_rans (s : State) (c : Cause) : (s.raise c).rans = s.rans := rfl

@[simp] theorem State.raise_ransState (s : State) (c : Cause) : (s.raise c).ransState = s.ransState := rfl

@[simp] theorem State.raise_ransReadPos (s : State) (c : Cause) : (s.raise c).ransReadPos = s.ransReadPos := rfl

@[simp] theorem State.raise_encTable (s : State) (c : Cause) : (s.raise c).encTable = s.encTable := rfl

@[simp] theorem State.raise_decTable (s : State) (c : Cause) : (s.raise c).decTable = s.decTable := rfl

@[simp] theorem State.raise_freeCount (s : State) (c : Cause) : (s.raise c).freeCount = s.freeCount := rfl

@[simp] theorem State.raise_buf0 (s : State) (c : Cause) : (s.raise c).buf0 = s.buf0 := rfl

@[simp] theorem State.raise_buf1 (s : State) (c : Cause) : (s.raise c).buf1 = s.buf1 := rfl

@[simp] theorem State.raise_buf (s : State) (c : Cause) (sel : BufSel) : (s.raise c).buf sel = s.buf sel := by
  cases sel <;> rfl

/-! ### `freeOut` -/

@[simp] theorem State.freeOut_params (s : State) (sel : BufSel) : (s.freeOut sel).params = s.params := by
  cases sel <;> rfl

@[simp] theorem State.freeOut_inbox (s : State) (sel : BufSel) : (s.freeOut sel).inbox = s.inbox := by
  cases sel <;> rfl

@[simp] theorem State.freeOut_arg0 (s : State) (sel : BufSel) : (s.freeOut sel).arg0 = s.arg0 := by
  cases sel <;> rfl

@[simp] theorem State.freeOut_prob (s : State) (sel : BufSel) : (s.freeOut sel).prob = s.prob := by
  cases sel <;> rfl

@[simp] theorem State.freeOut_res0 (s : State) (sel : BufSel) : (s.freeOut sel).res0 = s.res0 := by
  cases sel <;> rfl

@[simp] theorem State.freeOut_res1 (s : State) (sel : BufSel) : (s.freeOut sel).res1 = s.res1 := by
  cases sel <;> rfl

@[simp] theorem State.freeOut_status (s : State) (sel : BufSel) : (s.freeOut sel).status = s.status := by
  cases sel <;> rfl

@[simp] theorem State.freeOut_fdg (s : State) (sel : BufSel) : (s.freeOut sel).fdg = s.fdg := by
  cases sel <;> rfl

@[simp] theorem State.freeOut_fmgM (s : State) (sel : BufSel) : (s.freeOut sel).fmgM = s.fmgM := by
  cases sel <;> rfl

@[simp] theorem State.freeOut_bac (s : State) (sel : BufSel) : (s.freeOut sel).bac = s.bac := by
  cases sel <;> rfl

@[simp] theorem State.freeOut_rans (s : State) (sel : BufSel) : (s.freeOut sel).rans = s.rans := by
  cases sel <;> rfl

@[simp] theorem State.freeOut_ransState (s : State) (sel : BufSel) : (s.freeOut sel).ransState = s.ransState := by
  cases sel <;> rfl

@[simp] theorem State.freeOut_ransReadPos (s : State) (sel : BufSel) : (s.freeOut sel).ransReadPos = s.ransReadPos := by
  cases sel <;> rfl

@[simp] theorem State.freeOut_encTable (s : State) (sel : BufSel) : (s.freeOut sel).encTable = s.encTable := by
  cases sel <;> rfl

@[simp] theorem State.freeOut_decTable (s : State) (sel : BufSel) : (s.freeOut sel).decTable = s.decTable := by
  cases sel <;> rfl

@[simp] theorem State.freeOut_freeCount (s : State) (sel : BufSel) : (s.freeOut sel).freeCount = s.freeCount + 1 := by
  cases sel <;> rfl

@[simp] theorem State.freeOut_buf_other (s : State) (sel : BufSel) :
    (s.freeOut sel.other).buf sel = s.buf sel := by
  cases sel <;> rfl

@[simp] theorem State.freeOut_buf (s : State) (sel : BufSel) :
    (s.freeOut sel).buf sel = freeBuffer s.params.capBytes s.freeCount := by
  cases sel <;> rfl

/-! ### `afterReset` -/

@[simp] theorem State.afterReset_params (s : State) : s.afterReset.params = s.params := rfl

@[simp] theorem State.afterReset_inbox (s : State) : s.afterReset.inbox = s.inbox := rfl

@[simp] theorem State.afterReset_arg0 (s : State) : s.afterReset.arg0 = State.reset.arg0 := rfl

@[simp] theorem State.afterReset_prob (s : State) : s.afterReset.prob = State.reset.prob := rfl

@[simp] theorem State.afterReset_res0 (s : State) : s.afterReset.res0 = State.reset.res0 := rfl

@[simp] theorem State.afterReset_res1 (s : State) : s.afterReset.res1 = State.reset.res1 := rfl

@[simp] theorem State.afterReset_status (s : State) : s.afterReset.status = State.reset.status := rfl

@[simp] theorem State.afterReset_fdg (s : State) : s.afterReset.fdg = State.reset.fdg := rfl

@[simp] theorem State.afterReset_fmgM (s : State) : s.afterReset.fmgM = State.reset.fmgM := rfl

@[simp] theorem State.afterReset_bac (s : State) : s.afterReset.bac = State.reset.bac := rfl

@[simp] theorem State.afterReset_rans (s : State) : s.afterReset.rans = State.reset.rans := rfl

@[simp] theorem State.afterReset_ransState (s : State) : s.afterReset.ransState = State.reset.ransState := rfl

@[simp] theorem State.afterReset_ransReadPos (s : State) : s.afterReset.ransReadPos = State.reset.ransReadPos := rfl

@[simp] theorem State.afterReset_encTable (s : State) : s.afterReset.encTable = State.reset.encTable := rfl

@[simp] theorem State.afterReset_decTable (s : State) : s.afterReset.decTable = State.reset.decTable := rfl

@[simp] theorem State.afterReset_freeCount (s : State) : s.afterReset.freeCount = s.freeCount := rfl

@[simp] theorem State.afterReset_buf0 (s : State) : s.afterReset.buf0 = State.reset.buf0 := rfl

@[simp] theorem State.afterReset_buf1 (s : State) : s.afterReset.buf1 = State.reset.buf1 := rfl

@[simp] theorem State.afterReset_buf (s : State) (sel : BufSel) :
    s.afterReset.buf sel = { bytes := [], len := 0 } := by
  cases sel <;> rfl

/-! ### The buffers under the register updates of the meanings -/

@[simp] theorem State.buf_with_res0 (s : State) (v : Word) (sel : BufSel) :
    ({ s with res0 := v } : State).buf sel = s.buf sel := by
  cases sel <;> rfl

@[simp] theorem State.buf_with_results (s : State) (v w : Word) (sel : BufSel) :
    ({ s with res0 := v, res1 := w } : State).buf sel = s.buf sel := by
  cases sel <;> rfl

@[simp] theorem State.buf_with_fdg (s : State) (d : FdDesc) (st : Status) (sel : BufSel) :
    ({ s with fdg := d, status := st } : State).buf sel = s.buf sel := by
  cases sel <;> rfl

@[simp] theorem State.buf_with_fmgM (s : State) (m : BitVec 33) (st : Status) (sel : BufSel) :
    ({ s with fmgM := m, status := st } : State).buf sel = s.buf sel := by
  cases sel <;> rfl

@[simp] theorem State.buf_with_rans (s : State) (c : RansConf) (st : Status) (sel : BufSel) :
    ({ s with rans := c, status := st } : State).buf sel = s.buf sel := by
  cases sel <;> rfl

@[simp] theorem State.buf_with_bac (s : State) (b : Bac) (sel : BufSel) :
    ({ s with bac := b } : State).buf sel = s.buf sel := by
  cases sel <;> rfl

@[simp] theorem State.buf_with_ransEnc (s : State) (v w : Word) (sel : BufSel) :
    ({ s with ransState := v, res0 := w } : State).buf sel = s.buf sel := by
  cases sel <;> rfl

@[simp] theorem State.buf_with_ransDec (s : State) (v w : Word) (sel : BufSel) :
    ({ s with ransState := v, ransReadPos := w } : State).buf sel = s.buf sel := by
  cases sel <;> rfl

@[simp] theorem State.buf_with_encTable (s : State) (t : EncTable) (st : Status) (sel : BufSel) :
    ({ s with encTable := t, status := st } : State).buf sel = s.buf sel := by
  cases sel <;> rfl

@[simp] theorem State.buf_with_decTable (s : State) (t : DecTable) (st : Status) (sel : BufSel) :
    ({ s with decTable := t, status := st } : State).buf sel = s.buf sel := by
  cases sel <;> rfl

@[simp] theorem State.buf_with_inbox (s : State) (l : List HostAction) (sel : BufSel) :
    ({ s with inbox := l } : State).buf sel = s.buf sel := by
  cases sel <;> rfl

@[simp] theorem State.buf_with_arg0 (s : State) (v : Word) (sel : BufSel) :
    ({ s with arg0 := v } : State).buf sel = s.buf sel := by
  cases sel <;> rfl

@[simp] theorem State.buf_with_prob (s : State) (p : Prob) (sel : BufSel) :
    ({ s with prob := p } : State).buf sel = s.buf sel := by
  cases sel <;> rfl

/-! ### `STATUS` -/

@[simp] theorem Status.faulted_fault (st : Status) (c : Cause) : (st.faulted c).fault = true := rfl

@[simp] theorem Status.faulted_cause (st : Status) (c : Cause) : (st.faulted c).cause = c.code := rfl

@[simp] theorem Status.faulted_cfgv (st : Status) (c : Cause) : (st.faulted c).cfgv = st.cfgv := rfl

@[simp] theorem Status.faulted_etv (st : Status) (c : Cause) : (st.faulted c).etv = st.etv := rfl

@[simp] theorem Status.faulted_dtv (st : Status) (c : Cause) : (st.faulted c).dtv = st.dtv := rfl

@[simp] theorem Status.faulted_fdgv (st : Status) (c : Cause) : (st.faulted c).fdgv = st.fdgv := rfl

@[simp] theorem Status.faulted_fmgv (st : Status) (c : Cause) : (st.faulted c).fmgv = st.fmgv := rfl

@[simp] theorem Status.setFdgv_fault (st : Status) : (st.setFdgv).fault = st.fault := rfl

@[simp] theorem Status.setFdgv_cause (st : Status) : (st.setFdgv).cause = st.cause := rfl

@[simp] theorem Status.setFdgv_cfgv (st : Status) : (st.setFdgv).cfgv = st.cfgv := rfl

@[simp] theorem Status.setFdgv_etv (st : Status) : (st.setFdgv).etv = st.etv := rfl

@[simp] theorem Status.setFdgv_dtv (st : Status) : (st.setFdgv).dtv = st.dtv := rfl

@[simp] theorem Status.setFdgv_fdgv (st : Status) : (st.setFdgv).fdgv = true := rfl

@[simp] theorem Status.setFdgv_fmgv (st : Status) : (st.setFdgv).fmgv = st.fmgv := rfl

@[simp] theorem Status.setFmgv_fault (st : Status) : (st.setFmgv).fault = st.fault := rfl

@[simp] theorem Status.setFmgv_cause (st : Status) : (st.setFmgv).cause = st.cause := rfl

@[simp] theorem Status.setFmgv_cfgv (st : Status) : (st.setFmgv).cfgv = st.cfgv := rfl

@[simp] theorem Status.setFmgv_etv (st : Status) : (st.setFmgv).etv = st.etv := rfl

@[simp] theorem Status.setFmgv_dtv (st : Status) : (st.setFmgv).dtv = st.dtv := rfl

@[simp] theorem Status.setFmgv_fdgv (st : Status) : (st.setFmgv).fdgv = st.fdgv := rfl

@[simp] theorem Status.setFmgv_fmgv (st : Status) : (st.setFmgv).fmgv = true := rfl

@[simp] theorem Status.configured_fault (st : Status) : (st.configured).fault = st.fault := rfl

@[simp] theorem Status.configured_cause (st : Status) : (st.configured).cause = st.cause := rfl

@[simp] theorem Status.configured_cfgv (st : Status) : (st.configured).cfgv = true := rfl

@[simp] theorem Status.configured_etv (st : Status) : (st.configured).etv = false := rfl

@[simp] theorem Status.configured_dtv (st : Status) : (st.configured).dtv = false := rfl

@[simp] theorem Status.configured_fdgv (st : Status) : (st.configured).fdgv = st.fdgv := rfl

@[simp] theorem Status.configured_fmgv (st : Status) : (st.configured).fmgv = st.fmgv := rfl

@[simp] theorem Status.setEtv_fault (st : Status) : (st.setEtv).fault = st.fault := rfl

@[simp] theorem Status.setEtv_cause (st : Status) : (st.setEtv).cause = st.cause := rfl

@[simp] theorem Status.setEtv_cfgv (st : Status) : (st.setEtv).cfgv = st.cfgv := rfl

@[simp] theorem Status.setEtv_etv (st : Status) : (st.setEtv).etv = true := rfl

@[simp] theorem Status.setEtv_dtv (st : Status) : (st.setEtv).dtv = st.dtv := rfl

@[simp] theorem Status.setEtv_fdgv (st : Status) : (st.setEtv).fdgv = st.fdgv := rfl

@[simp] theorem Status.setEtv_fmgv (st : Status) : (st.setEtv).fmgv = st.fmgv := rfl

@[simp] theorem Status.setDtv_fault (st : Status) : (st.setDtv).fault = st.fault := rfl

@[simp] theorem Status.setDtv_cause (st : Status) : (st.setDtv).cause = st.cause := rfl

@[simp] theorem Status.setDtv_cfgv (st : Status) : (st.setDtv).cfgv = st.cfgv := rfl

@[simp] theorem Status.setDtv_etv (st : Status) : (st.setDtv).etv = st.etv := rfl

@[simp] theorem Status.setDtv_dtv (st : Status) : (st.setDtv).dtv = true := rfl

@[simp] theorem Status.setDtv_fdgv (st : Status) : (st.setDtv).fdgv = st.fdgv := rfl

@[simp] theorem Status.setDtv_fmgv (st : Status) : (st.setDtv).fmgv = st.fmgv := rfl

end Machine

end Sys2Proof
end

