-- ==== Sys2Proof/Laws/Buffer.lean ====
section
/-! SUPPORT. What each access primitive of a buffer does, bit by bit or byte by byte, and that it keeps the
canonical form (`20_memory.md` R61 to R67). -/

namespace Sys2Proof.Machine

/-- A buffer whose bytes are in canonical form and inside a capacity of `cap` bytes. -/
structure Buffer.Ok (b : Buffer) (cap : Nat) : Prop where
  wf : b.bytes.wf = true
  within : b.bytes.within cap = true

theorem Byte.getLsbD_orBit (v : Byte) (x : Bool) {r q : Nat} (hr : r < 8) (hq : q < 8) :
    (v ||| (BitVec.ofNat 8 x.toNat <<< r)).getLsbD q = (v.getLsbD q || (decide (q = r) && x)) := by
  cases x
  · simp
  · have key : ∀ r q : Fin 8, ((1#8) <<< r.val).getLsbD q.val = decide (q.val = r.val) := by decide
    have := key ⟨r, hr⟩ ⟨q, hq⟩
    simp only [BitVec.getLsbD_or, Bool.and_true, Bool.toNat_true]
    simpa using congrArg (v.getLsbD q || ·) this

theorem divmod8_eq_iff {i j : Nat} : (j / 8 = i / 8 ∧ j % 8 = i % 8) ↔ j = i := by omega

/-! ### `BitWrite` -/

@[simp] theorem Buffer.bitWrite_len (b : Buffer) (i : Nat) (x : Bool) : (b.bitWrite i x).len = b.len := rfl

theorem Buffer.byte_bitWrite {b : Buffer} (h : b.bytes.wf = true) (i : Nat) (x : Bool) (k : Nat) :
    (b.bitWrite i x).byte k = if k = i / 8 then b.orBit i x else b.byte k := by
  simp only [Buffer.bitWrite, Buffer.byte, Memory.read_write h]

/-- `BitWrite` sets at most the one bit, by OR. -/
theorem Buffer.bitRead_bitWrite {b : Buffer} (h : b.bytes.wf = true) (i : Nat) (x : Bool) (j : Nat) :
    (b.bitWrite i x).bitRead j = (b.bitRead j || (decide (j = i) && x)) := by
  rw [Buffer.bitRead, Buffer.byte_bitWrite h]
  by_cases hj : j / 8 = i / 8
  · rw [if_pos hj, Buffer.orBit, Byte.getLsbD_orBit _ _ (Nat.mod_lt _ (by decide)) (Nat.mod_lt _ (by decide)),
      ← hj]
    have : (j % 8 = i % 8) ↔ j = i := by omega
    simp [Buffer.bitRead, this]
  · have : j ≠ i := by rintro rfl; exact hj rfl
    simp [hj, this, Buffer.bitRead]

theorem Buffer.Ok.bitWrite {b : Buffer} {cap : Nat} (h : b.Ok cap) {i : Nat} (hi : i < 8 * cap) (x : Bool) :
    (b.bitWrite i x).Ok cap :=
  ⟨Memory.wf_write h.wf _ _, Memory.within_write h.within (by omega) _⟩

/-- Two buffers with the same canonical bytes, read byte by byte, and the same length are equal. -/
theorem Buffer.ext_of_byte {b b' : Buffer} (h : b.bytes.wf = true) (h' : b'.bytes.wf = true)
    (hl : b.len = b'.len) (hb : ∀ k, b.byte k = b'.byte k) : b = b' := by
  cases b; cases b'
  simp only [Buffer.mk.injEq]
  exact ⟨Memory.ext_of_read h h' hb, hl⟩

/-- Bytes are equal when their bits, read through `BitRead`, are. -/
theorem Buffer.byte_eq_of_bitRead {b b' : Buffer} {k : Nat}
    (h : ∀ q < 8, b.bitRead (8 * k + q) = b'.bitRead (8 * k + q)) : b.byte k = b'.byte k := by
  apply BitVec.eq_of_getLsbD_eq
  intro q hq
  have := h q hq
  simpa [Buffer.bitRead, show (8 * k + q) / 8 = k by omega, show (8 * k + q) % 8 = q by omega] using this

/-! ### `BitAppend` -/

@[simp] theorem Buffer.pushZeroByte_len (b : Buffer) : b.pushZeroByte.len = b.len := by
  unfold Buffer.pushZeroByte; split <;> rfl

theorem Buffer.pushZeroByte_wf {b : Buffer} (h : b.bytes.wf = true) : b.pushZeroByte.bytes.wf = true := by
  unfold Buffer.pushZeroByte
  split
  · exact Memory.wf_write h _ _
  · exact h

theorem Buffer.Ok.pushZeroByte {b : Buffer} {cap : Nat} (h : b.Ok cap) (hl : b.len.toNat < 8 * cap) :
    b.pushZeroByte.Ok cap := by
  unfold Buffer.pushZeroByte
  split
  · exact ⟨Memory.wf_write h.wf _ _, Memory.within_write h.within (by omega) _⟩
  · exact h

/-- The push of a zero byte clears the byte at `len div 8` where `len` is a multiple of 8. -/
theorem Buffer.bitRead_pushZeroByte {b : Buffer} (h : b.bytes.wf = true) (j : Nat) :
    b.pushZeroByte.bitRead j =
      (b.bitRead j && !(decide (b.len.toNat % 8 = 0) && decide (j / 8 = b.len.toNat / 8))) := by
  unfold Buffer.pushZeroByte
  split
  · rename_i h0
    simp only [Buffer.bitRead, Buffer.byte, Memory.read_write h]
    by_cases hj : j / 8 = b.len.toNat / 8 <;> simp [hj, h0]
  · rename_i h0
    simp [h0]

/-- When an append faults. -/
theorem Buffer.bitAppend_error {b : Buffer} {cap : Nat} {x : Bool} {c : Cause}
    (h : b.bitAppend cap x = .error c) : c = .bufferOverflow ∧ 8 * cap ≤ b.len.toNat := by
  unfold Buffer.bitAppend at h
  split at h
  · injection h with h; exact ⟨h.symm, by assumption⟩
  · injection h

/-- Everything a successful append does. -/
theorem Buffer.bitAppend_ok {b o : Buffer} {cap : Nat} {x : Bool} (h : b.bitAppend cap x = .ok o) :
    b.len.toNat < 8 * cap ∧ o = { b.pushZeroByte.bitWrite b.len.toNat x with len := b.len + 1 } := by
  unfold Buffer.bitAppend at h
  split at h
  · injection h
  · injection h with h; exact ⟨by omega, h.symm⟩

theorem Buffer.bitAppend_of_room {b : Buffer} {cap : Nat} {x : Bool} (h : b.len.toNat < 8 * cap) :
    b.bitAppend cap x = .ok { b.pushZeroByte.bitWrite b.len.toNat x with len := b.len + 1 } := by
  unfold Buffer.bitAppend
  rw [if_neg (by omega)]

theorem Buffer.Ok.bitAppend {b o : Buffer} {cap : Nat} {x : Bool} (hb : b.Ok cap)
    (h : b.bitAppend cap x = .ok o) : o.Ok cap := by
  obtain ⟨hl, rfl⟩ := Buffer.bitAppend_ok h
  have := (hb.pushZeroByte hl).bitWrite hl x
  exact ⟨this.wf, this.within⟩

/-- An append advances the length by one; `8 · CAP_BYTES < 2^32` keeps it inside 32 bits. -/
theorem Buffer.bitAppend_len {b o : Buffer} {cap : Nat} {x : Bool} (hc : cap ≤ 536870911)
    (h : b.bitAppend cap x = .ok o) : o.len.toNat = b.len.toNat + 1 := by
  obtain ⟨hl, rfl⟩ := Buffer.bitAppend_ok h
  show (b.len + 1).toNat = _
  rw [BitVec.toNat_add]
  simp only [BitVec.ofNat_eq_ofNat, BitVec.toNat_ofNat]
  omega

/-- The bits after an append: the new one, and below it the old ones. -/
theorem Buffer.bitRead_bitAppend {b o : Buffer} {cap : Nat} {x : Bool} (hb : b.bytes.wf = true)
    (h : b.bitAppend cap x = .ok o) (j : Nat) :
    o.bitRead j =
      ((b.bitRead j && !(decide (b.len.toNat % 8 = 0) && decide (j / 8 = b.len.toNat / 8))) ||
        (decide (j = b.len.toNat) && x)) := by
  obtain ⟨hl, rfl⟩ := Buffer.bitAppend_ok h
  have := Buffer.bitRead_bitWrite (Buffer.pushZeroByte_wf hb) b.len.toNat x j
  rw [Buffer.bitRead_pushZeroByte hb] at this
  exact this

/-- An append changes no bit below the length. -/
theorem Buffer.bitRead_bitAppend_of_lt {b o : Buffer} {cap : Nat} {x : Bool} (hb : b.bytes.wf = true)
    (h : b.bitAppend cap x = .ok o) {j : Nat} (hj : j < b.len.toNat) : o.bitRead j = b.bitRead j := by
  rw [Buffer.bitRead_bitAppend hb h]
  have h1 : j ≠ b.len.toNat := by omega
  have h2 : ¬ (b.len.toNat % 8 = 0 ∧ j / 8 = b.len.toNat / 8) := by omega
  by_cases h3 : b.len.toNat % 8 = 0 <;> simp_all

/-! ### `ByteAppend` -/

theorem Buffer.byteAppend_ok {b o : Buffer} {cap : Nat} {v : Byte} (h : b.byteAppend cap v = .ok o) :
    b.len.toNat / 8 < cap ∧ o = { bytes := b.bytes.write (b.len.toNat / 8) v, len := b.len + 8 } := by
  unfold Buffer.byteAppend at h
  split at h
  · injection h
  · injection h with h; exact ⟨by omega, h.symm⟩

theorem Buffer.byteAppend_error {b : Buffer} {cap : Nat} {v : Byte} {c : Cause}
    (h : b.byteAppend cap v = .error c) : c = .bufferOverflow ∧ cap ≤ b.len.toNat / 8 := by
  unfold Buffer.byteAppend at h
  split at h
  · injection h with h; exact ⟨h.symm, by assumption⟩
  · injection h

theorem Buffer.Ok.byteAppend {b o : Buffer} {cap : Nat} {v : Byte} (hb : b.Ok cap)
    (h : b.byteAppend cap v = .ok o) : o.Ok cap := by
  obtain ⟨hl, rfl⟩ := Buffer.byteAppend_ok h
  exact ⟨Memory.wf_write hb.wf _ _, Memory.within_write hb.within hl _⟩

theorem Buffer.byteAppend_len {b o : Buffer} {cap : Nat} {v : Byte} (hc : cap ≤ 536870911)
    (h : b.byteAppend cap v = .ok o) : o.len.toNat = b.len.toNat + 8 := by
  obtain ⟨hl, rfl⟩ := Buffer.byteAppend_ok h
  show (b.len + 8).toNat = _
  rw [BitVec.toNat_add]
  simp only [BitVec.ofNat_eq_ofNat, BitVec.toNat_ofNat]
  omega

theorem Buffer.byte_byteAppend {b o : Buffer} {cap : Nat} {v : Byte} (hb : b.bytes.wf = true)
    (h : b.byteAppend cap v = .ok o) (k : Nat) :
    o.byte k = if k = b.len.toNat / 8 then v else b.byte k := by
  obtain ⟨hl, rfl⟩ := Buffer.byteAppend_ok h
  exact Memory.read_write hb _ _ _

/-! ### The byte reversal -/

@[simp] theorem Buffer.swapBytes_len (b : Buffer) (i j : Nat) : (b.swapBytes i j).len = b.len := rfl

theorem Buffer.swapBytes_wf {b : Buffer} (h : b.bytes.wf = true) (i j : Nat) :
    (b.swapBytes i j).bytes.wf = true :=
  Memory.wf_write (Memory.wf_write h _ _) _ _

theorem Buffer.byte_swapBytes {b : Buffer} (h : b.bytes.wf = true) (i j k : Nat) :
    (b.swapBytes i j).byte k = if k = j then b.byte i else if k = i then b.byte j else b.byte k := by
  simp only [Buffer.swapBytes, Buffer.byte, Memory.read_write (Memory.wf_write h _ _), Memory.read_write h]

@[simp] theorem Buffer.swapLoop_len (b : Buffer) (nb n : Nat) : (b.swapLoop nb n).len = b.len := by
  induction n with
  | zero => rfl
  | succ n ih => rw [Buffer.swapLoop, Buffer.swapBytes_len, ih]

theorem Buffer.swapLoop_wf {b : Buffer} (h : b.bytes.wf = true) (nb n : Nat) :
    (b.swapLoop nb n).bytes.wf = true := by
  induction n with
  | zero => exact h
  | succ n ih => exact Buffer.swapBytes_wf ih _ _

/-- The loop after `n` swaps: `n` bytes at each end are exchanged, the others stand. -/
theorem Buffer.byte_swapLoop {b : Buffer} (h : b.bytes.wf = true) (nb n : Nat) (hn : n ≤ nb / 2) (k : Nat) :
    (b.swapLoop nb n).byte k = if k < n ∨ (nb - n ≤ k ∧ k < nb) then b.byte (nb - 1 - k) else b.byte k := by
  induction n generalizing k with
  | zero => rw [if_neg (by omega)]; rfl
  | succ n ih =>
    have ih' := fun k => ih (by omega) k
    rw [Buffer.swapLoop, Buffer.byte_swapBytes (Buffer.swapLoop_wf h _ _), ih' n, ih' (nb - 1 - n), ih' k]
    by_cases h1 : k = nb - 1 - n
    · subst h1
      rw [if_pos rfl, if_neg (by omega), if_pos (by omega)]
      congr 1; omega
    · rw [if_neg h1]
      by_cases h2 : k = n
      · subst h2
        rw [if_pos rfl, if_neg (by omega), if_pos (by omega)]
      · rw [if_neg h2]
        by_cases h3 : k < n ∨ (nb - n ≤ k ∧ k < nb)
        · rw [if_pos h3, if_pos (by omega)]
        · rw [if_neg h3, if_neg (by omega)]

/-- Step 3 of R206 reverses the first `nb` bytes and leaves the others. -/
theorem Buffer.byte_reverseBytes {b : Buffer} (h : b.bytes.wf = true) (nb k : Nat) :
    (b.reverseBytes nb).byte k = if k < nb then b.byte (nb - 1 - k) else b.byte k := by
  rw [Buffer.reverseBytes, Buffer.byte_swapLoop h _ _ (Nat.le_refl _)]
  by_cases h1 : k < nb / 2 ∨ (nb - nb / 2 ≤ k ∧ k < nb)
  · rw [if_pos h1, if_pos (by omega)]
  · rw [if_neg h1]
    by_cases h2 : k < nb
    · rw [if_pos h2]; congr 1; omega
    · rw [if_neg h2]

@[simp] theorem Buffer.reverseBytes_len (b : Buffer) (nb : Nat) : (b.reverseBytes nb).len = b.len := by
  simp [Buffer.reverseBytes]

theorem Buffer.reverseBytes_wf {b : Buffer} (h : b.bytes.wf = true) (nb : Nat) :
    (b.reverseBytes nb).bytes.wf = true := by
  have key : ∀ n, (b.swapLoop nb n).bytes.wf = true := by
    intro n
    induction n with
    | zero => exact h
    | succ n ih => exact Memory.wf_write (Memory.wf_write ih _ _) _ _
  exact key _

theorem Buffer.Ok.reverseBytes {b : Buffer} {cap nb : Nat} (h : b.Ok cap) (hn : nb ≤ cap) :
    (b.reverseBytes nb).Ok cap := by
  have key : ∀ n, n ≤ nb / 2 → (b.swapLoop nb n).Ok cap := by
    intro n
    induction n with
    | zero => intro _; exact h
    | succ n ih =>
      intro hle
      have := ih (by omega)
      exact ⟨Memory.wf_write (Memory.wf_write this.wf _ _) _ _,
        Memory.within_write (Memory.within_write this.within (by omega) _) (by omega) _⟩
  exact key _ (Nat.le_refl _)

/-- The free contents of a buffer are contents it can have. -/
theorem freeBuffer_ok (cap occasion : Nat) : (freeBuffer cap occasion).Ok cap :=
  ⟨Memory.wf_ofCells _ _, Memory.within_ofCells _ _⟩

end Sys2Proof.Machine
end

