-- ==== Sys2Proof/Laws/Append.lean ====
section
/-! SUPPORT. What a run of bit appends does to a buffer, whichever bits they append (`20_memory.md` R65). -/

namespace Sys2Proof.Machine

/-- `o` is `b` after appending the bits `bs`: the bytes newly pushed hold the new bits and zeros, the byte that
`b` was in the middle of has the new bits ORed in, every other byte is that of `b`. -/
structure Buffer.Appended (b o : Buffer) (bs : List Bool) : Prop where
  wf : o.bytes.wf = true
  len : o.len.toNat = b.len.toNat + bs.length
  bit : ∀ j, o.bitRead j =
    ((b.bitRead j && (decide (j / 8 < (b.len.toNat + 7) / 8) ||
        decide ((b.len.toNat + bs.length + 7) / 8 ≤ j / 8))) ||
      (decide (b.len.toNat ≤ j) && bs.getD (j - b.len.toNat) false))

theorem Buffer.Appended.refl {b : Buffer} (h : b.bytes.wf = true) : b.Appended b [] := by
  refine ⟨h, rfl, fun j => ?_⟩
  have : j / 8 < (b.len.toNat + 7) / 8 ∨ (b.len.toNat + 7) / 8 ≤ j / 8 := Nat.lt_or_ge _ _
  rcases this with h | h <;> simp [h]

theorem Buffer.Appended.single {b o : Buffer} {cap : Nat} {x : Bool} (hc : cap ≤ 536870911)
    (hb : b.bytes.wf = true) (h : b.bitAppend cap x = .ok o) : b.Appended o [x] := by
  refine ⟨?_, Buffer.bitAppend_len hc h, fun j => ?_⟩
  · obtain ⟨-, rfl⟩ := Buffer.bitAppend_ok h
    exact Memory.wf_write (Buffer.pushZeroByte_wf hb) _ _
  · rw [Buffer.bitRead_bitAppend hb h]
    congr 1
    · congr 1
      rw [Bool.eq_iff_iff]
      simp only [Bool.not_eq_true', Bool.and_eq_false_iff, decide_eq_false_iff_not, Bool.or_eq_true,
        decide_eq_true_eq, List.length_singleton]
      omega
    · rcases Nat.lt_trichotomy j b.len.toNat with hj | hj | hj
      · simp [show j ≠ b.len.toNat by omega, show ¬ b.len.toNat ≤ j by omega]
      · simp [hj]
      · rw [List.getD_eq_default _ _ (by simp; omega)]
        simp [show j ≠ b.len.toNat by omega]

theorem Buffer.Appended.trans {a b c : Buffer} {xs ys : List Bool} (h1 : a.Appended b xs) (h2 : b.Appended c ys) :
    a.Appended c (xs ++ ys) := by
  refine ⟨h2.wf, by rw [h2.len, h1.len, List.length_append]; omega, fun j => ?_⟩
  rw [h2.bit, h1.bit, h1.len, List.length_append]
  rcases Nat.lt_or_ge j a.len.toNat with hj | hj
  · have e1 : decide (a.len.toNat ≤ j) = false := by simp; omega
    have e2 : decide (a.len.toNat + xs.length ≤ j) = false := by simp; omega
    have e3 : decide (j / 8 < (a.len.toNat + 7) / 8) = true := by simp; omega
    have e4 : decide (j / 8 < (a.len.toNat + xs.length + 7) / 8) = true := by simp; omega
    simp [e1, e2, e3, e4]
  · rcases Nat.lt_or_ge j (a.len.toNat + xs.length) with hk | hk
    · have e1 : decide (a.len.toNat ≤ j) = true := by simp; omega
      have e2 : decide (a.len.toNat + xs.length ≤ j) = false := by simp; omega
      have e4 : decide (j / 8 < (a.len.toNat + xs.length + 7) / 8) = true := by simp; omega
      have e5 : decide ((a.len.toNat + xs.length + 7) / 8 ≤ j / 8) = false := by simp; omega
      have e6 : decide ((a.len.toNat + (xs.length + ys.length) + 7) / 8 ≤ j / 8) = false := by simp; omega
      have e7 : (xs ++ ys).getD (j - a.len.toNat) false = xs.getD (j - a.len.toNat) false :=
        List.getD_append _ _ _ _ (by omega)
      rw [e7, e1, e2, e4, e5, e6]
      simp
    · have e1 : decide (a.len.toNat ≤ j) = true := by simp; omega
      have e2 : decide (a.len.toNat + xs.length ≤ j) = true := by simp; omega
      have e7 : (xs ++ ys).getD (j - a.len.toNat) false = ys.getD (j - a.len.toNat - xs.length) false :=
        List.getD_append_right _ _ _ _ (by omega)
      have e8 : xs.getD (j - a.len.toNat) false = false := List.getD_eq_default _ _ (by omega)
      rw [e1, e2, e7, e8, Nat.sub_sub]
      have e10 : (a.len.toNat + (xs.length + ys.length) + 7) / 8 =
          (a.len.toNat + xs.length + ys.length + 7) / 8 := by rw [← Nat.add_assoc a.len.toNat xs.length]
      rw [e10]
      by_cases p1 : j / 8 < (a.len.toNat + 7) / 8
      · simp [p1, show j / 8 < (a.len.toNat + xs.length + 7) / 8 by omega]
      · by_cases p2 : (a.len.toNat + xs.length + ys.length + 7) / 8 ≤ j / 8
        · simp [p2, show (a.len.toNat + xs.length + 7) / 8 ≤ j / 8 by omega]
        · by_cases p3 : (a.len.toNat + xs.length + 7) / 8 ≤ j / 8
          · simp [p1, p2, p3, show ¬ j / 8 < (a.len.toNat + xs.length + 7) / 8 by omega]
          · simp [p1, p2, p3, show j / 8 < (a.len.toNat + xs.length + 7) / 8 by omega]

/-- The bits below the old length are unchanged. -/
theorem Buffer.Appended.bit_low {b o : Buffer} {bs : List Bool} (h : b.Appended o bs) {j : Nat}
    (hj : j < b.len.toNat) : o.bitRead j = b.bitRead j := by
  rw [h.bit]
  simp [show ¬ b.len.toNat ≤ j by omega, show j / 8 < (b.len.toNat + 7) / 8 by omega]

/-- From an empty stream, the appended bits read back, and zeros up to the end of the last byte. -/
theorem Buffer.Appended.bit_of_empty {b o : Buffer} {bs : List Bool} (h : b.Appended o bs) (h0 : b.len.toNat = 0)
    {j : Nat} (hj : j / 8 < (bs.length + 7) / 8) : o.bitRead j = bs.getD j false := by
  rw [h.bit, h0]
  rw [show decide ((0 + bs.length + 7) / 8 ≤ j / 8) = false by simp; omega]
  simp

/-- Bytes that no append reaches keep their contents. -/
theorem Buffer.Appended.byte_of_untouched {b o : Buffer} {bs : List Bool} (h : b.Appended o bs) {k : Nat}
    (hk : k < b.len.toNat / 8 ∨ o.byteLen ≤ k) : o.byte k = b.byte k := by
  apply Buffer.byte_eq_of_bitRead
  intro q hq
  rw [h.bit]
  rcases hk with hk | hk
  · simp [show (8 * k + q) / 8 = k by omega, show k < (b.len.toNat + 7) / 8 by omega,
      show ¬ b.len.toNat ≤ 8 * k + q by omega]
  · rw [Buffer.byteLen, h.len] at hk
    rw [List.getD_eq_default _ _ (by omega)]
    simp [show (8 * k + q) / 8 = k by omega, hk]

/-- The same bits appended to the same buffer leave the same buffer. -/
theorem Buffer.Appended.unique {b o o' : Buffer} {bs : List Bool} (h : b.Appended o bs) (h' : b.Appended o' bs) :
    o = o' := by
  refine Buffer.ext_of_byte h.wf h'.wf (BitVec.eq_of_toNat_eq (h.len.trans h'.len.symm)) fun k => ?_
  exact Buffer.byte_eq_of_bitRead fun q _ => (h.bit _).trans (h'.bit _).symm

/-- Appends that end inside the capacity stay inside it. -/
theorem Buffer.Appended.ok {b o : Buffer} {bs : List Bool} {cap : Nat} (h : b.Appended o bs) (hb : b.Ok cap)
    (ho : o.len.toNat ≤ 8 * cap) : o.Ok cap := by
  refine ⟨h.wf, (Memory.within_iff h.wf cap).mpr fun k hk => ?_⟩
  have h1 := h.byte_of_untouched (k := k) (.inr (by unfold Buffer.byteLen; omega))
  exact h1.trans ((Memory.within_iff hb.wf cap).mp hb.within k hk)

end Sys2Proof.Machine
end

