-- ==== Sys2Proof/Laws/BacInterval.lean ====
section
/-! SUPPORT. The arithmetic of the BAC's interval registers: what each case says about them, and what one
doubling does to them (`43_bac.md` R168 to R172). -/

namespace Sys2Proof.Machine

theorem renormCase_e1 {l h : Nat} : renormCase l h = .e1 ↔ h < 2147483648 := by
  unfold renormCase half q1 q3
  split
  · simp [*]
  · split
    · simp [*]
    · split <;> simp [*]

theorem renormCase_e2 {l h : Nat} : renormCase l h = .e2 ↔ 2147483648 ≤ h ∧ 2147483648 ≤ l := by
  unfold renormCase half q1 q3
  split
  · simp; omega
  · split
    · simp; omega
    · split <;> simp <;> omega

theorem renormCase_e3 {l h : Nat} : renormCase l h = .e3 ↔
    2147483648 ≤ h ∧ l < 2147483648 ∧ 1073741824 ≤ l ∧ h < 3221225472 := by
  unfold renormCase half q1 q3
  split
  · simp; omega
  · split
    · simp; omega
    · split <;> simp <;> omega

theorem renormCase_done {l h : Nat} : renormCase l h = .done ↔
    2147483648 ≤ h ∧ l < 2147483648 ∧ (l < 1073741824 ∨ 3221225472 ≤ h) := by
  unfold renormCase half q1 q3
  split
  · simp; omega
  · split
    · simp; omega
    · split <;> simp <;> omega

/-- Outside the three cases the interval is wide. -/
theorem length_of_done {l h : Nat} (hd : renormCase l h = .done) : l + 2 ^ 30 + 1 ≤ h := by
  obtain ⟨h1, h2, h3⟩ := renormCase_done.mp hd
  omega

/-- Inside one of them it is shorter than half the range. -/
theorem length_of_not_done {l h : Nat} (hh : h < 4294967296) (hd : renormCase l h ≠ .done) : h < l + 2147483648 := by
  cases hc : renormCase l h with
  | e1 => have := renormCase_e1.mp hc; omega
  | e2 => have := renormCase_e2.mp hc; omega
  | e3 => have := renormCase_e3.mp hc; omega
  | done => exact absurd hc hd

/-- What the offset of a case is good for: it is at most `low`, and doubling the rest fits 32 bits. -/
theorem offset_le {l h : Nat} (hh : h < 4294967296) (hd : renormCase l h ≠ .done) :
    (renormCase l h).offset ≤ l ∧ 2 * (h - (renormCase l h).offset) < 4294967296 := by
  cases hc : renormCase l h with
  | e1 => have := renormCase_e1.mp hc; simp only [RenormCase.offset]; omega
  | e2 => have := renormCase_e2.mp hc; simp only [RenormCase.offset, half]; omega
  | e3 => have := renormCase_e3.mp hc; simp only [RenormCase.offset, q1]; omega
  | done => exact absurd hc hd

/-- One doubling, as numbers: nothing is lost. -/
theorem Bac.rescale_toNat {b : Bac} (h : b.low.toNat < b.high.toNat) (hd : b.case ≠ .done) :
    (b.rescale b.case.offset).low.toNat = 2 * (b.low.toNat - b.case.offset) ∧
    (b.rescale b.case.offset).high.toNat = 2 * (b.high.toNat - b.case.offset) ∧
    b.case.offset ≤ b.low.toNat := by
  obtain ⟨h1, h2⟩ := offset_le b.high.isLt hd
  unfold Bac.case at *
  unfold Bac.rescale
  exact ⟨wrap32_toNat_of_lt (by omega), wrap32_toNat_of_lt h2, h1⟩

/-- One doubling keeps the interval nonempty and doubles its length. -/
theorem Bac.rescale_length {b : Bac} (h : b.low.toNat < b.high.toNat) (hd : b.case ≠ .done) :
    (b.rescale b.case.offset).high.toNat =
      (b.rescale b.case.offset).low.toNat + 2 * (b.high.toNat - b.low.toNat) := by
  obtain ⟨h1, h2, h3⟩ := Bac.rescale_toNat h hd
  rw [h1, h2]
  omega

/-- Narrowing, as numbers, wherever `Mid` stays inside the interval. -/
theorem Bac.narrow_toNat {b : Bac} (h : b.mid ≤ b.high.toNat) (sym : Bool) :
    (b.narrow sym).low.toNat = (if sym then b.mid else b.low.toNat) ∧
    (b.narrow sym).high.toNat = (if sym then b.high.toNat else b.mid) := by
  have := b.high.isLt
  cases sym
  · exact ⟨rfl, wrap32_toNat_of_lt (by omega)⟩
  · exact ⟨wrap32_toNat_of_lt (by omega), rfl⟩

/-- A multiplier of the range of R166 puts `Mid` strictly inside every interval of a finished loop. -/
theorem Bac.mid_bounds {b : Bac} (hm : 4 ≤ b.m.toNat) (hm' : b.m.toNat ≤ 4294967291)
    (hw : b.low.toNat + 1073741824 ≤ b.high.toNat) : b.low.toNat < b.mid ∧ b.mid < b.high.toNat := by
  unfold Bac.mid fmMul
  rw [Nat.shiftRight_eq_div_pow]
  have h1 : 4294967296 ≤ (b.high.toNat - b.low.toNat) * b.m.toNat :=
    Nat.le_trans (show 4294967296 ≤ 1073741824 * 4 by decide) (Nat.mul_le_mul (by omega) hm)
  have h2 : (b.high.toNat - b.low.toNat) * b.m.toNat ≤ (b.high.toNat - b.low.toNat) * 4294967291 :=
    Nat.mul_le_mul_left _ hm'
  omega

end Sys2Proof.Machine
end

