-- ==== Sys2Proof/Laws/BacDec.lean ====
section
/-! SUPPORT. The BAC decoder as a function of its registers and of the in-buffer: which symbols it decodes and
which registers it leaves (`43_bac.md` R177 to R184). The out-buffer only takes the symbols, by OR. -/

namespace Sys2Proof.Machine

/-! ### The value register -/

/-- `Refill` touches `value` and `readPos` only. -/
theorem Bac.refill_frame (b : Bac) (inp : Buffer) :
    b.refill inp = { b with value := (b.refill inp).value, readPos := (b.refill inp).readPos } := by
  unfold Bac.refill
  split <;> rfl

/-- The read position never passes the end of the stream. -/
theorem Bac.refill_readPos {b : Bac} {inp : Buffer} (h : b.readPos.toNat ≤ inp.len.toNat) :
    (b.refill inp).readPos.toNat ≤ inp.len.toNat := by
  unfold Bac.refill
  split
  · have := inp.len.isLt
    show (b.readPos + 1).toNat ≤ _
    rw [BitVec.toNat_add]
    simp only [BitVec.ofNat_eq_ofNat, BitVec.toNat_ofNat]
    omega
  · exact h

/-- One pass of the decoder's loop. -/
def Bac.decPass (b : Bac) (inp : Buffer) : Bac :=
  ((b.rescaleValue b.case.offset).rescale b.case.offset).refill inp

theorem decRenorm_succ (inp : Buffer) (fuel : Nat) (b : Bac) :
    decRenorm inp (fuel + 1) b = if b.case = .done then b else decRenorm inp fuel (b.decPass inp) := by
  rw [decRenorm]
  rfl

theorem Bac.decPass_frame (b : Bac) (inp : Buffer) :
    b.decPass inp = { b with
      low := (b.rescale b.case.offset).low, high := (b.rescale b.case.offset).high
      value := (b.decPass inp).value, readPos := (b.decPass inp).readPos } := by
  unfold Bac.decPass
  rw [Bac.refill_frame]
  rfl

/-- What every pass keeps, the loop keeps. -/
theorem decRenorm_induct {P : Bac → Prop} {inp : Buffer} (hstep : ∀ b, P b → b.case ≠ .done → P (b.decPass inp))
    (fuel : Nat) {b : Bac} (h : P b) : P (decRenorm inp fuel b) := by
  induction fuel generalizing b with
  | zero => exact h
  | succ fuel ih =>
    rw [decRenorm_succ]
    split
    · exact h
    · exact ih (hstep b h ‹_›)

/-- The loop touches `low`, `high`, `value` and `readPos` only. -/
theorem decRenorm_frame (inp : Buffer) (fuel : Nat) (b : Bac) :
    decRenorm inp fuel b = { b with
      low := (decRenorm inp fuel b).low, high := (decRenorm inp fuel b).high
      value := (decRenorm inp fuel b).value, readPos := (decRenorm inp fuel b).readPos } := by
  have h := decRenorm_induct
    (P := fun q => q.m = b.m ∧ q.pending = b.pending ∧ q.writePos = b.writePos) (inp := inp)
    (fun q hq _ => by rw [Bac.decPass_frame]; exact hq) fuel (b := b) ⟨rfl, rfl, rfl⟩
  obtain ⟨h1, h2, h3⟩ := h
  rw [← h1, ← h2, ← h3]

/-! ### The symbol loop -/

/-- The registers after one symbol. -/
def decSymbolBac (inp : Buffer) (b : Bac) : Bac :=
  decRenorm inp renormFuel { b.narrow b.decodedSym with writePos := b.writePos + 1 }

theorem decSymbols_succ (inp : Buffer) (n : Nat) (r : BacRun) :
    decSymbols inp (n + 1) r =
      decSymbols inp n
        { out := r.out.bitWrite r.bac.writePos.toNat r.bac.decodedSym, bac := decSymbolBac inp r.bac } := rfl

/-- The registers after `n` symbols. -/
def decSymbolsBac (inp : Buffer) : Nat → Bac → Bac
  | 0, b => b
  | n + 1, b => decSymbolsBac inp n (decSymbolBac inp b)

/-- The symbols decoded. -/
def decodedSyms (inp : Buffer) : Nat → Bac → List Bool
  | 0, _ => []
  | n + 1, b => b.decodedSym :: decodedSyms inp n (decSymbolBac inp b)

theorem decodedSyms_length (inp : Buffer) (n : Nat) (b : Bac) : (decodedSyms inp n b).length = n := by
  induction n generalizing b with
  | zero => rfl
  | succ n ih => rw [decodedSyms, List.length_cons, ih]

theorem Bac.narrow_frame (b : Bac) (sym : Bool) :
    b.narrow sym = { b with low := (b.narrow sym).low, high := (b.narrow sym).high } := by
  cases sym <;> rfl

@[simp] theorem decSymbolBac_writePos (inp : Buffer) (b : Bac) : (decSymbolBac inp b).writePos = b.writePos + 1 := by
  unfold decSymbolBac
  rw [decRenorm_frame]

@[simp] theorem decSymbolBac_m (inp : Buffer) (b : Bac) : (decSymbolBac inp b).m = b.m := by
  unfold decSymbolBac
  rw [decRenorm_frame]
  show (b.narrow b.decodedSym).m = b.m
  rw [b.narrow_frame]

@[simp] theorem decSymbolBac_pending (inp : Buffer) (b : Bac) : (decSymbolBac inp b).pending = b.pending := by
  unfold decSymbolBac
  rw [decRenorm_frame]
  show (b.narrow b.decodedSym).pending = b.pending
  rw [b.narrow_frame]

theorem decSymbols_bac (inp : Buffer) (n : Nat) (r : BacRun) :
    (decSymbols inp n r).bac = decSymbolsBac inp n r.bac := by
  induction n generalizing r with
  | zero => rfl
  | succ n ih => rw [decSymbols_succ, ih]; rfl

theorem decSymbols_len (inp : Buffer) (n : Nat) (r : BacRun) : (decSymbols inp n r).out.len = r.out.len := by
  induction n generalizing r with
  | zero => rfl
  | succ n ih => rw [decSymbols_succ, ih]; rfl

theorem decSymbols_wf (inp : Buffer) (n : Nat) {r : BacRun} (h : r.out.bytes.wf = true) :
    (decSymbols inp n r).out.bytes.wf = true := by
  induction n generalizing r with
  | zero => exact h
  | succ n ih => rw [decSymbols_succ]; exact ih (Memory.wf_write h _ _)

/-- The out-buffer after `n` symbols: each is ORed in at its position from `writePos` on. -/
theorem decSymbols_bit (inp : Buffer) (n : Nat) {r : BacRun} (h : r.out.bytes.wf = true)
    (hn : r.bac.writePos.toNat + n < 4294967296) (j : Nat) :
    (decSymbols inp n r).out.bitRead j = (r.out.bitRead j ||
      (decide (r.bac.writePos.toNat ≤ j) && (decodedSyms inp n r.bac).getD (j - r.bac.writePos.toNat) false)) := by
  induction n generalizing r with
  | zero => simp [decSymbols, decodedSyms]
  | succ n ih =>
    have hw : (decSymbolBac inp r.bac).writePos.toNat = r.bac.writePos.toNat + 1 := by
      rw [decSymbolBac_writePos, BitVec.toNat_add]
      simp only [BitVec.ofNat_eq_ofNat, BitVec.toNat_ofNat]
      omega
    rw [decSymbols_succ, ih (Memory.wf_write h _ _) (by simp only [hw]; omega)]
    simp only [hw]
    rw [Buffer.bitRead_bitWrite h, decodedSyms]
    rcases Nat.lt_trichotomy j r.bac.writePos.toNat with hj | hj | hj
    · simp [show j ≠ r.bac.writePos.toNat by omega, show ¬ r.bac.writePos.toNat ≤ j by omega,
        show ¬ r.bac.writePos.toNat + 1 ≤ j by omega]
    · simp [hj]
    · obtain ⟨k, rfl⟩ : ∃ k, j = r.bac.writePos.toNat + 1 + k := ⟨j - (r.bac.writePos.toNat + 1), by omega⟩
      rw [show r.bac.writePos.toNat + 1 + k - r.bac.writePos.toNat = k + 1 by omega,
        show r.bac.writePos.toNat + 1 + k - (r.bac.writePos.toNat + 1) = k by omega, List.getD_cons_succ]
      simp [show r.bac.writePos.toNat + 1 + k ≠ r.bac.writePos.toNat by omega,
        show r.bac.writePos.toNat ≤ r.bac.writePos.toNat + 1 + k by omega]

/-- Bytes beyond the last written bit keep their contents. -/
theorem decSymbols_byte (inp : Buffer) (n : Nat) {r : BacRun} (h : r.out.bytes.wf = true)
    (hn : r.bac.writePos.toNat + n < 4294967296) {k : Nat} (hk : r.bac.writePos.toNat + n ≤ 8 * k) :
    (decSymbols inp n r).out.byte k = r.out.byte k := by
  apply Buffer.byte_eq_of_bitRead
  intro q _
  rw [decSymbols_bit inp n h hn, List.getD_eq_default _ _ (by rw [decodedSyms_length]; omega)]
  simp

/-- Every index written lies below `writePos + n`, so the bytes stay inside the capacity. -/
theorem decSymbols_ok (inp : Buffer) (n cap : Nat) {r : BacRun} (h : r.out.Ok cap)
    (hn : r.bac.writePos.toNat + n ≤ 8 * cap) (hc : cap ≤ 536870911) : (decSymbols inp n r).out.Ok cap := by
  induction n generalizing r with
  | zero => exact h
  | succ n ih =>
    have hw : (decSymbolBac inp r.bac).writePos.toNat = r.bac.writePos.toNat + 1 := by
      rw [decSymbolBac_writePos, BitVec.toNat_add]
      simp only [BitVec.ofNat_eq_ofNat, BitVec.toNat_ofNat]
      omega
    rw [decSymbols_succ]
    exact ih (h.bitWrite (by omega) _) (by simp only [hw]; omega)

/-- The registers at the start of the decoder's symbol loop. -/
def Bac.decStart (b : Bac) (inp : Buffer) (p : ℚ) : Bac := (b.decInit (bacM p)).valueLoad inp

theorem bacDecode_bac (inp out : Buffer) (b : Bac) (p : ℚ) :
    (bacDecode inp out b p).bac = decSymbolsBac inp out.len.toNat (b.decStart inp p) := decSymbols_bac _ _ _

theorem bacDecode_len (inp out : Buffer) (b : Bac) (p : ℚ) : (bacDecode inp out b p).out.len = out.len :=
  decSymbols_len _ _ _

/-- The out-buffer of `BAC.DEC`: the symbols, ORed into what it held. -/
theorem bacDecode_bit (inp : Buffer) {out : Buffer} (b : Bac) (p : ℚ) (h : out.bytes.wf = true) (j : Nat) :
    (bacDecode inp out b p).out.bitRead j =
      (out.bitRead j || (decodedSyms inp out.len.toNat (b.decStart inp p)).getD j false) := by
  have := decSymbols_bit inp out.len.toNat (r := { out := out, bac := b.decStart inp p }) h
    (by have := out.len.isLt; show 0 + _ < _; omega) j
  rw [show (b.decStart inp p).writePos.toNat = 0 from rfl] at this
  unfold bacDecode
  rw [show (b.decInit (bacM p)).valueLoad inp = b.decStart inp p from rfl]
  simpa using this

end Sys2Proof.Machine
end

