-- ==== Sys2Proof/Laws/BacEnc.lean ====
section
/-! SUPPORT. The BAC encoder as a function of its registers and of the in-buffer: which bits each part of it
appends and which registers it leaves (`43_bac.md` R168 to R176), and when it cannot fault. The out-buffer
enters only through its room. -/

namespace Sys2Proof.Machine

/-! ### Emission -/

theorem appendCopies_ok {cap : Nat} (hc : cap ≤ 536870911) {x : Bool} (n : Nat) {b o : Buffer}
    (hb : b.bytes.wf = true) (h : appendCopies cap x n b = .ok o) : b.Appended o (List.replicate n x) := by
  induction n generalizing b with
  | zero => injection h with h; subst h; exact .refl hb
  | succ n ih =>
    unfold appendCopies at h
    split at h
    · cases h
    · rename_i b' hb'
      have h1 := Buffer.Appended.single hc hb hb'
      exact h1.trans (ih h1.wf h)

theorem appendCopies_of_room {cap : Nat} (hc : cap ≤ 536870911) {x : Bool} (n : Nat) {b : Buffer}
    (h : b.len.toNat + n ≤ 8 * cap) : ∃ o, appendCopies cap x n b = .ok o := by
  induction n generalizing b with
  | zero => exact ⟨b, rfl⟩
  | succ n ih =>
    unfold appendCopies
    have hb := Buffer.bitAppend_of_room (cap := cap) (x := x) (b := b) (by omega)
    rw [hb]
    exact ih (by rw [Buffer.bitAppend_len hc hb]; omega)

theorem appendCopies_error {cap : Nat} {x : Bool} (n : Nat) {b : Buffer} {c : Cause}
    (h : appendCopies cap x n b = .error c) : c = .bufferOverflow := by
  induction n generalizing b with
  | zero => cases h
  | succ n ih =>
    unfold appendCopies at h
    split at h
    · injection h with h; subst h; exact (Buffer.bitAppend_error ‹_›).1
    · exact ih h

/-- What `Emit` appends: the bit, then `pending` copies of its opposite. -/
def emitBits (x : Bool) (pending : Nat) : List Bool := x :: List.replicate pending (!x)

theorem emit_ok {cap : Nat} (hc : cap ≤ 536870911) {x : Bool} {r r' : BacRun} (hb : r.out.bytes.wf = true)
    (h : emit cap x r = .ok r') :
    r'.bac = { r.bac with pending := 0 } ∧ r.out.Appended r'.out (emitBits x r.bac.pending.toNat) := by
  unfold emit at h
  split at h
  · cases h
  · rename_i o ho
    have h1 := Buffer.Appended.single hc hb ho
    split at h
    · cases h
    · injection h with h; subst h
      exact ⟨rfl, h1.trans (appendCopies_ok hc _ h1.wf ‹_›)⟩

theorem emit_of_room {cap : Nat} (hc : cap ≤ 536870911) {x : Bool} {r : BacRun}
    (h : r.out.len.toNat + (r.bac.pending.toNat + 1) ≤ 8 * cap) : ∃ r', emit cap x r = .ok r' := by
  unfold emit
  have hb := Buffer.bitAppend_of_room (cap := cap) (x := x) (b := r.out) (by omega)
  rw [hb]
  obtain ⟨o, ho⟩ := appendCopies_of_room (x := !x) hc r.bac.pending.toNat
    (b := { r.out.pushZeroByte.bitWrite r.out.len.toNat x with len := r.out.len + 1 })
    (by rw [Buffer.bitAppend_len hc hb]; omega)
  simp only [ho]
  exact ⟨_, rfl⟩

theorem emit_error {cap : Nat} {x : Bool} {r : BacRun} {c : Cause} (h : emit cap x r = .error c) :
    c = .bufferOverflow := by
  unfold emit at h
  split at h
  · injection h with h; subst h; exact (Buffer.bitAppend_error ‹_›).1
  · split at h
    · injection h with h; subst h; exact appendCopies_error _ ‹_›
    · cases h

theorem countPending_ok {r r' : BacRun} (h : countPending r = .ok r') :
    r.bac.pending.toNat < pendingMax ∧ r' = { r with bac := { r.bac with pending := r.bac.pending + 1 } } := by
  unfold countPending at h
  split at h
  · cases h
  · injection h with h
    have := r.bac.pending.isLt
    refine ⟨?_, h.symm⟩
    unfold pendingMax at *
    omega

theorem countPending_error {r : BacRun} {c : Cause} (h : countPending r = .error c) : c = .pendingOverflow := by
  unfold countPending at h
  split at h
  · injection h with h; exact h.symm
  · cases h

theorem countPending_of_lt {r : BacRun} (h : r.bac.pending.toNat < pendingMax) :
    countPending r = .ok { r with bac := { r.bac with pending := r.bac.pending + 1 } } := by
  unfold countPending
  rw [if_neg (by omega)]

theorem pending_succ {w : Word} (h : w.toNat < pendingMax) : (w + 1).toNat = w.toNat + 1 := by
  rw [BitVec.toNat_add]
  unfold pendingMax at h
  simp only [BitVec.ofNat_eq_ofNat, BitVec.toNat_ofNat]
  omega

/-! ### One pass of the renormalisation -/

/-- What a pass in the case `c` appends. -/
def caseBits (c : RenormCase) (pending : Nat) : List Bool :=
  match c with
  | .e1 => emitBits false pending
  | .e2 => emitBits true pending
  | .e3 => []
  | .done => []

/-- The pending count after a pass in the case `c`. -/
def casePending (c : RenormCase) (pending : Word) : Word :=
  match c with
  | .e1 => 0
  | .e2 => 0
  | .e3 => pending + 1
  | .done => pending

/-- The registers after a pass. -/
def Bac.encPass (b : Bac) : Bac :=
  { b with pending := casePending b.case b.pending }.rescale b.case.offset

theorem encStep_ok {cap : Nat} (hc : cap ≤ 536870911) {r r' : BacRun} (hb : r.out.bytes.wf = true)
    (h : encStep cap r.bac.case r = .ok r') :
    r'.bac = r.bac.encPass ∧ r.out.Appended r'.out (caseBits r.bac.case r.bac.pending.toNat) := by
  unfold encStep at h
  unfold Bac.encPass
  split at h
  · cases h
  · rename_i q hq
    injection h with h
    subst h
    split at hq <;> rename_i hcase <;> rw [hcase]
    · obtain ⟨h1, h2⟩ := emit_ok hc hb hq; exact ⟨by simp only [h1, casePending], h2⟩
    · obtain ⟨h1, h2⟩ := emit_ok hc hb hq; exact ⟨by simp only [h1, casePending], h2⟩
    · obtain ⟨-, rfl⟩ := countPending_ok hq; exact ⟨rfl, .refl hb⟩
    · injection hq with hq; subst hq; exact ⟨rfl, .refl hb⟩

theorem encStep_error {cap : Nat} {k : RenormCase} {r : BacRun} {c : Cause} (h : encStep cap k r = .error c) :
    c = .bufferOverflow ∨ c = .pendingOverflow := by
  unfold encStep at h
  split at h
  · rename_i e he
    injection h with h; subst h
    split at he
    · exact .inl (emit_error he)
    · exact .inl (emit_error he)
    · exact .inr (countPending_error he)
    · cases he
  · cases h

theorem encStep_of_room {cap : Nat} (hc : cap ≤ 536870911) {k : RenormCase} {r : BacRun}
    (h : r.out.len.toNat + (r.bac.pending.toNat + 1) ≤ 8 * cap) : ∃ r', encStep cap k r = .ok r' := by
  have hp : r.bac.pending.toNat < pendingMax := by unfold pendingMax; omega
  unfold encStep
  cases k
  · obtain ⟨q, hq⟩ := emit_of_room (x := false) hc h; simp only [hq]; exact ⟨_, rfl⟩
  · obtain ⟨q, hq⟩ := emit_of_room (x := true) hc h; simp only [hq]; exact ⟨_, rfl⟩
  · simp only [countPending_of_lt hp]; exact ⟨_, rfl⟩
  · exact ⟨_, rfl⟩

/-- A pass outside `NONE` turns one more decision into a bit: appended now, or pending. -/
theorem caseBits_length {c : RenormCase} (hc : c ≠ .done) {pending : Word} (hp : pending.toNat < pendingMax) :
    (caseBits c pending.toNat).length + (casePending c pending).toNat = pending.toNat + 1 := by
  cases c with
  | e1 => simp [caseBits, casePending, emitBits]
  | e2 => simp [caseBits, casePending, emitBits]
  | e3 =>
    show 0 + (pending + 1).toNat = _
    rw [pending_succ hp]
    omega
  | done => exact absurd rfl hc

/-! ### The loops -/

/-- What the loop of R174 appends. -/
def encRenormBits : Nat → Bac → List Bool
  | 0, _ => []
  | fuel + 1, b =>
    if b.case = .done then [] else caseBits b.case b.pending.toNat ++ encRenormBits fuel b.encPass

/-- The registers after the loop of R174. -/
def encRenormBac : Nat → Bac → Bac
  | 0, b => b
  | fuel + 1, b => if b.case = .done then b else encRenormBac fuel b.encPass

theorem encRenorm_ok {cap : Nat} (hc : cap ≤ 536870911) (fuel : Nat) {r r' : BacRun} (hb : r.out.bytes.wf = true)
    (h : encRenorm cap fuel r = .ok r') :
    r'.bac = encRenormBac fuel r.bac ∧ r.out.Appended r'.out (encRenormBits fuel r.bac) := by
  induction fuel generalizing r with
  | zero => injection h with h; subst h; exact ⟨rfl, .refl hb⟩
  | succ fuel ih =>
    unfold encRenorm at h
    unfold encRenormBac encRenormBits
    split at h
    · rename_i hd
      injection h with h; subst h
      rw [if_pos hd, if_pos hd]
      exact ⟨rfl, .refl hb⟩
    · rename_i hd
      rw [if_neg hd, if_neg hd]
      split at h
      · cases h
      · rename_i q hq
        obtain ⟨h1, h2⟩ := encStep_ok hc hb hq
        obtain ⟨h3, h4⟩ := ih h2.wf h
        rw [h1] at h3 h4
        exact ⟨h3, h2.trans h4⟩

theorem encRenorm_error {cap fuel : Nat} {r : BacRun} {c : Cause} (h : encRenorm cap fuel r = .error c) :
    c = .bufferOverflow ∨ c = .pendingOverflow := by
  induction fuel generalizing r with
  | zero => cases h
  | succ fuel ih =>
    unfold encRenorm at h
    split at h
    · cases h
    · split at h
      · injection h with h; subst h; exact encStep_error ‹_›
      · exact ih h

/-- What a renormalisation loop of at most `fuel` passes can append, and what can stay pending. -/
theorem encRenormBits_length (fuel : Nat) {b : Bac} (hp : b.pending.toNat + fuel ≤ pendingMax) :
    (encRenormBits fuel b).length + (encRenormBac fuel b).pending.toNat ≤ b.pending.toNat + fuel := by
  induction fuel generalizing b with
  | zero => simp [encRenormBits, encRenormBac]
  | succ fuel ih =>
    unfold encRenormBits encRenormBac
    split
    · simp
    · rename_i hd
      have hl := caseBits_length hd (pending := b.pending) (by omega)
      have := ih (b := b.encPass) (by show (casePending b.case b.pending).toNat + fuel ≤ _; omega)
      rw [List.length_append]
      change _ + (encRenormBac fuel b.encPass).pending.toNat ≤ (casePending b.case b.pending).toNat + fuel at this
      omega

theorem encRenorm_of_room {cap : Nat} (hc : cap ≤ 536870911) (fuel : Nat) {r : BacRun}
    (hb : r.out.bytes.wf = true) (h : r.out.len.toNat + (r.bac.pending.toNat + fuel) ≤ 8 * cap) :
    ∃ r', encRenorm cap fuel r = .ok r' := by
  induction fuel generalizing r with
  | zero => exact ⟨r, rfl⟩
  | succ fuel ih =>
    unfold encRenorm
    split
    · exact ⟨_, rfl⟩
    · rename_i hd
      obtain ⟨q, hq⟩ := encStep_of_room (k := r.bac.case) hc (r := r) (by omega)
      obtain ⟨h1, h2⟩ := encStep_ok hc hb hq
      rw [hq]
      refine ih h2.wf ?_
      have hl := caseBits_length hd (pending := r.bac.pending) (by unfold pendingMax; omega)
      have hp : q.bac.pending = casePending r.bac.case r.bac.pending := by rw [h1]; rfl
      rw [h2.len, hp]
      omega

/-- The registers after one symbol of R176. -/
def encSymbolBac (inp : Buffer) (b : Bac) : Bac :=
  { encRenormBac renormFuel (b.narrow (inp.bitRead b.readPos.toNat)) with
    readPos := (encRenormBac renormFuel (b.narrow (inp.bitRead b.readPos.toNat))).readPos + 1 }

/-- What one symbol of R176 appends. -/
def encSymbolBits (inp : Buffer) (b : Bac) : List Bool :=
  encRenormBits renormFuel (b.narrow (inp.bitRead b.readPos.toNat))

theorem encSymbol_ok {cap : Nat} (hc : cap ≤ 536870911) {inp : Buffer} {r r' : BacRun}
    (hb : r.out.bytes.wf = true) (h : encSymbol cap inp r = .ok r') :
    r'.bac = encSymbolBac inp r.bac ∧ r.out.Appended r'.out (encSymbolBits inp r.bac) := by
  unfold encSymbol at h
  split at h
  · cases h
  · rename_i q hq
    injection h with h; subst h
    obtain ⟨h1, h2⟩ := encRenorm_ok hc _
      (r := { r with bac := r.bac.narrow (inp.bitRead r.bac.readPos.toNat) }) hb hq
    exact ⟨by simp only [h1, encSymbolBac], h2⟩

/-- The registers after `n` symbols. -/
def encSymbolsBac (inp : Buffer) : Nat → Bac → Bac
  | 0, b => b
  | n + 1, b => encSymbolsBac inp n (encSymbolBac inp b)

/-- What `n` symbols append. -/
def encSymbolsBits (inp : Buffer) : Nat → Bac → List Bool
  | 0, _ => []
  | n + 1, b => encSymbolBits inp b ++ encSymbolsBits inp n (encSymbolBac inp b)

theorem encSymbols_ok {cap : Nat} (hc : cap ≤ 536870911) {inp : Buffer} (n : Nat) {r r' : BacRun}
    (hb : r.out.bytes.wf = true) (h : encSymbols cap inp n r = .ok r') :
    r'.bac = encSymbolsBac inp n r.bac ∧ r.out.Appended r'.out (encSymbolsBits inp n r.bac) := by
  induction n generalizing r with
  | zero => injection h with h; subst h; exact ⟨rfl, .refl hb⟩
  | succ n ih =>
    unfold encSymbols at h
    split at h
    · cases h
    · rename_i q hq
      obtain ⟨h1, h2⟩ := encSymbol_ok hc hb hq
      obtain ⟨h3, h4⟩ := ih h2.wf h
      rw [h1] at h3 h4
      exact ⟨h3, h2.trans h4⟩

theorem encSymbol_error {cap : Nat} {inp : Buffer} {r : BacRun} {c : Cause} (h : encSymbol cap inp r = .error c) :
    c = .bufferOverflow ∨ c = .pendingOverflow := by
  unfold encSymbol at h
  split at h
  · injection h with h; subst h; exact encRenorm_error ‹_›
  · cases h

theorem encSymbols_error {cap : Nat} {inp : Buffer} (n : Nat) {r : BacRun} {c : Cause}
    (h : encSymbols cap inp n r = .error c) : c = .bufferOverflow ∨ c = .pendingOverflow := by
  induction n generalizing r with
  | zero => cases h
  | succ n ih =>
    unfold encSymbols at h
    split at h
    · injection h with h; subst h; exact encSymbol_error ‹_›
    · exact ih h

theorem encFinal_ok {cap : Nat} (hc : cap ≤ 536870911) {r r' : BacRun} (hb : r.out.bytes.wf = true)
    (h : encFinal cap r = .ok r') :
    r.bac.pending.toNat < pendingMax ∧ r'.bac = { r.bac with pending := 0 } ∧
    r.out.Appended r'.out (emitBits (!decide (r.bac.low.toNat < q1)) (r.bac.pending.toNat + 1)) := by
  unfold encFinal at h
  split at h
  · cases h
  · rename_i q hq
    obtain ⟨hp, rfl⟩ := countPending_ok hq
    obtain ⟨h1, h2⟩ := emit_ok hc (r := { r with bac := { r.bac with pending := r.bac.pending + 1 } }) hb h
    simp only [pending_succ hp] at h1 h2
    exact ⟨hp, h1, h2⟩

theorem encFinal_error {cap : Nat} {r : BacRun} {c : Cause} (h : encFinal cap r = .error c) :
    c = .bufferOverflow ∨ c = .pendingOverflow := by
  unfold encFinal at h
  split at h
  · injection h with h; subst h; exact .inr (countPending_error ‹_›)
  · exact .inl (emit_error h)

theorem encFinal_of_room {cap : Nat} (hc : cap ≤ 536870911) {r : BacRun}
    (h : r.out.len.toNat + (r.bac.pending.toNat + 2) ≤ 8 * cap) : ∃ r', encFinal cap r = .ok r' := by
  have hp : r.bac.pending.toNat < pendingMax := by unfold pendingMax; omega
  unfold encFinal
  rw [countPending_of_lt hp]
  refine emit_of_room hc ?_
  simp only [pending_succ hp]
  omega

/-- The registers in which `BAC.ENC` stands before its finalisation. -/
def encodedBac (inp : Buffer) (b : Bac) (p : ℚ) : Bac := encSymbolsBac inp inp.len.toNat (b.encInit (bacM p))

/-- The code of `BAC.ENC` (R176). -/
def codeBits (inp : Buffer) (b : Bac) (p : ℚ) : List Bool :=
  encSymbolsBits inp inp.len.toNat (b.encInit (bacM p)) ++
    emitBits (!decide ((encodedBac inp b p).low.toNat < q1)) ((encodedBac inp b p).pending.toNat + 1)

/-- Everything `BAC.ENC` does where it completes. -/
theorem bacEncode_ok {cap : Nat} (hc : cap ≤ 536870911) {inp out : Buffer} {b : Bac} {p : ℚ} {r : BacRun}
    (hb : out.bytes.wf = true) (h : bacEncode cap inp out b p = .ok r) :
    r.bac = { encodedBac inp b p with pending := 0 } ∧ out.Appended r.out (codeBits inp b p) := by
  unfold bacEncode at h
  split at h
  · cases h
  · rename_i q hq
    obtain ⟨h1, h2⟩ := encSymbols_ok hc _ hb hq
    obtain ⟨-, h3, h4⟩ := encFinal_ok hc h2.wf h
    rw [h1] at h3 h4
    exact ⟨h3, h2.trans h4⟩

/-- How `BAC.ENC` can fault in the middle (R294 class (6)). -/
theorem bacEncode_error {cap : Nat} {inp out : Buffer} {b : Bac} {p : ℚ} {c : Cause}
    (h : bacEncode cap inp out b p = .error c) : c = .bufferOverflow ∨ c = .pendingOverflow := by
  unfold bacEncode at h
  split at h
  · injection h with h; subst h; exact encSymbols_error _ ‹_›
  · exact encFinal_error h

/-- The code is never shorter than the two bits of the finalisation. -/
theorem codeBits_length (inp : Buffer) (b : Bac) (p : ℚ) : 2 ≤ (codeBits inp b p).length := by
  simp [codeBits, emitBits]
  omega

theorem appendCopies_len_le {cap : Nat} (hc : cap ≤ 536870911) {x : Bool} (n : Nat) {b o : Buffer}
    (hb : b.len.toNat ≤ 8 * cap) (h : appendCopies cap x n b = .ok o) : o.len.toNat ≤ 8 * cap := by
  induction n generalizing b with
  | zero => injection h with h; subst h; exact hb
  | succ n ih =>
    unfold appendCopies at h
    split at h
    · cases h
    · rename_i b' hb'
      have := (Buffer.bitAppend_ok hb').1
      exact ih (by rw [Buffer.bitAppend_len hc hb']; omega) h

/-- After an emission the length is inside the capacity. -/
theorem emit_len_le {cap : Nat} (hc : cap ≤ 536870911) {x : Bool} {r r' : BacRun} (h : emit cap x r = .ok r') :
    r'.out.len.toNat ≤ 8 * cap := by
  unfold emit at h
  split at h
  · cases h
  · rename_i o ho
    have := (Buffer.bitAppend_ok ho).1
    split at h
    · cases h
    · injection h with h; subst h
      exact appendCopies_len_le hc _ (b := o) (by rw [Buffer.bitAppend_len hc ho]; omega) ‹_›

theorem bacEncode_len_le {cap : Nat} (hc : cap ≤ 536870911) {inp out : Buffer} {b : Bac} {p : ℚ} {r : BacRun}
    (h : bacEncode cap inp out b p = .ok r) : r.out.len.toNat ≤ 8 * cap := by
  unfold bacEncode at h
  split at h
  · cases h
  · unfold encFinal at h
    split at h
    · cases h
    · exact emit_len_le hc h

end Sys2Proof.Machine
end

