-- ==== Sys2Proof/Laws/BacCoder.lean ====
section
/-! SUPPORT. The registers between two symbols, in either direction of the BAC, and the loops' independence of
their fuel (`43_bac.md` R186, R187). -/

namespace Sys2Proof.Machine

/-- How both coders leave their registers between two symbols. -/
structure Bac.Ready (b : Bac) : Prop where
  low_lt_high : b.low.toNat < b.high.toNat
  done : b.case = .done
  m_low : 4 ≤ b.m.toNat
  m_high : b.m.toNat ≤ 4294967291

theorem Bac.case_done_of_length {b : Bac} (h : b.low.toNat + 2 ^ 31 ≤ b.high.toNat) : b.case = .done := by
  by_contra hd
  have : b.high.toNat < b.low.toNat + 2147483648 := length_of_not_done b.high.isLt hd
  omega

theorem two_pow_sub_succ {j : Nat} (hj : j + 1 ≤ 31) : 2 ^ (31 - j) = 2 * 2 ^ (31 - (j + 1)) := by
  rw [show 31 - j = (31 - (j + 1)) + 1 by omega, Nat.pow_succ, Nat.mul_comm]

@[simp] theorem Bac.encPass_low (b : Bac) : b.encPass.low = (b.rescale b.case.offset).low := rfl

@[simp] theorem Bac.encPass_high (b : Bac) : b.encPass.high = (b.rescale b.case.offset).high := rfl

@[simp] theorem Bac.encPass_pending (b : Bac) : b.encPass.pending = casePending b.case b.pending := rfl

@[simp] theorem Bac.decPass_low (b : Bac) (inp : Buffer) :
    (b.decPass inp).low = (b.rescale b.case.offset).low := by
  rw [Bac.decPass_frame]

@[simp] theorem Bac.decPass_high (b : Bac) (inp : Buffer) :
    (b.decPass inp).high = (b.rescale b.case.offset).high := by
  rw [Bac.decPass_frame]

/-- An interval of length `2^(31 - j)` leaves the cases within `j` passes, so that more fuel changes nothing. -/
theorem encRenormBac_fuel (j : Nat) {b : Bac} {k : Nat} (hj : j ≤ 31) (h : b.low.toNat + 2 ^ (31 - j) ≤ b.high.toNat)
    (hk : j ≤ k) : (encRenormBac j b).case = .done ∧ encRenormBac k b = encRenormBac j b ∧
      encRenormBits k b = encRenormBits j b := by
  induction j generalizing b k with
  | zero =>
    have hd := Bac.case_done_of_length h
    refine ⟨hd, ?_, ?_⟩ <;> cases k <;> simp [encRenormBac, encRenormBits, hd]
  | succ j ih =>
    obtain ⟨k, rfl⟩ : ∃ k', k = k' + 1 := ⟨k - 1, by omega⟩
    have hlt : b.low.toNat < b.high.toNat := by have := Nat.two_pow_pos (31 - (j + 1)); omega
    unfold encRenormBac encRenormBits
    split
    · rename_i hd; exact ⟨hd, rfl, rfl⟩
    · rename_i hd
      have := Bac.rescale_length hlt hd
      have e := two_pow_sub_succ hj
      obtain ⟨a1, a2, a3⟩ := ih (b := b.encPass) (k := k) (by omega)
        (by rw [Bac.encPass_low, Bac.encPass_high]; omega) (by omega)
      exact ⟨a1, a2, by rw [a3]⟩

theorem decRenorm_fuel {inp : Buffer} (j : Nat) {b : Bac} {k : Nat} (hj : j ≤ 31)
    (h : b.low.toNat + 2 ^ (31 - j) ≤ b.high.toNat) (hk : j ≤ k) :
    (decRenorm inp k b).case = .done ∧ decRenorm inp k b = decRenorm inp j b := by
  induction j generalizing b k with
  | zero =>
    have hd := Bac.case_done_of_length h
    cases k with
    | zero => exact ⟨hd, rfl⟩
    | succ k => rw [decRenorm_succ, if_pos hd]; exact ⟨hd, rfl⟩
  | succ j ih =>
    obtain ⟨k, rfl⟩ : ∃ k', k = k' + 1 := ⟨k - 1, by omega⟩
    have hlt : b.low.toNat < b.high.toNat := by have := Nat.two_pow_pos (31 - (j + 1)); omega
    rw [decRenorm_succ, decRenorm_succ]
    split
    · rename_i hd; exact ⟨hd, rfl⟩
    · rename_i hd
      have := Bac.rescale_length hlt hd
      have e := two_pow_sub_succ hj
      exact ih (by omega) (by rw [Bac.decPass_low, Bac.decPass_high]; omega) (by omega)

/-- A finished loop with a fault-free run finishes alike with one more pass of fuel. -/
theorem encRenorm_more_fuel {cap : Nat} (k : Nat) {r r' : BacRun} (h : encRenorm cap k r = .ok r')
    (hd : r'.bac.case = .done) : encRenorm cap (k + 1) r = .ok r' := by
  induction k generalizing r with
  | zero => injection h with h; subst h; unfold encRenorm; rw [if_pos hd]
  | succ k ih =>
    unfold encRenorm at h ⊢
    split at h
    · rw [if_pos ‹_›]; exact h
    · rw [if_neg ‹_›]
      split at h
      · cases h
      · exact ih h

/-- The encoder's loop touches `low`, `high` and `pending` only. -/
theorem encRenormBac_frame (k : Nat) (b : Bac) : encRenormBac k b = { b with
    low := (encRenormBac k b).low, high := (encRenormBac k b).high, pending := (encRenormBac k b).pending } := by
  induction k generalizing b with
  | zero => rfl
  | succ k ih =>
    unfold encRenormBac
    split
    · rfl
    · rw [ih b.encPass]; rfl

/-- Narrowing a ready interval leaves it nonempty. -/
theorem Bac.Ready.narrow {b : Bac} (h : b.Ready) (sym : Bool) :
    (b.narrow sym).low.toNat < (b.narrow sym).high.toNat := by
  have hl := length_of_done h.done
  obtain ⟨m1, m2⟩ := Bac.mid_bounds h.m_low h.m_high (by omega)
  obtain ⟨n1, n2⟩ := Bac.narrow_toNat (b := b) (by omega) sym
  rw [n1, n2]
  cases sym
  · exact m1
  · exact m2

/-- From a ready interval, 31 passes of fuel are as good as the 32 given. -/
theorem Bac.Ready.renorm {b : Bac} (h : b.Ready) (sym : Bool) :
    (encRenormBac 31 (b.narrow sym)).case = .done ∧
    encRenormBac renormFuel (b.narrow sym) = encRenormBac 31 (b.narrow sym) ∧
    encRenormBits renormFuel (b.narrow sym) = encRenormBits 31 (b.narrow sym) :=
  encRenormBac_fuel 31 (by decide) (by have := h.narrow sym; simp; omega) (by decide)

theorem encSymbolBac_eq (inp : Buffer) (b : Bac) : encSymbolBac inp b = { b with
    low := (encSymbolBac inp b).low, high := (encSymbolBac inp b).high
    pending := (encSymbolBac inp b).pending, readPos := b.readPos + 1 } := by
  have h := encRenormBac_frame renormFuel (b.narrow (inp.bitRead b.readPos.toNat))
  rw [b.narrow_frame] at h
  unfold encSymbolBac
  rw [b.narrow_frame, h]

/-- One encoded symbol leaves the registers ready. -/
theorem Bac.Ready.encSymbol {b : Bac} (h : b.Ready) (inp : Buffer) : (encSymbolBac inp b).Ready := by
  obtain ⟨a1, a2, -⟩ := h.renorm (inp.bitRead b.readPos.toNat)
  rw [← a2] at a1
  have hl := length_of_done a1
  have hm : (encSymbolBac inp b).m = b.m := by rw [encSymbolBac_eq]
  exact ⟨by show (encRenormBac renormFuel _).low.toNat < (encRenormBac renormFuel _).high.toNat; omega, a1,
    by rw [hm]; exact h.m_low, by rw [hm]; exact h.m_high⟩

/-- One decoded symbol leaves the registers ready. -/
theorem Bac.Ready.decSymbol {b : Bac} (h : b.Ready) (inp : Buffer) : (decSymbolBac inp b).Ready := by
  have hn := h.narrow b.decodedSym
  have hx := decRenorm_fuel (inp := inp) 31 (b := { b.narrow b.decodedSym with writePos := b.writePos + 1 })
    (k := renormFuel) (by decide) (by simp only [Nat.sub_self, Nat.pow_zero]; omega) (by decide)
  have hl := length_of_done hx.1
  exact ⟨by show (decRenorm inp renormFuel _).low.toNat < (decRenorm inp renormFuel _).high.toNat; omega, hx.1,
    by rw [decSymbolBac_m]; exact h.m_low, by rw [decSymbolBac_m]; exact h.m_high⟩

/-- A symbol turns at most 31 decisions into bits, appended or pending. -/
theorem encSymbolBits_length {b : Bac} (h : b.Ready) (inp : Buffer) (hp : b.pending.toNat + 31 ≤ pendingMax) :
    (encSymbolBits inp b).length + (encSymbolBac inp b).pending.toNat ≤ b.pending.toNat + 31 := by
  obtain ⟨-, a2, a3⟩ := h.renorm (inp.bitRead b.readPos.toNat)
  have ep : (b.narrow (inp.bitRead b.readPos.toNat)).pending = b.pending := by rw [b.narrow_frame]
  have := encRenormBits_length 31 (b := b.narrow (inp.bitRead b.readPos.toNat)) (by rw [ep]; exact hp)
  rw [ep] at this
  show (encRenormBits renormFuel _).length + (encRenormBac renormFuel _).pending.toNat ≤ _
  rw [a2, a3]
  exact this

/-! ### Runs in which no pending count overflows -/

/-- The pending count does not pass its maximum in the loop. -/
def renormCountsFit : Nat → Bac → Prop
  | 0, _ => True
  | k + 1, b => b.case = .done ∨ ((b.case = .e3 → b.pending.toNat < pendingMax) ∧ renormCountsFit k b.encPass)

/-- Nor in the coding of `n` symbols. -/
def symbolCountsFit (inp : Buffer) : Nat → Bac → Prop
  | 0, _ => True
  | n + 1, b =>
    renormCountsFit renormFuel (b.narrow (inp.bitRead b.readPos.toNat)) ∧
      symbolCountsFit inp n (encSymbolBac inp b)

/-- A run without a fault is such a run (`PendingOverflow` is a fault). -/
theorem renormCountsFit_of_ok {cap : Nat} (hc : cap ≤ 536870911) (k : Nat) {r r' : BacRun}
    (hb : r.out.bytes.wf = true) (h : encRenorm cap k r = .ok r') : renormCountsFit k r.bac := by
  induction k generalizing r with
  | zero => trivial
  | succ k ih =>
    unfold encRenorm at h
    unfold renormCountsFit
    split at h
    · exact .inl ‹_›
    · right
      split at h
      · cases h
      · rename_i q hq
        obtain ⟨h1, h2⟩ := encStep_ok hc hb hq
        refine ⟨fun h3 => ?_, by rw [← h1]; exact ih h2.wf h⟩
        rw [h3] at hq
        unfold encStep at hq
        simp only at hq
        split at hq
        · cases hq
        · exact (countPending_ok ‹_›).1

theorem symbolCountsFit_of_ok {cap : Nat} (hc : cap ≤ 536870911) {inp : Buffer} (n : Nat) {r r' : BacRun}
    (hb : r.out.bytes.wf = true) (h : encSymbols cap inp n r = .ok r') : symbolCountsFit inp n r.bac := by
  induction n generalizing r with
  | zero => trivial
  | succ n ih =>
    unfold encSymbols at h
    split at h
    · cases h
    · rename_i q hq
      obtain ⟨h1, h2⟩ := encSymbol_ok hc hb hq
      refine ⟨?_, by rw [← h1]; exact ih h2.wf h⟩
      unfold encSymbol at hq
      split at hq
      · cases hq
      · exact renormCountsFit_of_ok hc renormFuel
          (r := { r with bac := r.bac.narrow (inp.bitRead r.bac.readPos.toNat) }) hb ‹_›

end Sys2Proof.Machine
end

