-- ==== Sys2Proof/Laws/BacCode.lean ====
section
/-! SUPPORT. A BAC code as a number: the binary fraction of a bit string, and the exact position in the interval
that the bits still to come stand for (`43_bac.md` R173 to R175). -/

namespace Sys2Proof.Machine

/-- The binary fraction `0.b₀b₁b₂…`. -/
def binFrac : List Bool → ℚ
  | [] => 0
  | b :: bs => ((b.toNat : ℚ) + binFrac bs) / 2

theorem binFrac_range (bs : List Bool) : 0 ≤ binFrac bs ∧ binFrac bs < 1 := by
  induction bs with
  | nil => simp [binFrac]
  | cons b bs ih =>
    obtain ⟨h1, h2⟩ := ih
    unfold binFrac
    cases b <;> simp <;> constructor <;> linarith

theorem binFrac_append (a b : List Bool) : binFrac (a ++ b) = binFrac a + binFrac b / 2 ^ a.length := by
  induction a with
  | nil => simp [binFrac]
  | cons x a ih =>
    simp only [List.cons_append, binFrac, ih, List.length_cons, pow_succ]
    field_simp
    ring

theorem binFrac_ones (p : Nat) : binFrac (List.replicate p true) = 1 - 1 / 2 ^ p := by
  induction p with
  | zero => simp [binFrac]
  | succ p ih => rw [List.replicate_succ, binFrac, ih, pow_succ]; simp; field_simp; ring

theorem binFrac_zeros (p : Nat) : binFrac (List.replicate p false) = 0 := by
  induction p with
  | zero => simp [binFrac]
  | succ p ih => rw [List.replicate_succ, binFrac, ih]; simp

/-- Where the bits `bs`, still to come with `p` decisions pending, lie on the scale of `low` and `high`. -/
def codePoint (p : Nat) (bs : List Bool) : ℚ := 2 ^ 32 * 2 ^ p * binFrac bs - 2 ^ 31 * (2 ^ p - 1)

/-- A pass of the encoder doubles the point about the offset of its case, exactly as it does the interval. -/
theorem codePoint_caseBits {c : RenormCase} (hc : c ≠ .done) {pending : Word}
    (hp : c = .e3 → pending.toNat < pendingMax) (rest : List Bool) :
    codePoint pending.toNat (caseBits c pending.toNat ++ rest) =
      codePoint (casePending c pending).toNat rest / 2 + c.offset := by
  have h2 : (2 : ℚ) ^ pending.toNat ≠ 0 := by positivity
  cases c with
  | e1 =>
    simp only [caseBits, emitBits, casePending, RenormCase.offset, codePoint, List.cons_append, binFrac,
      binFrac_append, Bool.not_false, binFrac_ones, List.length_replicate]
    simp; field_simp; ring
  | e2 =>
    simp only [caseBits, emitBits, casePending, RenormCase.offset, codePoint, List.cons_append, binFrac,
      binFrac_append, Bool.not_true, binFrac_zeros, List.length_replicate, half]
    simp; field_simp; ring
  | e3 =>
    have : (casePending .e3 pending).toNat = pending.toNat + 1 := pending_succ (hp rfl)
    simp only [this]
    simp only [caseBits, RenormCase.offset, codePoint, List.nil_append, q1, pow_succ]
    push_cast; ring
  | done => exact absurd rfl hc

/-- The finalisation puts the point at `Q1` or at `HALF`. -/
theorem codePoint_final (x : Bool) (p : Nat) :
    codePoint p (emitBits x (p + 1)) = if x then 2 ^ 31 else 2 ^ 30 := by
  have h2 : (2 : ℚ) ^ p ≠ 0 := by positivity
  cases x
  · simp only [codePoint, emitBits, binFrac, Bool.not_false, binFrac_ones, pow_succ]
    simp; field_simp; ring
  · simp only [codePoint, emitBits, binFrac, Bool.not_true, binFrac_zeros]
    simp; ring

/-- The point lies in the interval of the registers. -/
def Bac.Contains (b : Bac) (x : ℚ) : Prop := (b.low.toNat : ℚ) ≤ x ∧ x < (b.high.toNat : ℚ)

/-- The point lies in the interval before a pass if it does after it. -/
theorem Bac.contains_of_encPass {b : Bac} (h : b.low.toNat < b.high.toNat) (hd : b.case ≠ .done)
    (hp : b.case = .e3 → b.pending.toNat < pendingMax) {rest : List Bool}
    (hi : b.encPass.Contains (codePoint b.encPass.pending.toNat rest)) :
    b.Contains (codePoint b.pending.toNat (caseBits b.case b.pending.toNat ++ rest)) := by
  rw [codePoint_caseBits hd hp]
  obtain ⟨e1, e2, e3⟩ := Bac.rescale_toNat h hd
  obtain ⟨i1, i2⟩ := hi
  rw [Bac.encPass_low, Bac.encPass_pending, e1, Nat.cast_mul, Nat.cast_sub e3] at i1
  rw [Bac.encPass_high, Bac.encPass_pending, e2, Nat.cast_mul, Nat.cast_sub (by omega)] at i2
  push_cast at i1 i2
  constructor <;> linarith

/-- The bits that the value load takes in, as the high part of the code's fraction. -/
theorem binFrac_load {inp : Buffer} {cs : List Bool} (hbits : ∀ j, j < cs.length → inp.bitRead j = cs.getD j false)
    (k : Nat) (hk : k ≤ cs.length) :
    binFrac cs = (loadValueBits inp k : ℚ) / 2 ^ k + binFrac (cs.drop k) / 2 ^ k := by
  induction k with
  | zero => simp [loadValueBits]
  | succ k ih =>
    rw [ih (by omega)]
    have hu : cs.drop k = cs.getD k false :: cs.drop (k + 1) := by
      rw [List.getD_eq_getElem _ _ (by omega)]
      exact List.drop_eq_getElem_cons (by omega)
    rw [hu, binFrac, loadValueBits, hbits k (by omega), pow_succ]
    push_cast; field_simp; ring

theorem loadValueBits_lt (inp : Buffer) (k : Nat) : loadValueBits inp k < 2 ^ k := by
  induction k with
  | zero => exact Nat.one_pos
  | succ k ih =>
    unfold loadValueBits
    have := Bool.toNat_lt (inp.bitRead k)
    rw [Nat.pow_succ]
    omega

end Sys2Proof.Machine
end

