-- ==== Sys2Proof/Laws/Decode.lean ====
section
/-! SUPPORT. The fields of a command word, and which format accepts which word. -/

namespace Sys2Proof

@[simp] theorem BufSel.toBit_ofBit (x : Bool) : (BufSel.ofBit x).toBit = x.toNat := by cases x <;> rfl

@[simp] theorem BufSel.ofBit_toBit (b : BufSel) : BufSel.ofBit (b.toBit == 1) = b := by cases b <;> rfl

theorem BufSel.toBit_lt (b : BufSel) : b.toBit < 2 := by cases b <;> decide

theorem fieldSel_toNat (w : Word) : (fieldSel w).toNat = w.toNat / 256 % 2 := by
  unfold fieldSel
  rcases Nat.mod_two_eq_zero_or_one (w.toNat / 256) with h | h <;> simp [h]

theorem fieldB_toNat (w : Word) : (fieldB w).toNat = w.toNat / 512 % 2 := by
  unfold fieldB
  rcases Nat.mod_two_eq_zero_or_one (w.toNat / 512) with h | h <;> simp [h]

theorem fieldT_toNat (w : Word) : (fieldT w).toNat = w.toNat / 1024 % 2 := by
  unfold fieldT
  rcases Nat.mod_two_eq_zero_or_one (w.toNat / 1024) with h | h <;> simp [h]

/-- A word whose bits 31:11 are 0 is put together again from its four fields. -/
theorem commandWord_fields {w : Word} (h : fieldZero w = 0) :
    commandWord (fieldOp w) (fieldSel w).toNat (fieldB w).toNat (fieldT w).toNat = w := by
  apply BitVec.eq_of_toNat_eq
  rw [fieldSel_toNat, fieldB_toNat, fieldT_toNat]
  unfold commandWord fieldOp
  unfold fieldZero at h
  rw [BitVec.toNat_ofNat]
  have := w.isLt
  omega

/-- Format `Z` accepts a word exactly when the fields it does not use are 0. -/
theorem formatZ_ok {w : Word} {f i : Instr} (h : formatZ w f = .ok i) :
    i = f ∧ fieldSel w = false ∧ fieldB w = false ∧ fieldT w = false := by
  unfold formatZ at h
  split at h
  · cases h
  · split at h
    · cases h
    · split at h
      · cases h
      · injection h with h; simp_all

/-- Format `S` accepts a word exactly when the fields it does not use are 0. -/
theorem formatS_ok {w : Word} {f : BufSel → Instr} {i : Instr} (h : formatS w f = .ok i) :
    i = f (BufSel.ofBit (fieldSel w)) ∧ fieldB w = false ∧ fieldT w = false := by
  unfold formatS at h
  split at h
  · cases h
  · split at h
    · cases h
    · injection h with h; simp_all

/-- Format `SB` accepts a word exactly when the field it does not use is 0. -/
theorem formatSB_ok {w : Word} {f : BufSel → Bool → Instr} {i : Instr} (h : formatSB w f = .ok i) :
    i = f (BufSel.ofBit (fieldSel w)) (fieldB w) ∧ fieldT w = false := by
  unfold formatSB at h
  split at h
  · cases h
  · injection h with h; simp_all

/-- Format `ST` accepts a word exactly when the field it does not use is 0; `t` selects the command. -/
theorem formatST_ok {w : Word} {f g : BufSel → Instr} {i : Instr} (h : formatST w f g = .ok i) :
    i = (if fieldT w then g else f) (BufSel.ofBit (fieldSel w)) ∧ fieldB w = false := by
  unfold formatST at h
  split at h
  · cases h
  · split at h <;> (injection h with h; simp_all)

end Sys2Proof
end

