-- ==== Sys2Proof/Laws/Divide.lean ====
section
/-! SUPPORT. The descriptor of the fast divider as numbers (`41_fastdiv.md` R130, R136), the multiplier of the
fraction multiplier (`42_fracmul.md` R150), the BAC's multiplier (`43_bac.md` R166), and the configuration
registers of the rANS unit as numbers (`44_rans.md` R200). -/

namespace Sys2Proof.Machine

/-- `w` of R130 is the least width whose power of two is not below the divisor. -/
theorem divisorWidth_spec {d : Nat} (h1 : 1 ≤ d) :
    d ≤ 2 ^ divisorWidth d ∧ (2 ≤ d → 2 ^ divisorWidth d < 2 * d) ∧ (d = 1 → divisorWidth d = 0) := by
  unfold divisorWidth
  by_cases hd : d ≤ 1
  · rw [if_pos hd]
    have : d = 1 := by omega
    subst this
    simp
  · rw [if_neg hd]
    have h0 : d - 1 ≠ 0 := by omega
    have h2 := Nat.lt_log2_self (n := d - 1)
    have h3 := Nat.log2_self_le h0
    rw [Nat.pow_succ] at h2 ⊢
    refine ⟨by omega, fun _ => by omega, by omega⟩

theorem divisorWidth_le {d : Nat} (h : d < 2147483648) : divisorWidth d ≤ 31 := by
  unfold divisorWidth
  split
  · omega
  · have h0 : d - 1 ≠ 0 := by omega
    have := (Nat.log2_lt h0 (k := 31)).mpr (by omega)
    omega

/-- The multiplier of R130 lies within `d - 1` above the exact one. -/
theorem mul_bounds {d k : Nat} (h1 : 1 ≤ d) :
    2 ^ k ≤ (2 ^ k + d - 1) / d * d ∧ (2 ^ k + d - 1) / d * d < 2 ^ k + d := by
  have h := Nat.div_add_mod (2 ^ k + d - 1) d
  have h2 := Nat.mod_lt (2 ^ k + d - 1) (show d > 0 by omega)
  rw [Nat.mul_comm] at h
  have h3 := Nat.two_pow_pos k
  omega

/-- The multiplier of R130 fits its 33 bits and is at least `2^32`. -/
theorem mul_range {d : Nat} (h1 : 1 ≤ d) (hd : d < 2147483648) :
    2 ^ 32 ≤ (2 ^ (32 + divisorWidth d) + d - 1) / d ∧ (2 ^ (32 + divisorWidth d) + d - 1) / d < 2 ^ 33 := by
  obtain ⟨hw1, hw2, hw3⟩ := divisorWidth_spec h1
  constructor
  · rw [Nat.le_div_iff_mul_le (by omega), Nat.pow_add]
    have : 2 ^ 32 * d ≤ 2 ^ 32 * 2 ^ divisorWidth d := Nat.mul_le_mul_left _ hw1
    omega
  · rw [Nat.div_lt_iff_lt_mul (by omega), Nat.pow_add]
    rcases Nat.lt_or_ge d 2 with hd1 | hd1
    · have : d = 1 := by omega
      subst this
      rw [hw3 rfl]
      decide
    · have := hw2 hd1
      omega

/-- The fields of a descriptor, as numbers. -/
theorem fdDesc_toNat {d : Nat} (h1 : 1 ≤ d) (h2 : d < 2147483648) :
    (fdDesc d).d.toNat = d ∧ (fdDesc d).shift.toNat = 32 + divisorWidth d ∧
    (fdDesc d).mul.toNat = (2 ^ (32 + divisorWidth d) + d - 1) / d := by
  have hw := divisorWidth_le h2
  have hm := (mul_range h1 h2).2
  unfold fdDesc
  rw [if_neg (by omega)]
  simp only [BitVec.toNat_ofNat]
  exact ⟨Nat.mod_eq_of_lt (by omega), Nat.mod_eq_of_lt (by omega), Nat.mod_eq_of_lt hm⟩

theorem fdDesc_zero : fdDesc 0 = FdDesc.zero := rfl

/-! ### The fraction multiplier -/

/-- `FmSetup` as the two inequalities of a floor. -/
theorem fmSetup_bounds {f : ℚ} (h0 : 0 ≤ f) :
    (fmSetup f : ℚ) ≤ f * 4294967296 ∧ f * 4294967296 < fmSetup f + 1 := by
  have h : 0 ≤ f * 4294967296 := mul_nonneg h0 (by norm_num)
  exact ⟨Nat.floor_le h, Nat.lt_floor_add_one _⟩

theorem fmSetup_le {f : ℚ} (h1 : f ≤ 1) : fmSetup f ≤ 4294967296 := by
  unfold fmSetup
  have h : ⌊f * 4294967296⌋₊ ≤ ⌊(4294967296 : ℚ)⌋₊ := Nat.floor_le_floor (by linarith)
  simpa using h

theorem fmSetup_mono {f g : ℚ} (h : f ≤ g) : fmSetup f ≤ fmSetup g :=
  Nat.floor_le_floor (mul_le_mul_of_nonneg_right h (by norm_num))

/-- The clamped probability of R166. -/
theorem clip_eps_bounds (p : ℚ) : eps ≤ clip p eps (1 - eps) ∧ clip p eps (1 - eps) ≤ 1 - eps := by
  unfold clip eps
  refine ⟨le_min (le_max_right _ _) (by norm_num), min_le_right _ _⟩

/-! ### The rANS configuration -/

/-- `f0` of R200 leaves both symbols a frequency. -/
theorem freqZero_bounds (p : ℚ) {t : Nat} (ht : 2 ≤ t) : 1 ≤ freqZero p t ∧ freqZero p t ≤ t - 1 := by
  unfold freqZero
  exact ⟨le_min (le_max_right _ _) (by omega), min_le_right _ _⟩

/-- The registers of R200 as numbers. -/
theorem confOf_toNat {r f0 : Nat} (h2 : 2 ≤ r) (h23 : r ≤ 23) (h0 : 1 ≤ f0) (h1 : f0 ≤ 2 ^ r - 1) :
    (confOf r f0).r.toNat = r ∧ (confOf r f0).totalFreq.toNat = 2 ^ r ∧
    (confOf r f0).freq0.toNat = f0 ∧ (confOf r f0).freq1.toNat = 2 ^ r - f0 ∧
    (confOf r f0).cum0.toNat = 0 ∧ (confOf r f0).cum1.toNat = f0 ∧
    (confOf r f0).thr0.toNat = f0 * 256 ∧ (confOf r f0).thr1.toNat = (2 ^ r - f0) * 256 ∧
    (confOf r f0).fd0 = fdDesc f0 ∧ (confOf r f0).fd1 = fdDesc (2 ^ r - f0) := by
  have hp : 2 ^ r ≤ 2 ^ 23 := Nat.pow_le_pow_right (by decide) h23
  simp only [confOf, BitVec.toNat_ofNat]
  refine ⟨Nat.mod_eq_of_lt (by omega), Nat.mod_eq_of_lt (by omega), Nat.mod_eq_of_lt (by omega),
    Nat.mod_eq_of_lt (by omega), rfl, Nat.mod_eq_of_lt (by omega), Nat.mod_eq_of_lt (by omega),
    Nat.mod_eq_of_lt (by omega), trivial, trivial⟩

/-! ### The tables -/

/-- One entry of the dense encode table. -/
theorem EncTable.dense_getElem? (t : EncTable) {i : Nat} (h : i < t.size) : t.dense[i]? = some (t.entry i) := by
  unfold EncTable.dense
  rw [List.getElem?_map, List.getElem?_range h]
  rfl

theorem DecTable.dense_getElem? (t : DecTable) {i : Nat} (h : i < t.size) : t.dense[i]? = some (t.entry i) := by
  unfold DecTable.dense
  rw [List.getElem?_map, List.getElem?_range h]
  rfl

@[simp] theorem EncTable.dense_length (t : EncTable) : t.dense.length = t.size := by simp [EncTable.dense]

@[simp] theorem DecTable.dense_length (t : DecTable) : t.dense.length = t.size := by simp [DecTable.dense]

/-- The entry at index `2x + sym`. -/
theorem EncTable.entry_eq (t : EncTable) (x : Nat) (sym : Bool) :
    t.entry (2 * x + sym.toNat) = wrap32 (encTr t.filledFrom x sym) := by
  unfold EncTable.entry
  have h1 : (2 * x + sym.toNat) / 2 = x := by have := Bool.toNat_lt sym; omega
  have h2 : ((2 * x + sym.toNat) % 2 == 1) = sym := by cases sym <;> simp
  rw [h1, h2]

/-- A lookup in a table filled from `c` is the compute-mode transition of `c`. -/
theorem tableEnc_eq (t : EncTable) (x : Word) (sym : Bool) :
    tableEnc t x sym = computeEnc t.filledFrom x sym := t.entry_eq _ _

theorem tableDec_eq (t : DecTable) (x : Word) : tableDec t x = computeDec t.filledFrom x := rfl

end Sys2Proof.Machine
end

