-- ==== Sys2Proof/Laws/Exec.lean ====
section
/-! SUPPORT. Everything each command's meaning can do: one inversion lemma per meaning, so that no proof about
commands has to unfold one. -/

namespace Sys2Proof.Machine

theorem raised_next {s t : State} {c : Cause} : raised s c = .next t ↔ t = s.raise c := by
  unfold raised
  constructor
  · intro h; injection h with h; exact h.symm
  · rintro rfl; rfl

theorem Prob.inUnit_error {p : Prob} {c : Cause} (h : p.inUnit = .error c) :
    c = .invalidProbability ∧ (p = .notNumber ∨ ∃ q, p = .num q ∧ (q < 0 ∨ 1 < q)) := by
  cases p with
  | notNumber => injection h with h; exact ⟨h.symm, .inl rfl⟩
  | num q =>
    simp only [Prob.inUnit] at h
    split at h
    · injection h with h; exact ⟨h.symm, .inr ⟨q, rfl, by assumption⟩⟩
    · cases h

theorem Prob.inUnit_ok {p : Prob} {q : ℚ} : p.inUnit = .ok q ↔ p = .num q ∧ 0 ≤ q ∧ q ≤ 1 := by
  cases p with
  | notNumber => simp [Prob.inUnit]
  | num r =>
    simp only [Prob.inUnit]
    split
    · rename_i h
      constructor
      · intro h'; cases h'
      · rintro ⟨h', h0, h1⟩
        injection h' with h'; subst h'
        rcases h with h | h
        · exact absurd h0 (not_le.mpr h)
        · exact absurd h1 (not_le.mpr h)
    · rename_i h
      obtain ⟨h0, h1⟩ := not_or.mp h
      constructor
      · intro h'; injection h' with h'; subst h'; exact ⟨rfl, not_lt.mp h0, not_lt.mp h1⟩
      · rintro ⟨h', -, -⟩; injection h' with h'; subst h'; rfl

theorem Prob.anyNumber_ok {p : Prob} {q : ℚ} : p.anyNumber = .ok q ↔ p = .num q := by
  cases p <;> simp [Prob.anyNumber]

theorem Prob.anyNumber_error {p : Prob} {c : Cause} :
    p.anyNumber = .error c ↔ c = .invalidProbability ∧ p = .notNumber := by
  cases p <;> simp [Prob.anyNumber, eq_comm]

/-! ### Bit buffers -/

theorem execBbNew_cases {sel : BufSel} {s t : State} (h : execBbNew sel s = .next t) :
    (8 * s.params.capBytes < s.arg0.toNat ∧ t = s.raise .bufferOverflow) ∨
    (s.arg0.toNat ≤ 8 * s.params.capBytes ∧ t = s.setBuf sel
      { bytes := (s.buf sel).bytes.clearBelow ((s.arg0.toNat + 7) / 8), len := s.arg0 }) := by
  unfold execBbNew at h
  split at h
  · exact .inl ⟨by assumption, raised_next.mp h⟩
  · injection h with h; exact .inr ⟨not_lt.mp ‹_›, h.symm⟩

theorem execBbRd_cases {sel : BufSel} {s t : State} (h : execBbRd sel s = .next t) :
    ((s.buf sel).len.toNat ≤ s.arg0.toNat ∧ t = s.raise .indexOutOfRange) ∨
    (s.arg0.toNat < (s.buf sel).len.toNat ∧
      t = { s with res0 := wrap32 ((s.buf sel).bitRead s.arg0.toNat).toNat }) := by
  unfold execBbRd at h
  split at h
  · exact .inl ⟨by assumption, raised_next.mp h⟩
  · injection h with h; exact .inr ⟨not_le.mp ‹_›, h.symm⟩

theorem execBbWr_cases {sel : BufSel} {b : Bool} {s t : State} (h : execBbWr sel b s = .next t) :
    ((s.buf sel).len.toNat ≤ s.arg0.toNat ∧ t = s.raise .indexOutOfRange) ∨
    (s.arg0.toNat < (s.buf sel).len.toNat ∧ t = s.setBuf sel ((s.buf sel).bitWrite s.arg0.toNat b)) := by
  unfold execBbWr at h
  split at h
  · exact .inl ⟨by assumption, raised_next.mp h⟩
  · injection h with h; exact .inr ⟨not_le.mp ‹_›, h.symm⟩

theorem execBbLen_cases {sel : BufSel} {s t : State} (h : execBbLen sel s = .next t) :
    t = { s with res0 := (s.buf sel).len, res1 := wrap32 (s.buf sel).byteLen } := by
  injection h with h; exact h.symm

theorem execBbByte_cases {sel : BufSel} {s t : State} (h : execBbByte sel s = .next t) :
    ((s.buf sel).byteLen ≤ s.arg0.toNat ∧ t = s.raise .indexOutOfRange) ∨
    (s.arg0.toNat < (s.buf sel).byteLen ∧
      t = { s with res0 := wrap32 ((s.buf sel).byte s.arg0.toNat).toNat }) := by
  unfold execBbByte at h
  split at h
  · exact .inl ⟨by assumption, raised_next.mp h⟩
  · injection h with h; exact .inr ⟨not_le.mp ‹_›, h.symm⟩

theorem execBsNew_cases {sel : BufSel} {s t : State} (h : execBsNew sel s = .next t) :
    t = s.setBuf sel { s.buf sel with len := 0 } := by
  injection h with h; exact h.symm

theorem execBsApp_cases {sel : BufSel} {b : Bool} {s t : State} (h : execBsApp sel b s = .next t) :
    (8 * s.params.capBytes ≤ (s.buf sel).len.toNat ∧ t = s.raise .bufferOverflow) ∨
    ∃ o, (s.buf sel).bitAppend s.params.capBytes b = .ok o ∧ t = s.setBuf sel o := by
  unfold execBsApp at h
  split at h
  · rename_i c hc
    unfold Buffer.bitAppend at hc
    split at hc
    · injection hc with hc; subst hc; exact .inl ⟨by assumption, raised_next.mp h⟩
    · cases hc
  · injection h with h; exact .inr ⟨_, by assumption, h.symm⟩

/-! ### The divider and the multiplier -/

theorem execFdivSetup_cases {s t : State} (h : execFdivSetup s = .next t) :
    (2 ^ 31 ≤ s.arg0.toNat ∧ t = s.raise .divisorOutOfRange) ∨
    (s.arg0.toNat < 2 ^ 31 ∧ t = { s with fdg := fdDesc s.arg0.toNat, status := s.status.setFdgv }) := by
  unfold execFdivSetup at h
  split at h
  · exact .inl ⟨by assumption, raised_next.mp h⟩
  · injection h with h; exact .inr ⟨not_le.mp ‹_›, h.symm⟩

theorem execFdivDiv_cases {s t : State} (h : execFdivDiv s = .next t) :
    (s.status.fdgv = false ∧ t = s.raise .notConfigured) ∨
    (s.status.fdgv = true ∧ 2 ^ 31 ≤ s.arg0.toNat ∧ t = s.raise .operandOutOfRange) ∨
    (s.status.fdgv = true ∧ s.arg0.toNat < 2 ^ 31 ∧
      t = { s with res0 := wrap32 (fdDiv s.fdg s.arg0.toNat) }) := by
  unfold execFdivDiv at h
  split at h
  · exact .inl ⟨by assumption, raised_next.mp h⟩
  · rename_i hv
    have hv : s.status.fdgv = true := by simpa using hv
    split at h
    · exact .inr (.inl ⟨hv, by assumption, raised_next.mp h⟩)
    · injection h with h; exact .inr (.inr ⟨hv, not_le.mp ‹_›, h.symm⟩)

theorem execFdivDivmod_cases {s t : State} (h : execFdivDivmod s = .next t) :
    (s.status.fdgv = false ∧ t = s.raise .notConfigured) ∨
    (s.status.fdgv = true ∧ 2 ^ 31 ≤ s.arg0.toNat ∧ t = s.raise .operandOutOfRange) ∨
    (s.status.fdgv = true ∧ s.arg0.toNat < 2 ^ 31 ∧
      t = { s with
        res0 := wrap32 (fdDivMod s.fdg s.arg0.toNat).1, res1 := wrap32 (fdDivMod s.fdg s.arg0.toNat).2 }) := by
  unfold execFdivDivmod at h
  split at h
  · exact .inl ⟨by assumption, raised_next.mp h⟩
  · rename_i hv
    have hv : s.status.fdgv = true := by simpa using hv
    split at h
    · exact .inr (.inl ⟨hv, by assumption, raised_next.mp h⟩)
    · injection h with h; exact .inr (.inr ⟨hv, not_le.mp ‹_›, h.symm⟩)

theorem execFmulSetup_cases {s t : State} (h : execFmulSetup s = .next t) :
    (s.prob.inUnit = .error .invalidProbability ∧ t = s.raise .invalidProbability) ∨
    ∃ f, s.prob.inUnit = .ok f ∧
      t = { s with fmgM := BitVec.ofNat 33 (fmSetup f), status := s.status.setFmgv } := by
  unfold execFmulSetup at h
  split at h
  · rename_i c hc
    obtain ⟨rfl, -⟩ := Prob.inUnit_error hc
    exact .inl ⟨hc, raised_next.mp h⟩
  · injection h with h; exact .inr ⟨_, by assumption, h.symm⟩

theorem execFmulMul_cases {s t : State} (h : execFmulMul s = .next t) :
    (s.status.fmgv = false ∧ t = s.raise .notConfigured) ∨
    (s.status.fmgv = true ∧ t = { s with res0 := wrap32 (fmMul s.fmgM.toNat s.arg0.toNat) }) := by
  unfold execFmulMul at h
  split at h
  · exact .inl ⟨by assumption, raised_next.mp h⟩
  · injection h with h; exact .inr ⟨by simpa using ‹¬ s.status.fmgv = false›, h.symm⟩

/-! ### The Binary Arithmetic Coder -/

theorem execBacEnc_cases {dir : BufSel} {s t : State} (h : execBacEnc dir s = .next t) :
    (s.prob = .notNumber ∧ t = s.raise .invalidProbability) ∨
    ∃ p, s.prob = .num p ∧
      ((∃ c, bacEncode s.params.capBytes (s.buf dir) (s.buf dir.other) s.bac p = .error c ∧
          t = { s.freeOut dir.other with bac := freeBac s.freeCount }.raise c) ∨
        ∃ r, bacEncode s.params.capBytes (s.buf dir) (s.buf dir.other) s.bac p = .ok r ∧
          t = { s.setBuf dir.other r.out with bac := r.bac }) := by
  unfold execBacEnc at h
  split at h
  · rename_i c hc
    obtain ⟨rfl, hp⟩ := Prob.anyNumber_error.mp hc
    exact .inl ⟨hp, raised_next.mp h⟩
  · rename_i p hp
    refine .inr ⟨p, Prob.anyNumber_ok.mp hp, ?_⟩
    split at h
    · injection h with h; exact .inl ⟨_, by assumption, h.symm⟩
    · injection h with h; exact .inr ⟨_, by assumption, h.symm⟩

theorem execBacDec_cases {dir : BufSel} {s t : State} (h : execBacDec dir s = .next t) :
    (s.prob = .notNumber ∧ t = s.raise .invalidProbability) ∨
    ∃ p, s.prob = .num p ∧
      t = { s.setBuf dir.other (bacDecode (s.buf dir) (s.buf dir.other) s.bac p).out with
        bac := (bacDecode (s.buf dir) (s.buf dir.other) s.bac p).bac } := by
  unfold execBacDec at h
  split at h
  · rename_i c hc
    obtain ⟨rfl, hp⟩ := Prob.anyNumber_error.mp hc
    exact .inl ⟨hp, raised_next.mp h⟩
  · injection h with h; exact .inr ⟨_, Prob.anyNumber_ok.mp ‹_›, h.symm⟩

/-! ### rANS -/

theorem execRansCfg_cases {s t : State} (h : execRansCfg s = .next t) :
    (s.prob.inUnit = .error .invalidProbability ∧ t = s.raise .invalidProbability) ∨
    ∃ p, s.prob.inUnit = .ok p ∧
      (((s.arg0.toNat < 2 ∨ 23 < s.arg0.toNat) ∧ t = s.raise .invalidRangeWidth) ∨
        (2 ≤ s.arg0.toNat ∧ s.arg0.toNat ≤ 23 ∧
          t = { s with rans := ransConf p s.arg0.toNat, status := s.status.configured })) := by
  unfold execRansCfg at h
  split at h
  · rename_i c hc
    obtain ⟨rfl, -⟩ := Prob.inUnit_error hc
    exact .inl ⟨hc, raised_next.mp h⟩
  · refine .inr ⟨_, by assumption, ?_⟩
    split at h
    · exact .inl ⟨by assumption, raised_next.mp h⟩
    · rename_i hr
      obtain ⟨h1, h2⟩ := not_or.mp hr
      injection h with h
      exact .inr ⟨not_lt.mp h1, not_lt.mp h2, h.symm⟩

theorem finishRansEnc_cases {s t : State} {o : BufSel} {x : Except Cause RansRun}
    (h : finishRansEnc s o x = .next t) :
    (∃ c, x = .error c ∧ t = { s.freeOut o with
        ransState := Config.freeWord s.freeCount 8, res0 := Config.freeWord s.freeCount 9 }.raise c) ∨
    ∃ r, x = .ok r ∧ t = { s.setBuf o r.out with ransState := r.st, res0 := r.st } := by
  cases x with
  | error c => injection h with h; exact .inl ⟨c, rfl, h.symm⟩
  | ok r => injection h with h; exact .inr ⟨r, rfl, h.symm⟩

theorem execRansEnc_cases {dir : BufSel} {s t : State} (h : execRansEnc dir s = .next t) :
    (s.status.cfgv = false ∧ t = s.raise .notConfigured) ∨
    (s.status.cfgv = true ∧ finishRansEnc s dir.other
      (ransEncode s.params.capBytes s.rans (computeEnc s.rans) (s.buf dir) (s.buf dir.other)) = .next t) := by
  unfold execRansEnc at h
  split at h
  · exact .inl ⟨by assumption, raised_next.mp h⟩
  · exact .inr ⟨by simpa using ‹¬ s.status.cfgv = false›, h⟩

theorem execRansEnct_cases {dir : BufSel} {s t : State} (h : execRansEnct dir s = .next t) :
    (s.status.cfgv = false ∧ t = s.raise .notConfigured) ∨
    (s.status.cfgv = true ∧ s.status.etv = false ∧ t = s.raise .tableNotBuilt) ∨
    (s.status.cfgv = true ∧ s.status.etv = true ∧ finishRansEnc s dir.other
      (ransEncode s.params.capBytes s.rans (tableEnc s.encTable) (s.buf dir) (s.buf dir.other)) = .next t) := by
  unfold execRansEnct at h
  split at h
  · exact .inl ⟨by assumption, raised_next.mp h⟩
  · rename_i hv
    have hv : s.status.cfgv = true := by simpa using hv
    split at h
    · exact .inr (.inl ⟨hv, by assumption, raised_next.mp h⟩)
    · exact .inr (.inr ⟨hv, by simpa using ‹¬ s.status.etv = false›, h⟩)

theorem execRansDec_cases {dir : BufSel} {s t : State} (h : execRansDec dir s = .next t) :
    (s.status.cfgv = false ∧ t = s.raise .notConfigured) ∨
    (s.status.cfgv = true ∧ finishRansDec s dir.other
      (ransDecode s.rans (computeDec s.rans) (s.buf dir) (s.buf dir.other) s.arg0) = .next t) := by
  unfold execRansDec at h
  split at h
  · exact .inl ⟨by assumption, raised_next.mp h⟩
  · exact .inr ⟨by simpa using ‹¬ s.status.cfgv = false›, h⟩

theorem execRansDect_cases {dir : BufSel} {s t : State} (h : execRansDect dir s = .next t) :
    (s.status.cfgv = false ∧ t = s.raise .notConfigured) ∨
    (s.status.cfgv = true ∧ s.status.dtv = false ∧ t = s.raise .tableNotBuilt) ∨
    (s.status.cfgv = true ∧ s.status.dtv = true ∧ s.rans.totalFreq.toNat * 256 ≤ s.arg0.toNat ∧
      t = s.raise .tableIndexOutOfRange) ∨
    (s.status.cfgv = true ∧ s.status.dtv = true ∧ s.arg0.toNat < s.rans.totalFreq.toNat * 256 ∧
      finishRansDec s dir.other
        (ransDecode s.rans (tableDec s.decTable) (s.buf dir) (s.buf dir.other) s.arg0) = .next t) := by
  unfold execRansDect at h
  split at h
  · exact .inl ⟨by assumption, raised_next.mp h⟩
  · rename_i hv
    have hv : s.status.cfgv = true := by simpa using hv
    split at h
    · exact .inr (.inl ⟨hv, by assumption, raised_next.mp h⟩)
    · rename_i hd
      have hd : s.status.dtv = true := by simpa using hd
      split at h
      · exact .inr (.inr (.inl ⟨hv, hd, by assumption, raised_next.mp h⟩))
      · exact .inr (.inr (.inr ⟨hv, hd, not_le.mp ‹_›, h⟩))

theorem execRansBlde_cases {s t : State} (h : execRansBlde s = .next t) :
    (s.status.cfgv = false ∧ t = s.raise .notConfigured) ∨
    (s.status.cfgv = true ∧ s.params.tblRmax < s.rans.r.toNat ∧ t = s.raise .tableTooLarge) ∨
    (s.status.cfgv = true ∧ s.rans.r.toNat ≤ s.params.tblRmax ∧
      t = { s with encTable := { filledFrom := s.rans }, status := s.status.setEtv }) := by
  unfold execRansBlde at h
  split at h
  · exact .inl ⟨by assumption, raised_next.mp h⟩
  · rename_i hv
    have hv : s.status.cfgv = true := by simpa using hv
    split at h
    · exact .inr (.inl ⟨hv, by assumption, raised_next.mp h⟩)
    · injection h with h; exact .inr (.inr ⟨hv, not_lt.mp ‹_›, h.symm⟩)

theorem execRansBldd_cases {s t : State} (h : execRansBldd s = .next t) :
    (s.status.cfgv = false ∧ t = s.raise .notConfigured) ∨
    (s.status.cfgv = true ∧ s.params.tblRmax < s.rans.r.toNat ∧ t = s.raise .tableTooLarge) ∨
    (s.status.cfgv = true ∧ s.rans.r.toNat ≤ s.params.tblRmax ∧
      t = { s with decTable := { filledFrom := s.rans }, status := s.status.setDtv }) := by
  unfold execRansBldd at h
  split at h
  · exact .inl ⟨by assumption, raised_next.mp h⟩
  · rename_i hv
    have hv : s.status.cfgv = true := by simpa using hv
    split at h
    · exact .inr (.inl ⟨hv, by assumption, raised_next.mp h⟩)
    · injection h with h; exact .inr (.inr ⟨hv, not_lt.mp ‹_›, h.symm⟩)

end Sys2Proof.Machine
end

