-- ==== Sys2Proof/Laws/Step.lean ====
section
/-! SUPPORT. What a step can do: one lemma per kind of host action, and the three ways of a command word
(`46_sequencing_and_system.md` R260, `60_exceptions.md` R296). -/

namespace Sys2Proof.Machine

/-- A step takes the next host action from the queue and does it. -/
theorem step_cons {s : State} {a : HostAction} {rest : List HostAction} (h : s.inbox = a :: rest) :
    step s = act a { s with inbox := rest } := by
  unfold step serve
  rw [h]

/-- With nothing queued the state is held. -/
theorem step_nil {s : State} (h : s.inbox = []) : step s = .next s := by
  unfold step serve
  rw [h]

theorem runCommand_refused {s : State} (h : s.status.fault = true) (w : Word) : runCommand w s = .next s := by
  simp [runCommand, State.refusesCommands, h]

theorem runCommand_rejected {s : State} {w : Word} {e : Reject} (h : s.status.fault = false)
    (hd : decode w = .error e) : runCommand w s = .next (s.raise .illegalCommand) := by
  simp [runCommand, State.refusesCommands, h, hd, raised]

theorem runCommand_decoded {s : State} {w : Word} {i : Instr} (h : s.status.fault = false)
    (hd : decode w = .ok i) : runCommand w s = exec i s := by
  simp [runCommand, State.refusesCommands, h, hd]

/-- The word of a pushed command is the next one to run, and it runs on the state without it. -/
theorem step_pushCommand (s : State) (w : Word) : step (s.pushCommand w) = runCommand w s := rfl

theorem step_withFetchWord (s : State) (nbits w : Nat) :
    step (s.withFetchWord nbits w) = runCommand (tableWord nbits w) s := rfl

/-- Every way in which a step answers a next state. -/
theorem step_cases {s t : State} (h : step s = .next t) :
    (s.inbox = [] ∧ t = s) ∨
    ∃ (a : HostAction) (rest : List HostAction), s.inbox = a :: rest ∧ act a { s with inbox := rest } = .next t := by
  rcases hs : s.inbox with _ | ⟨a, rest⟩
  · rw [step_nil hs] at h
    injection h with h
    exact .inl ⟨rfl, h.symm⟩
  · rw [step_cons hs] at h
    exact .inr ⟨a, rest, rfl, h⟩

/-- Every way in which a command word runs. -/
theorem runCommand_cases {s t : State} {w : Word} (h : runCommand w s = .next t) :
    (s.status.fault = true ∧ t = s) ∨
    (s.status.fault = false ∧ (∃ e, decode w = .error e) ∧ t = s.raise .illegalCommand) ∨
    ∃ i, s.status.fault = false ∧ decode w = .ok i ∧ exec i s = .next t := by
  cases hf : s.status.fault
  · right
    cases hd : decode w with
    | error e =>
      rw [runCommand_rejected hf hd] at h
      injection h with h
      exact .inl ⟨rfl, ⟨e, rfl⟩, h.symm⟩
    | ok i =>
      rw [runCommand_decoded hf hd] at h
      exact .inr ⟨i, rfl, rfl, h⟩
  · rw [runCommand_refused hf] at h
    injection h with h
    exact .inl ⟨rfl, h.symm⟩

/-! ### Runs -/

theorem run_next_of {M : Host.Core} {n : Nat} {s u : M.State} (h : M.step s = .next u) :
    M.run (n + 1) s = M.run n u := by
  simp only [Host.Core.run, h]

theorem run_fault_of {M : Host.Core} {n : Nat} {s : M.State} {r : M.Fault} (h : M.step s = .fault r) :
    M.run (n + 1) s = .fault r := by
  simp only [Host.Core.run, h]

theorem run_refused_of {M : Host.Core} {n : Nat} {s : M.State} {r : M.Refusal} (h : M.step s = .refused r) :
    M.run (n + 1) s = .refused r := by
  simp only [Host.Core.run, h]

/-- A run whose first step answers a next state goes on from it. -/
theorem core_run_next {n : Nat} {s u : State} (h : step s = .next u) :
    Host.Core.run Sys2Proof.core (n + 1) s = Host.Core.run Sys2Proof.core n u :=
  run_next_of (M := Sys2Proof.core) h

/-- A run of more than no steps that answers a next state took a first step. -/
theorem core_run_cases {n : Nat} {s t : State} (h : Host.Core.run Sys2Proof.core (n + 1) s = .next t) :
    ∃ u, step s = .next u ∧ Host.Core.run Sys2Proof.core n u = .next t := by
  cases hs : step s with
  | next u => exact ⟨u, rfl, (core_run_next hs).symm.trans h⟩
  | fault r => rw [run_fault_of (M := Sys2Proof.core) hs] at h; cases h
  | refused r => rw [run_refused_of (M := Sys2Proof.core) hs] at h; cases h

end Sys2Proof.Machine
end

