-- ==== Sys2Proof/Laws/HostWrites.lean ====
section
/-! SUPPORT. What the host's directives write (`30_encoding.md` R98): the bits of a packed byte, and a run of byte
writes; and what the host reads of a byte. -/

namespace Sys2Proof.Machine

@[simp] theorem hostReadByte_inside {s : State} {sel : BufSel} {k : Nat} (h : k < s.params.capBytes) :
    hostReadByte s sel k = some ((s.buf sel).byte k) := if_pos h

@[simp] theorem hostReadByte_outside {s : State} {sel : BufSel} {k : Nat} (h : s.params.capBytes ≤ k) :
    hostReadByte s sel k = none := if_neg (by omega)

theorem packed_bits : ∀ b0 b1 b2 b3 b4 b5 b6 b7 : Bool, ∀ q : Fin 8,
    (BitVec.ofNat 8 (b0.toNat + 2 * (b1.toNat + 2 * (b2.toNat + 2 * (b3.toNat + 2 * (b4.toNat + 2 * (b5.toNat +
      2 * (b6.toNat + 2 * (b7.toNat + 2 * 0))))))))).getLsbD q =
      [b0, b1, b2, b3, b4, b5, b6, b7].getD q false := by decide +kernel

/-- Bit `q` of the packed byte `k`. -/
theorem packByte_bit (bits : List Bool) (k : Nat) {q : Nat} (hq : q < 8) :
    (packByte bits k).getLsbD q = bits.getD (8 * k + q) false := by
  unfold packByte
  rw [show List.range 8 = [0, 1, 2, 3, 4, 5, 6, 7] from rfl]
  simp only [List.foldr]
  rw [packed_bits (bits.getD (8 * k + 0) false) (bits.getD (8 * k + 1) false) (bits.getD (8 * k + 2) false)
    (bits.getD (8 * k + 3) false) (bits.getD (8 * k + 4) false) (bits.getD (8 * k + 5) false)
    (bits.getD (8 * k + 6) false) (bits.getD (8 * k + 7) false) ⟨q, hq⟩]
  rcases q with _ | _ | _ | _ | _ | _ | _ | _ | q <;> first | rfl | omega

@[simp] theorem byteWrites_length (sel : BufSel) (k : Nat) (vs : List Byte) :
    (byteWrites sel k vs).length = vs.length := by
  induction vs generalizing k with
  | nil => rfl
  | cons v vs ih => simp [byteWrites, ih]

/-- A run over byte writes inside the capacity: the bytes are there, nothing else changed. -/
theorem byteWrites_run {sel : BufSel} (vs : List Byte) {k : Nat} {s : State} {rest : List HostAction}
    (hb : (s.buf sel).bytes.wf = true) (hk : k + vs.length ≤ s.params.capBytes)
    (hin : s.inbox = byteWrites sel k vs ++ rest) (m : Nat) :
    ∃ o : Buffer, Host.Core.run Sys2Proof.core ((byteWrites sel k vs).length + m) s =
        Host.Core.run Sys2Proof.core m { s.setBuf sel o with inbox := rest } ∧
      o.len = (s.buf sel).len ∧ o.bytes.wf = true ∧
      ∀ a, o.byte a = if k ≤ a then vs.getD (a - k) ((s.buf sel).byte a) else (s.buf sel).byte a := by
  induction vs generalizing k s with
  | nil =>
    refine ⟨s.buf sel, ?_, rfl, hb, fun a => by simp⟩
    simp only [byteWrites, List.length_nil, Nat.zero_add]
    congr 1
    cases sel <;> (cases s; simp [byteWrites] at hin; subst hin; rfl)
  | cons v vs ih =>
    rw [List.length_cons] at hk
    have hset : ∀ b, (State.setBuf s sel b).buf sel = b := by intro b; cases sel <;> rfl
    let u : State := { s.setBuf sel { s.buf sel with bytes := (s.buf sel).bytes.write k v } with
      inbox := byteWrites sel (k + 1) vs ++ rest }
    have hu : u.buf sel = { s.buf sel with bytes := (s.buf sel).bytes.write k v } := by cases sel <;> rfl
    have hs : step s = .next u := by
      rw [step_cons (a := .writeByte sel k v) (rest := byteWrites sel (k + 1) vs ++ rest) hin]
      refine (if_pos (show k < s.params.capBytes by omega)).trans ?_
      cases sel <;> rfl
    have hup : u.params = s.params := by cases sel <;> rfl
    obtain ⟨o, h1, h2, h3, h4⟩ := ih (k := k + 1) (s := u) (by rw [hu]; exact Memory.wf_write hb _ _)
      (by rw [hup]; omega) rfl
    refine ⟨o, ?_, by rw [h2, hu], h3, fun a => ?_⟩
    · rw [byteWrites, List.length_cons,
        show (byteWrites sel (k + 1) vs).length + 1 + m = ((byteWrites sel (k + 1) vs).length + m) + 1 by omega]
      refine (core_run_next hs).trans (h1.trans ?_)
      congr 1
      cases sel <;> rfl
    · have hr : ∀ a, (u.buf sel).byte a = if a = k then v else (s.buf sel).byte a := by
        intro a; rw [hu]; exact Memory.read_write hb k v a
      rw [h4, hr]
      rcases Nat.lt_trichotomy a k with ha | ha | ha
      · rw [if_neg (by omega), if_neg (by omega), if_neg (by omega)]
      · subst ha; rw [if_neg (by omega), if_pos rfl, if_pos (by omega)]; simp
      · rw [if_pos (by omega), if_neg (by omega), if_pos (by omega)]
        obtain ⟨d, rfl⟩ : ∃ d, a = k + 1 + d := ⟨a - (k + 1), by omega⟩
        rw [show k + 1 + d - (k + 1) = d by omega, show k + 1 + d - k = d + 1 by omega, List.getD_cons_succ]

end Sys2Proof.Machine
end

