-- ==== Sys2Proof/Laws/Inv.lean ====
section
/-! SUPPORT. What keeps the invariant of the machine, for the few shapes that the states after a step have. -/

namespace Sys2Proof.Machine

/-- A fault keeps it. -/
theorem State.Inv.raise {s : State} (h : s.Inv) (c : Cause) : (s.raise c).Inv where
  params := h.params
  bytes := h.bytes
  lens := fun hf => absurd hf (Bool.eq_not.mp rfl)
  cause_none := fun hf => absurd hf (Bool.eq_not.mp rfl)
  cause_some := fun _ => ⟨c, rfl⟩
  fdg := h.fdg
  fmg := h.fmg
  rans := h.rans
  enc := h.enc
  dec := h.dec

/-- Registers that it does not speak of may change. -/
theorem State.Inv.congr {s t : State} (h : s.Inv) (h1 : t.params = s.params) (h2 : t.buf0 = s.buf0)
    (h3 : t.buf1 = s.buf1) (h4 : t.status = s.status) (h5 : t.fdg = s.fdg) (h6 : t.fmgM = s.fmgM)
    (h7 : t.rans = s.rans) (h8 : t.encTable = s.encTable) (h9 : t.decTable = s.decTable) : t.Inv := by
  have hb : ∀ sel, t.buf sel = s.buf sel := by
    intro sel
    cases sel
    · exact h2
    · exact h3
  constructor
  · rw [h1]; exact h.params
  · intro sel; rw [hb, h1]; exact h.bytes sel
  · intro hf sel; rw [h4] at hf; rw [hb, h1]; exact h.lens hf sel
  · rw [h4]; exact h.cause_none
  · rw [h4]; exact h.cause_some
  · rw [h4, h5]; exact h.fdg
  · rw [h4, h6]; exact h.fmg
  · rw [h4, h7]; exact h.rans
  · rw [h4, h7, h8, h1]; exact h.enc
  · rw [h4, h7, h9, h1]; exact h.dec

/-- One buffer may be replaced by a buffer in canonical form and inside the capacity. -/
theorem State.Inv.setBuf {s : State} (h : s.Inv) (sel : BufSel) {b : Buffer} (hb : b.Ok s.params.capBytes)
    (hl : s.status.fault = false → b.len.toNat ≤ 8 * s.params.capBytes) : (s.setBuf sel b).Inv := by
  cases sel
  · exact
    { params := h.params
      bytes := fun sel => by cases sel; exacts [⟨hb.wf, hb.within⟩, h.bytes .b1]
      lens := fun hf sel => by cases sel; exacts [hl hf, h.lens hf .b1]
      cause_none := h.cause_none, cause_some := h.cause_some, fdg := h.fdg, fmg := h.fmg, rans := h.rans
      enc := h.enc, dec := h.dec }
  · exact
    { params := h.params
      bytes := fun sel => by cases sel; exacts [h.bytes .b0, ⟨hb.wf, hb.within⟩]
      lens := fun hf sel => by cases sel; exacts [h.lens hf .b0, hl hf]
      cause_none := h.cause_none, cause_some := h.cause_some, fdg := h.fdg, fmg := h.fmg, rans := h.rans
      enc := h.enc, dec := h.dec }

/-- A fault in the middle of an encoder keeps it, whatever the free values are. -/
theorem State.Inv.freed {s t : State} (h : s.Inv) (o : BufSel) (c : Cause)
    (h1 : t.params = s.params) (h2 : t.buf o = freeBuffer s.params.capBytes s.freeCount)
    (h3 : t.buf o.other = s.buf o.other) (h4 : t.status = (s.raise c).status) (h5 : t.fdg = s.fdg)
    (h6 : t.fmgM = s.fmgM) (h7 : t.rans = s.rans) (h8 : t.encTable = s.encTable) (h9 : t.decTable = s.decTable) :
    t.Inv := by
  have := (h.raise c).setBuf o (freeBuffer_ok s.params.capBytes s.freeCount) (fun hf => absurd hf (Bool.eq_not.mp rfl))
  cases o
  · exact this.congr h1 h2 h3 h4 h5 h6 h7 h8 h9
  · exact this.congr h1 h3 h2 h4 h5 h6 h7 h8 h9

end Sys2Proof.Machine
end

