-- ==== Sys2Proof/Laws/PerInstr.lean ====
section
/-! SUPPORT. The family `Row`: the word of every command selects the command's own row of `30_encoding.md` R93,
`w & mask = match`, and has the row's operation code in its bits 7:0 (R90). -/

namespace Sys2Proof.Laws.Row

/-- The encoded word of a command selects its row of R93, and its `op` field is that of the row's match. -/
def Statement (i : Instr) : Prop :=
  encode i &&& i.rowMask = i.rowMatch ∧ fieldOp (encode i) = fieldOp i.rowMatch

theorem bbNew (sel : BufSel) : Statement (.bbNew sel) := by cases sel <;> exact ⟨by decide, by decide⟩

theorem bbRd (sel : BufSel) : Statement (.bbRd sel) := by cases sel <;> exact ⟨by decide, by decide⟩

theorem bbWr (sel : BufSel) (b : Bool) : Statement (.bbWr sel b) := by cases sel <;> cases b <;> exact ⟨by decide, by decide⟩

theorem bbLen (sel : BufSel) : Statement (.bbLen sel) := by cases sel <;> exact ⟨by decide, by decide⟩

theorem bbByte (sel : BufSel) : Statement (.bbByte sel) := by cases sel <;> exact ⟨by decide, by decide⟩

theorem bsNew (sel : BufSel) : Statement (.bsNew sel) := by cases sel <;> exact ⟨by decide, by decide⟩

theorem bsApp (sel : BufSel) (b : Bool) : Statement (.bsApp sel b) := by cases sel <;> cases b <;> exact ⟨by decide, by decide⟩

theorem fdivSetup : Statement .fdivSetup := ⟨by decide, by decide⟩

theorem fdivDiv : Statement .fdivDiv := ⟨by decide, by decide⟩

theorem fdivDivmod : Statement .fdivDivmod := ⟨by decide, by decide⟩

theorem fmulSetup : Statement .fmulSetup := ⟨by decide, by decide⟩

theorem fmulMul : Statement .fmulMul := ⟨by decide, by decide⟩

theorem bacEnc (dir : BufSel) : Statement (.bacEnc dir) := by cases dir <;> exact ⟨by decide, by decide⟩

theorem bacDec (dir : BufSel) : Statement (.bacDec dir) := by cases dir <;> exact ⟨by decide, by decide⟩

theorem ransCfg : Statement .ransCfg := ⟨by decide, by decide⟩

theorem ransEnc (dir : BufSel) : Statement (.ransEnc dir) := by cases dir <;> exact ⟨by decide, by decide⟩

theorem ransEnct (dir : BufSel) : Statement (.ransEnct dir) := by cases dir <;> exact ⟨by decide, by decide⟩

theorem ransDec (dir : BufSel) : Statement (.ransDec dir) := by cases dir <;> exact ⟨by decide, by decide⟩

theorem ransDect (dir : BufSel) : Statement (.ransDect dir) := by cases dir <;> exact ⟨by decide, by decide⟩

theorem ransBlde : Statement .ransBlde := ⟨by decide, by decide⟩

theorem ransBldd : Statement .ransBldd := ⟨by decide, by decide⟩

end Sys2Proof.Laws.Row
end

