-- ==== Sys2Proof/Laws/RansDec.lean ====
section
/-! SUPPORT. The rANS decoders: what `Unflush` and the symbol loop do to the state, the read position and the
out-buffer, whatever the transition (`44_rans.md` R205, R207). -/

namespace Sys2Proof.Machine

/-- `Unflush` leaves the out-buffer alone. -/
@[simp] theorem unflush_out (c : RansConf) (inp : Buffer) (n : Nat) (r : RansDecRun) :
    (unflush c inp n r).out = r.out := by
  induction n generalizing r with
  | zero => rfl
  | succ n ih =>
    unfold unflush
    split
    · rw [ih]
    · rfl

/-- What every byte taken in keeps, `Unflush` keeps. -/
theorem unflush_induct {P : RansDecRun → Prop} {c : RansConf} {inp : Buffer}
    (hstep : ∀ r, P r → r.st.toNat < c.totalFreq.toNat → r.readPos.toNat < inp.byteLen →
      P { r with st := (r.st <<< 8) ||| wrap32 (inp.byte r.readPos.toNat).toNat, readPos := r.readPos + 1 })
    (n : Nat) {r : RansDecRun} (h : P r) : P (unflush c inp n r) := by
  induction n generalizing r with
  | zero => exact h
  | succ n ih =>
    unfold unflush
    split
    · rename_i hc
      exact ih (hstep r h hc.1 hc.2)
    · exact h

theorem byteLen_lt (b : Buffer) : b.byteLen < 536870913 := by
  have := b.len.isLt
  unfold Buffer.byteLen
  omega

/-- `Unflush` never reads past the last byte. -/
theorem unflush_readPos {c : RansConf} {inp : Buffer} (n : Nat) {r : RansDecRun}
    (h : r.readPos.toNat ≤ inp.byteLen) : (unflush c inp n r).readPos.toNat ≤ inp.byteLen := by
  refine unflush_induct (P := fun q => q.readPos.toNat ≤ inp.byteLen) (fun q _ _ hq => ?_) n h
  have := byteLen_lt inp
  show (q.readPos + 1).toNat ≤ _
  rw [BitVec.toNat_add]
  simp only [BitVec.ofNat_eq_ofNat, BitVec.toNat_ofNat]
  omega

/-- Taking in one byte: eight more bits below the state. -/
theorem shiftIn_toNat {st : Word} {v : Byte} (h : st.toNat < 16777216) :
    ((st <<< 8) ||| wrap32 v.toNat).toNat = st.toNat * 256 + v.toNat := by
  have hv : v.toNat < 2 ^ 8 := v.isLt
  rw [BitVec.toNat_or, BitVec.toNat_shiftLeft, Nat.shiftLeft_eq, wrap32, BitVec.toNat_ofNat,
    Nat.mod_eq_of_lt (by omega), Nat.mod_eq_of_lt (by omega), Nat.mul_comm,
    ← Nat.two_pow_add_eq_or_of_lt hv]

/-- From a state below `total · 256`, `Unflush` stays there. -/
theorem unflush_state_lt {c : RansConf} {inp : Buffer} (_hc : c.totalFreq.toNat ≤ 16777216) (n : Nat)
    {r : RansDecRun} (h : r.st.toNat < c.totalFreq.toNat * 256) :
    (unflush c inp n r).st.toNat < c.totalFreq.toNat * 256 := by
  refine unflush_induct (P := fun q => q.st.toNat < c.totalFreq.toNat * 256) (fun q _ hq _ => ?_) n h
  have hv := (inp.byte q.readPos.toNat).isLt
  rw [shiftIn_toNat (by omega)]
  omega

/-! ### The symbol loop -/

/-- The state and the read position after one symbol, which the out-buffer does not influence. -/
theorem ransDecSymbol_out (c : RansConf) (tr : Word → Word × Bool) (inp : Buffer) (j : Nat) (r : RansDecRun) :
    (ransDecSymbol c tr inp j r).out =
      r.out.bitWrite j (tr (unflush c inp (inp.byteLen - r.readPos.toNat) r).st).2 := by
  unfold ransDecSymbol
  simp

/-- The out-buffer keeps its length and its canonical form, takes the symbols by OR, and changes no bit from
index `n` on. -/
theorem ransDecSymbols_out (c : RansConf) (tr : Word → Word × Bool) (inp : Buffer) (n : Nat) {r : RansDecRun}
    (h : r.out.bytes.wf = true) :
    (ransDecSymbols c tr inp n r).out.bytes.wf = true ∧ (ransDecSymbols c tr inp n r).out.len = r.out.len ∧
    (∀ j, r.out.bitRead j = true → (ransDecSymbols c tr inp n r).out.bitRead j = true) ∧
    ∀ j, n ≤ j → (ransDecSymbols c tr inp n r).out.bitRead j = r.out.bitRead j := by
  induction n with
  | zero => exact ⟨h, rfl, fun _ hj => hj, fun _ _ => rfl⟩
  | succ n ih =>
    obtain ⟨h1, h2, h3, h4⟩ := ih
    rw [ransDecSymbols, ransDecSymbol_out]
    refine ⟨Memory.wf_write h1 _ _, h2, fun j hj => ?_, fun j hj => ?_⟩
    · rw [Buffer.bitRead_bitWrite h1, h3 j hj]; rfl
    · rw [Buffer.bitRead_bitWrite h1, h4 j (by omega)]
      simp [show j ≠ n by omega]

theorem ransDecSymbols_readPos (c : RansConf) (tr : Word → Word × Bool) (inp : Buffer) (n : Nat) {r : RansDecRun}
    (h : r.readPos.toNat ≤ inp.byteLen) : (ransDecSymbols c tr inp n r).readPos.toNat ≤ inp.byteLen := by
  induction n with
  | zero => exact h
  | succ n ih => exact unflush_readPos _ ih

theorem ransDecSymbols_ok (c : RansConf) (tr : Word → Word × Bool) (inp : Buffer) {cap : Nat} (n : Nat)
    {r : RansDecRun} (h : r.out.Ok cap) (hn : n ≤ 8 * cap) : (ransDecSymbols c tr inp n r).out.Ok cap := by
  induction n with
  | zero => exact h
  | succ n ih =>
    rw [ransDecSymbols, ransDecSymbol_out]
    exact (ih (by omega)).bitWrite (by omega) _

/-- The bytes past the written bits keep their contents. -/
theorem ransDecSymbols_byte (c : RansConf) (tr : Word → Word × Bool) (inp : Buffer) (n : Nat) {r : RansDecRun}
    (h : r.out.bytes.wf = true) {k : Nat} (hk : n ≤ 8 * k) :
    (ransDecSymbols c tr inp n r).out.byte k = r.out.byte k :=
  Buffer.byte_eq_of_bitRead fun q _ => (ransDecSymbols_out c tr inp n h).2.2.2 _ (by omega)

/-- A property of the state that taking in bytes and the transition keep holds at the end of the loop. -/
theorem ransDecSymbols_state {P : Word → Prop} {c : RansConf} {tr : Word → Word × Bool} {inp : Buffer}
    (hu : ∀ r : RansDecRun, P r.st → P (unflush c inp (inp.byteLen - r.readPos.toNat) r).st)
    (htr : ∀ x, P x → P (tr x).1) (n : Nat) {r : RansDecRun} (h : P r.st) :
    P (ransDecSymbols c tr inp n r).st := by
  induction n with
  | zero => exact h
  | succ n ih => exact htr _ (hu _ ih)

end Sys2Proof.Machine
end

