-- ==== Sys2Proof/Laws/RansEnc.lean ====
section
/-! SUPPORT. The rANS encoders as functions of the configuration, the transition and the in-buffer: which bytes
each part appends and which state it leaves (`44_rans.md` R204, R206), and when they cannot fault. -/

namespace Sys2Proof.Machine

/-! ### Runs of byte appends -/

/-- `o` is `b` after appending the bytes `vs`. -/
structure Buffer.BytesAppended (b o : Buffer) (vs : List Byte) : Prop where
  wf : o.bytes.wf = true
  len : o.len.toNat = b.len.toNat + 8 * vs.length
  byte : ∀ k, o.byte k =
    if b.len.toNat / 8 ≤ k then vs.getD (k - b.len.toNat / 8) (b.byte k) else b.byte k

theorem Buffer.BytesAppended.refl {b : Buffer} (h : b.bytes.wf = true) : b.BytesAppended b [] :=
  ⟨h, rfl, fun k => by simp⟩

theorem Buffer.BytesAppended.single {b o : Buffer} {cap : Nat} {v : Byte} (hc : cap ≤ 536870911)
    (hb : b.bytes.wf = true) (h : b.byteAppend cap v = .ok o) : b.BytesAppended o [v] := by
  refine ⟨?_, Buffer.byteAppend_len hc h, fun k => ?_⟩
  · obtain ⟨-, rfl⟩ := Buffer.byteAppend_ok h
    exact Memory.wf_write hb _ _
  · rw [Buffer.byte_byteAppend hb h]
    rcases Nat.lt_trichotomy k (b.len.toNat / 8) with hk | hk | hk
    · rw [if_neg (by omega), if_neg (by omega)]
    · subst hk; simp
    · rw [if_neg (by omega), if_pos (by omega), List.getD_eq_default _ _ (by simp; omega)]

theorem Buffer.BytesAppended.trans {a b c : Buffer} {xs ys : List Byte} (h1 : a.BytesAppended b xs)
    (h2 : b.BytesAppended c ys) : a.BytesAppended c (xs ++ ys) := by
  refine ⟨h2.wf, by rw [h2.len, h1.len, List.length_append]; omega, fun k => ?_⟩
  have hl : b.len.toNat / 8 = a.len.toNat / 8 + xs.length := by rw [h1.len]; omega
  rw [h2.byte, h1.byte, hl]
  by_cases hk : a.len.toNat / 8 ≤ k
  · rw [if_pos hk]
    by_cases hk2 : a.len.toNat / 8 + xs.length ≤ k
    · rw [if_pos hk2, if_pos hk, List.getD_append_right _ _ _ _ (by omega), Nat.sub_sub,
        List.getD_eq_default xs _ (by omega)]
    · rw [if_neg hk2, if_pos hk, List.getD_append _ _ _ _ (by omega)]
  · rw [if_neg hk, if_neg (by omega), if_neg hk]

/-- The same bytes appended to the same buffer leave the same buffer. -/
theorem Buffer.BytesAppended.unique {b o o' : Buffer} {vs : List Byte} (h : b.BytesAppended o vs)
    (h' : b.BytesAppended o' vs) : o = o' :=
  Buffer.ext_of_byte h.wf h'.wf (BitVec.eq_of_toNat_eq (h.len.trans h'.len.symm))
    fun k => (h.byte k).trans (h'.byte k).symm

theorem Buffer.byteAppend_of_room {b : Buffer} {cap : Nat} {v : Byte} (h : b.len.toNat / 8 < cap) :
    b.byteAppend cap v = .ok { bytes := b.bytes.write (b.len.toNat / 8) v, len := b.len + 8 } := by
  unfold Buffer.byteAppend
  rw [if_neg (by omega)]

/-! ### `Flush` -/

/-- The bytes that `Flush` appends. -/
def flushBytes (c : RansConf) (sym : Bool) : Nat → Word → List Byte
  | 0, _ => []
  | fuel + 1, st =>
    if st.toNat < c.thr sym then []
    else BitVec.ofNat 8 (st.toNat &&& 0xFF) :: flushBytes c sym fuel (st >>> 8)

/-- The state after `Flush`. -/
def flushState (c : RansConf) (sym : Bool) : Nat → Word → Word
  | 0, st => st
  | fuel + 1, st => if st.toNat < c.thr sym then st else flushState c sym fuel (st >>> 8)

theorem flush_ok {cap : Nat} (hc : cap ≤ 536870911) {c : RansConf} {sym : Bool} (fuel : Nat) {r r' : RansRun}
    (hb : r.out.bytes.wf = true) (h : flush cap c sym fuel r = .ok r') :
    r'.st = flushState c sym fuel r.st ∧ r.out.BytesAppended r'.out (flushBytes c sym fuel r.st) := by
  induction fuel generalizing r with
  | zero => injection h with h; subst h; exact ⟨rfl, .refl hb⟩
  | succ fuel ih =>
    unfold flush at h
    unfold flushState flushBytes
    split at h
    · rename_i hd
      injection h with h; subst h
      rw [if_pos hd, if_pos hd]
      exact ⟨rfl, .refl hb⟩
    · rename_i hd
      rw [if_neg hd, if_neg hd]
      split at h
      · cases h
      · rename_i o ho
        have h1 := Buffer.BytesAppended.single hc hb ho
        obtain ⟨h2, h3⟩ := ih (r := { out := o, st := r.st >>> 8 }) h1.wf h
        exact ⟨h2, h1.trans h3⟩

theorem flush_error {cap fuel : Nat} {c : RansConf} {sym : Bool} {r : RansRun} {e : Cause}
    (h : flush cap c sym fuel r = .error e) : e = .bufferOverflow := by
  induction fuel generalizing r with
  | zero => cases h
  | succ fuel ih =>
    unfold flush at h
    split at h
    · cases h
    · split at h
      · injection h with h; subst h; exact (Buffer.byteAppend_error ‹_›).1
      · exact ih h

theorem flush_of_room {cap : Nat} (hc : cap ≤ 536870911) {c : RansConf} {sym : Bool} (fuel : Nat) {r : RansRun}
    (h : r.out.len.toNat / 8 + (flushBytes c sym fuel r.st).length ≤ cap) :
    ∃ r', flush cap c sym fuel r = .ok r' := by
  induction fuel generalizing r with
  | zero => exact ⟨r, rfl⟩
  | succ fuel ih =>
    unfold flush
    unfold flushBytes at h
    by_cases hd : r.st.toNat < c.thr sym
    · rw [if_pos hd]; exact ⟨_, rfl⟩
    · rw [if_neg hd]
      rw [if_neg hd, List.length_cons] at h
      have hb := Buffer.byteAppend_of_room (cap := cap) (v := BitVec.ofNat 8 (r.st.toNat &&& 0xFF)) (b := r.out)
        (by omega)
      rw [hb]
      exact ih (by simp only [Buffer.byteAppend_len hc hb]; omega)

theorem toNat_shiftRight8 (w : Word) : (w >>> 8).toNat = w.toNat / 256 := by
  rw [BitVec.toNat_ushiftRight, Nat.shiftRight_eq_div_pow]

/-- Where a threshold is `freq · 256` and the state starts below `total · 256`, the flushed state lies in
`[freq, freq · 256)`, and at most three bytes were needed. -/
theorem flushState_range {c : RansConf} {sym : Bool} {f total : Nat} (ht : c.thr sym = f * 256) (hf : 1 ≤ f)
    (hft : f ≤ total) (htt : total * 256 ≤ 2147483648) {fuel : Nat} (hfuel : 4 ≤ fuel) {st : Word}
    (h1 : total ≤ st.toNat) (h2 : st.toNat < total * 256) :
    f ≤ (flushState c sym fuel st).toNat ∧ (flushState c sym fuel st).toNat < f * 256 ∧
    (flushBytes c sym fuel st).length ≤ 3 := by
  obtain ⟨n, rfl⟩ : ∃ n, fuel = n + 4 := ⟨fuel - 4, by omega⟩
  have e1 := toNat_shiftRight8 st
  have e2 := toNat_shiftRight8 (st >>> 8)
  have e3 := toNat_shiftRight8 (st >>> 8 >>> 8)
  simp only [flushState, flushBytes, ht]
  split
  · simp only [List.length_nil]; omega
  · split
    · simp only [List.length_nil, List.length_cons]; omega
    · split
      · simp only [List.length_nil, List.length_cons]; omega
      · split
        · simp only [List.length_nil, List.length_cons]; omega
        · omega

/-! ### The symbol loop -/

/-- The state after coding `sym`. -/
def symbolState (c : RansConf) (tr : Word → Bool → Word) (fuel : Nat) (sym : Bool) (st : Word) : Word :=
  tr (flushState c sym fuel st) sym

/-- The state after the symbols of the indices below `n`, last one first. -/
def symbolsState (c : RansConf) (tr : Word → Bool → Word) (fuel : Nat) (inp : Buffer) : Nat → Word → Word
  | 0, st => st
  | n + 1, st => symbolsState c tr fuel inp n (symbolState c tr fuel (inp.bitRead n) st)

/-- The bytes they append. -/
def symbolsBytes (c : RansConf) (tr : Word → Bool → Word) (fuel : Nat) (inp : Buffer) : Nat → Word → List Byte
  | 0, _ => []
  | n + 1, st =>
    flushBytes c (inp.bitRead n) fuel st ++
      symbolsBytes c tr fuel inp n (symbolState c tr fuel (inp.bitRead n) st)

theorem ransEncSymbol_ok {cap : Nat} (hc : cap ≤ 536870911) {c : RansConf} {tr : Word → Bool → Word} {sym : Bool}
    {r r' : RansRun} (hb : r.out.bytes.wf = true) (h : ransEncSymbol cap c tr sym r = .ok r') :
    r'.st = symbolState c tr (flushFuel cap) sym r.st ∧
    r.out.BytesAppended r'.out (flushBytes c sym (flushFuel cap) r.st) := by
  unfold ransEncSymbol at h
  split at h
  · cases h
  · injection h with h; subst h
    obtain ⟨h1, h2⟩ := flush_ok hc _ hb ‹_›
    exact ⟨by simp only [h1, symbolState], h2⟩

theorem ransEncSymbols_ok {cap : Nat} (hc : cap ≤ 536870911) {c : RansConf} {tr : Word → Bool → Word}
    {inp : Buffer} (n : Nat) {r r' : RansRun} (hb : r.out.bytes.wf = true)
    (h : ransEncSymbols cap c tr inp n r = .ok r') :
    r'.st = symbolsState c tr (flushFuel cap) inp n r.st ∧
    r.out.BytesAppended r'.out (symbolsBytes c tr (flushFuel cap) inp n r.st) := by
  induction n generalizing r with
  | zero => injection h with h; subst h; exact ⟨rfl, .refl hb⟩
  | succ n ih =>
    unfold ransEncSymbols at h
    split at h
    · cases h
    · rename_i q hq
      obtain ⟨h1, h2⟩ := ransEncSymbol_ok hc hb hq
      obtain ⟨h3, h4⟩ := ih h2.wf h
      rw [h1] at h3 h4
      exact ⟨h3, h2.trans h4⟩

theorem ransEncSymbols_error {cap : Nat} {c : RansConf} {tr : Word → Bool → Word} {inp : Buffer} (n : Nat)
    {r : RansRun} {e : Cause} (h : ransEncSymbols cap c tr inp n r = .error e) : e = .bufferOverflow := by
  induction n generalizing r with
  | zero => cases h
  | succ n ih =>
    unfold ransEncSymbols at h
    split at h
    · rename_i e' he
      injection h with h; subst h
      unfold ransEncSymbol at he
      split at he
      · injection he with he; subst he; exact flush_error ‹_›
      · cases he
    · exact ih h

theorem ransEncode_error {cap : Nat} {c : RansConf} {tr : Word → Bool → Word} {inp out : Buffer} {e : Cause}
    (h : ransEncode cap c tr inp out = .error e) : e = .bufferOverflow := by
  unfold ransEncode at h
  split at h
  · injection h with h; subst h; exact ransEncSymbols_error _ ‹_›
  · cases h

theorem flush_len_le {cap : Nat} (hc : cap ≤ 536870911) {c : RansConf} {sym : Bool} (fuel : Nat) {r r' : RansRun}
    (hb : r.out.len.toNat ≤ 8 * cap) (h8 : r.out.len.toNat % 8 = 0) (h : flush cap c sym fuel r = .ok r') :
    r'.out.len.toNat ≤ 8 * cap ∧ r'.out.len.toNat % 8 = 0 := by
  induction fuel generalizing r with
  | zero => injection h with h; subst h; exact ⟨hb, h8⟩
  | succ fuel ih =>
    unfold flush at h
    split at h
    · injection h with h; subst h; exact ⟨hb, h8⟩
    · split at h
      · cases h
      · rename_i o ho
        have h1 := (Buffer.byteAppend_ok ho).1
        have h2 := Buffer.byteAppend_len hc ho
        exact ih (r := { out := o, st := r.st >>> 8 }) (by show o.len.toNat ≤ _; omega)
          (by show o.len.toNat % 8 = 0; omega) h

theorem ransEncSymbols_len_le {cap : Nat} (hc : cap ≤ 536870911) {c : RansConf} {tr : Word → Bool → Word}
    {inp : Buffer} (n : Nat) {r r' : RansRun} (hb : r.out.len.toNat ≤ 8 * cap) (h8 : r.out.len.toNat % 8 = 0)
    (h : ransEncSymbols cap c tr inp n r = .ok r') : r'.out.len.toNat ≤ 8 * cap ∧ r'.out.len.toNat % 8 = 0 := by
  induction n generalizing r with
  | zero => injection h with h; subst h; exact ⟨hb, h8⟩
  | succ n ih =>
    unfold ransEncSymbols at h
    split at h
    · cases h
    · rename_i q hq
      unfold ransEncSymbol at hq
      split at hq
      · cases hq
      · rename_i f hf
        injection hq with hq; subst hq
        obtain ⟨h1, h2⟩ := flush_len_le hc _ hb h8 hf
        exact ih (r := { f with st := tr f.st (inp.bitRead n) }) h1 h2 h

theorem ransEncode_len_le {cap : Nat} (hc : cap ≤ 536870911) {c : RansConf} {tr : Word → Bool → Word}
    {inp out : Buffer} {r : RansRun} (h : ransEncode cap c tr inp out = .ok r) : r.out.len.toNat ≤ 8 * cap := by
  unfold ransEncode at h
  split at h
  · cases h
  · rename_i q hq
    injection h with h; subst h
    rw [Buffer.reverseBytes_len]
    exact (ransEncSymbols_len_le hc _ (r := { out := { out with len := 0 }, st := wrap32 c.totalFreq.toNat })
      (Nat.zero_le _) rfl hq).1

/-- Everything a rANS encoder does where it completes: the bytes of the symbols, last symbol first, replace the
out-buffer's contents in reverse order. -/
theorem ransEncode_ok {cap : Nat} (hc : cap ≤ 536870911) {c : RansConf} {tr : Word → Bool → Word}
    {inp out : Buffer} {r : RansRun} (hb : out.bytes.wf = true) (h : ransEncode cap c tr inp out = .ok r) :
    r.st = symbolsState c tr (flushFuel cap) inp inp.len.toNat (wrap32 c.totalFreq.toNat) ∧
    r.out.bytes.wf = true ∧
    r.out.len.toNat =
      8 * (symbolsBytes c tr (flushFuel cap) inp inp.len.toNat (wrap32 c.totalFreq.toNat)).length ∧
    ∀ k, r.out.byte k =
      (symbolsBytes c tr (flushFuel cap) inp inp.len.toNat (wrap32 c.totalFreq.toNat)).reverse.getD k (out.byte k) := by
  unfold ransEncode at h
  split at h
  · cases h
  · rename_i q hq
    injection h with h; subst h
    obtain ⟨h1, h2⟩ := ransEncSymbols_ok hc _
      (r := { out := { out with len := 0 }, st := wrap32 c.totalFreq.toNat }) hb hq
    simp only at h1 h2
    generalize symbolsBytes c tr (flushFuel cap) inp inp.len.toNat (wrap32 c.totalFreq.toNat) = vs at *
    have hl : q.out.len.toNat = 8 * vs.length := by
      rw [h2.len]; show (0 : Word).toNat + _ = _; simp
    have hq8 : q.out.len.toNat / 8 = vs.length := by omega
    refine ⟨h1, ?_, by rw [Buffer.reverseBytes_len]; exact hl, fun k => ?_⟩
    · exact Buffer.reverseBytes_wf h2.wf _
    · rw [hq8]
      have hb' := fun k => h2.byte k
      simp only [show (0 : Word).toNat / 8 = 0 from rfl, Nat.zero_le, if_true, Nat.sub_zero] at hb'
      rw [Buffer.byte_reverseBytes h2.wf]
      by_cases hk : k < vs.length
      · rw [if_pos hk, hb', List.getD_eq_getElem _ _ (by omega), List.getD_eq_getElem _ _ (by simpa using hk),
          List.getElem_reverse]
      · rw [if_neg hk, hb', List.getD_eq_default _ _ (by omega), List.getD_eq_default _ _ (by simp; omega)]
        rfl

theorem ransEncode_out_ok {cap : Nat} (hc : cap ≤ 536870911) {c : RansConf} {tr : Word → Bool → Word}
    {inp out : Buffer} {r : RansRun} (hb : out.Ok cap) (h : ransEncode cap c tr inp out = .ok r) :
    r.out.Ok cap := by
  obtain ⟨-, h1, h2, h3⟩ := ransEncode_ok hc hb.wf h
  refine ⟨h1, (Memory.within_iff h1 cap).mpr fun k hk => ?_⟩
  have hl := ransEncode_len_le hc h
  have := h3 k
  rw [List.getD_eq_default _ _ (by rw [List.length_reverse]; omega)] at this
  exact this.trans ((Memory.within_iff hb.wf cap).mp hb.within k hk)

end Sys2Proof.Machine
end

