-- ==== Sys2Proof/Laws/RansState.lean ====
section
/-! SUPPORT. The numbers of a legal rANS configuration, the decode transition on it, and `Unflush` as the inverse
of `Flush` (`44_rans.md` R200, R203 to R205). -/

namespace Sys2Proof.Machine

/-- The frequencies of a legal configuration, each below the total, which is at most `2^23`. -/
theorem RansConf.Legal.bounds {c : RansConf} (h : c.Legal) (sym : Bool) :
    1 ≤ c.freq sym ∧ c.freq sym + 1 ≤ c.totalFreq.toNat ∧ c.totalFreq.toNat ≤ 8388608 ∧
    c.cum sym + c.freq sym ≤ c.totalFreq.toNat := by
  have ht : c.totalFreq.toNat ≤ 2 ^ 23 := by
    rw [h.totalFreq_eq]; exact Nat.pow_le_pow_right (by decide) h.r_range.2
  have h0 := h.freq_pos false
  have h1 := h.freq_pos true
  have hs := h.freq_sum
  have hc0 := h.cum_zero
  have hc1 := h.cum_one
  cases sym <;> refine ⟨?_, ?_, ?_, ?_⟩ <;> omega

/-- The mask of R203 is a remainder, and its shift a quotient. -/
theorem RansConf.Legal.and_totalFreq {c : RansConf} (h : c.Legal) (x : Nat) :
    (x &&& (c.totalFreq.toNat - 1)) = x % c.totalFreq.toNat := by
  rw [h.totalFreq_eq, Nat.and_two_pow_sub_one_eq_mod]

theorem RansConf.Legal.shift_r {c : RansConf} (h : c.Legal) (x : Nat) :
    x >>> c.r.toNat = x / c.totalFreq.toNat := by
  rw [h.totalFreq_eq, Nat.shiftRight_eq_div_pow]

/-- The decode transition never leads to a larger state. -/
theorem decNext_le {c : RansConf} (h : c.Legal) (x : Nat) : decNext c x ≤ x := by
  unfold decNext
  obtain ⟨-, f2, -, -⟩ := h.bounds (decSym c x)
  rw [h.and_totalFreq, h.shift_r]
  have h1 := Nat.div_add_mod x c.totalFreq.toNat
  have h2 : c.freq (decSym c x) * (x / c.totalFreq.toNat) ≤ c.totalFreq.toNat * (x / c.totalFreq.toNat) :=
    Nat.mul_le_mul_right _ (by omega)
  omega

/-- In range, `Unflush` takes nothing in. -/
theorem unflush_of_le {c : RansConf} {inp : Buffer} (n : Nat) {r : RansDecRun}
    (h : c.totalFreq.toNat ≤ r.st.toNat) : unflush c inp n r = r := by
  cases n with
  | zero => rfl
  | succ n => unfold unflush; rw [if_neg (by omega)]

/-- Reading back the bytes of a `Flush` in reverse order restores the state before it. -/
theorem unflush_flushed {c : RansConf} {inp : Buffer} {sym : Bool} (fuel : Nat) {st : Word} {out : Buffer}
    {p m : Nat} {pw : Word} (ht : c.totalFreq.toNat ≤ 8388608) (hst : st.toNat < c.totalFreq.toNat * 256)
    (hp : pw.toNat = p) (hlen : p + (flushBytes c sym fuel st).length ≤ inp.byteLen)
    (hby : ∀ i, i < (flushBytes c sym fuel st).length →
      inp.byte (p + i) = (flushBytes c sym fuel st).reverse.getD i 0) :
    unflush c inp (m + (flushBytes c sym fuel st).length)
        { out := out, st := flushState c sym fuel st, readPos := pw } =
      unflush c inp m { out := out, st := st, readPos := wrap32 (p + (flushBytes c sym fuel st).length) } := by
  induction fuel generalizing st m with
  | zero => subst hp; simp [flushBytes, flushState]
  | succ fuel ih =>
    rw [flushBytes] at hlen hby
    rw [flushBytes, flushState]
    by_cases hd : st.toNat < c.thr sym
    · simp only [if_pos hd]; subst hp; simp
    · simp only [if_neg hd] at hlen hby ⊢
      have hs := toNat_shiftRight8 st
      generalize hfb : flushBytes c sym fuel (st >>> 8) = fb at *
      rw [List.length_cons] at hlen hby ⊢
      have h1 := ih (st := st >>> 8) (m := m + 1) (by omega) (by rw [hfb]; omega) (by
        rw [hfb]
        intro i hi
        rw [hby i (by omega), List.reverse_cons,
          List.getD_append _ _ _ _ (by rw [List.length_reverse]; exact hi)])
      rw [hfb] at h1
      rw [show m + (fb.length + 1) = m + 1 + fb.length by omega, h1]
      have hl := byteLen_lt inp
      have hw : (wrap32 (p + fb.length)).toNat = p + fb.length := wrap32_toNat_of_lt (by omega)
      rw [unflush, if_pos (by constructor <;> simp only [hw] <;> omega)]
      congr 1
      have hb := hby fb.length (by omega)
      rw [List.reverse_cons, List.getD_append_right _ _ _ _ (by rw [List.length_reverse]), List.length_reverse,
        Nat.sub_self] at hb
      have e1 : (st >>> 8) <<< 8 ||| wrap32 (inp.byte (wrap32 (p + fb.length)).toNat).toNat = st := by
        rw [hw, hb]
        apply BitVec.eq_of_toNat_eq
        rw [shiftIn_toNat (by omega), hs]
        show _ + (BitVec.ofNat 8 (st.toNat &&& 0xFF)).toNat = _
        rw [BitVec.toNat_ofNat, show st.toNat &&& 0xFF = st.toNat % 256 from Nat.and_two_pow_sub_one_eq_mod _ 8]
        omega
      have e2 : wrap32 (p + fb.length) + 1 = wrap32 (p + (fb.length + 1)) := by
        apply BitVec.eq_of_toNat_eq
        rw [BitVec.toNat_add, hw, wrap32_toNat_of_lt (by omega)]
        simp only [BitVec.ofNat_eq_ofNat, BitVec.toNat_ofNat]
        omega
      simp only [e1, e2]

end Sys2Proof.Machine
end

