-- ==== Sys2Proof/Tests/Slice0.lean ====
section
/-! SUPPORT. Tests: the well-formedness smoke test, the command words of every row, single commands on the spec's
own vectors (`95_test_vectors.md` and the examples of the rules, named in each comment), and for every statement
with hypotheses a state and operands that meet them all. -/

namespace Sys2Proof.Tests

set_option Elab.async false

open Sys2Proof Sys2Proof.Machine

/-! ### Helpers -/

/-- The answer is a next state of which `p` holds. -/
def check (r : Result) (p : State → Bool) : Bool :=
  match r with
  | .next t => p t
  | .fault _ => false
  | .refused _ => false

theorem next_of_check {r : Result} {p : State → Bool} (h : check r p = true) :
    ∃ t, r = .next t ∧ p t = true := by
  cases r with
  | next t => exact ⟨t, rfl, h⟩
  | fault f => cases h
  | refused f => cases h

/-- A machine with buffers of `cap` bytes, the given operands and buffers, and nothing else set. -/
def machine (cap : Nat) (arg : Word) (p : ℚ) (b0 b1 : Buffer) : State :=
  { State.reset with
    params := { capBytes := cap, tblRmax := 23 }, arg0 := arg, prob := .num p, buf0 := b0, buf1 := b1 }

/-- An empty buffer. -/
def empty : Buffer := { bytes := [], len := 0 }

/-- `len` zero bits. -/
def zeros (len : Word) : Buffer := { bytes := [], len := len }

/-- One byte and a length. -/
def one (v : Byte) (len : Word) : Buffer := { bytes := [(0, v)], len := len }

/-- The bytes `55 01` with length 10: the bits `1010101010` (R61). -/
def alternating : Buffer := { bytes := [(0, 0x55), (1, 0x01)], len := 10 }

/-- The machine with a rANS configuration in place and both tables built for it. -/
def configured (c : RansConf) (s : State) : State :=
  { s with
    rans := c, encTable := { filledFrom := c }, decTable := { filledFrom := c }
    status := { s.status with cfgv := true, etv := true, dtv := true } }

/-- The configuration of `p = 3/8`, `R = 2` (R200: a tie, `freq [3, 1]`). -/
def conf38 : RansConf := ransConf (3 / 8) 2

/-- The configuration of `p = 1/2`, `R = 8` (R200: `freq [128, 128]`). -/
def conf12 : RansConf := ransConf (1 / 2) 8

/-- The configuration of `p = 999/1000`, `R = 16` (R216: `freq [66, 65470]`). -/
def conf999 : RansConf := ransConf (999 / 1000) 16

theorem conf38_legal : conf38.Legal :=
  ⟨by decide +kernel, by decide +kernel, by decide +kernel, by decide +kernel, by decide +kernel,
    by decide +kernel, by decide +kernel, by decide +kernel⟩

theorem conf12_legal : conf12.Legal :=
  ⟨by decide +kernel, by decide +kernel, by decide +kernel, by decide +kernel, by decide +kernel,
    by decide +kernel, by decide +kernel, by decide +kernel⟩

theorem conf999_legal : conf999.Legal :=
  ⟨by decide +kernel, by decide +kernel, by decide +kernel, by decide +kernel, by decide +kernel,
    by decide +kernel, by decide +kernel, by decide +kernel⟩

/-! ### Well-formedness: an ill-formed term for each check, and well-formed ones beside them -/

theorem test_wf_line_ok : (Line.mk .fdivSetup (some 7) none).wf = true := by decide
theorem test_wf_line_ok_prob : (Line.mk .ransCfg (some 12) (some (7 / 10))).wf = true := by decide
theorem test_wf_line_ok_hint : (Line.mk (.bsNew .b1) none none).wf = true := by decide
theorem test_wf_line_arg_missing : (Line.mk .fdivSetup none none).argPresent = false := by decide
theorem test_wf_line_arg_superfluous : (Line.mk .ransBlde (some 0) none).argPresent = false := by decide
theorem test_wf_line_arg_too_wide : (Line.mk .fmulMul (some 4294967296) none).argFits = false := by decide
theorem test_wf_line_arg_widest : (Line.mk .fmulMul (some 4294967295) none).wf = true := by decide
theorem test_wf_line_prob_missing : (Line.mk (.bacEnc .b0) none none).probPresent = false := by decide
theorem test_wf_line_prob_superfluous : (Line.mk .fdivDiv (some 1) (some 0)).probPresent = false := by decide
theorem test_wf_line_refused : (Line.mk (.bacEnc .b0) none none).wf = false := by decide
theorem test_wf_host_byte : HostAction.wf ⟨4, 23⟩ (.writeByte .b0 3 0xFF) = true := by decide
theorem test_wf_host_byte_outside : HostAction.wf ⟨4, 23⟩ (.writeByte .b0 4 0xFF) = false := by decide
theorem test_wf_host_len : HostAction.wf ⟨4, 23⟩ (.writeLen .b1 32) = true := by decide
theorem test_wf_host_len_above : HostAction.wf ⟨4, 23⟩ (.writeLen .b1 33) = false := by decide

/-! ### Decoding: a word of every row, `zero | t | b | sel | op` written out from R90 and R93 -/

theorem test_decode_bbNew : decode 0b000000000000000000000_0_0_1_00010000#32 = .ok (.bbNew .b1) := by decide
theorem test_decode_bbRd : decode 0b000000000000000000000_0_0_0_00010001#32 = .ok (.bbRd .b0) := by decide
theorem test_decode_bbWr : decode 0b000000000000000000000_0_1_0_00010010#32 = .ok (.bbWr .b0 true) := by decide
theorem test_decode_bbLen : decode 0b000000000000000000000_0_0_1_00010011#32 = .ok (.bbLen .b1) := by decide
theorem test_decode_bbByte : decode 0b000000000000000000000_0_0_1_00010100#32 = .ok (.bbByte .b1) := by decide
theorem test_decode_bsNew : decode 0b000000000000000000000_0_0_1_00010101#32 = .ok (.bsNew .b1) := by decide
theorem test_decode_bsApp : decode 0b000000000000000000000_0_1_1_00010110#32 = .ok (.bsApp .b1 true) := by decide
theorem test_decode_bsApp_zero : decode 0b000000000000000000000_0_0_1_00010110#32 = .ok (.bsApp .b1 false) := by decide
theorem test_decode_fdivSetup : decode 0b000000000000000000000_0_0_0_00100000#32 = .ok .fdivSetup := by decide
theorem test_decode_fdivDiv : decode 0b000000000000000000000_0_0_0_00100001#32 = .ok .fdivDiv := by decide
theorem test_decode_fdivDivmod : decode 0b000000000000000000000_0_0_0_00100010#32 = .ok .fdivDivmod := by decide
theorem test_decode_fmulSetup : decode 0b000000000000000000000_0_0_0_00110000#32 = .ok .fmulSetup := by decide
theorem test_decode_fmulMul : decode 0b000000000000000000000_0_0_0_00110001#32 = .ok .fmulMul := by decide
theorem test_decode_bacEnc : decode 0b000000000000000000000_0_0_1_01000000#32 = .ok (.bacEnc .b1) := by decide
theorem test_decode_bacDec : decode 0b000000000000000000000_0_0_0_01000001#32 = .ok (.bacDec .b0) := by decide
theorem test_decode_ransCfg : decode 0b000000000000000000000_0_0_0_01010000#32 = .ok .ransCfg := by decide
theorem test_decode_ransEnc : decode 0b000000000000000000000_0_0_1_01010001#32 = .ok (.ransEnc .b1) := by decide
theorem test_decode_ransEnct : decode 0b000000000000000000000_1_0_0_01010001#32 = .ok (.ransEnct .b0) := by decide
theorem test_decode_ransDec : decode 0b000000000000000000000_0_0_1_01010010#32 = .ok (.ransDec .b1) := by decide
theorem test_decode_ransDect : decode 0b000000000000000000000_1_0_1_01010010#32 = .ok (.ransDect .b1) := by decide
theorem test_decode_ransBlde : decode 0b000000000000000000000_0_0_0_01010011#32 = .ok .ransBlde := by decide
theorem test_decode_ransBldd : decode 0b000000000000000000000_0_0_0_01010100#32 = .ok .ransBldd := by decide

/-- The words of vectors F1 and F2 are illegal. -/
theorem test_decode_illegal :
    ([0x00000000, 0x000000FF, 0x00000120, 0x00000211, 0x00000440, 0x00000840, 0x80000010, 0x00000017] :
      List Word).all (fun w => (decode w).toOption.isNone) = true := by decide

theorem test_decodeTableWord : decodeTableWord 32 0x551 = some (.ransEnct .b1) := by decide
theorem test_decodeTableWord_short : decodeTableWord 8 0x31 = some .fmulMul := by decide
theorem test_withFetchWord :
    check (step (State.reset.withFetchWord 32 0x00000020)) (fun t => t.status.fdgv && t.inbox == []) = true := by
  decide +kernel

/-! ### Bit buffers -/

/-- Vector T10: the whole last byte is zeroed. -/
theorem test_bbNew :
    check (exec (.bbNew .b0) (machine 4 3 0 (one 0xFF 8) empty)) (fun t => t.buf0 == zeros 3) = true := by decide +kernel

/-- R110: bytes from `ceil(n/8)` on keep their contents. -/
theorem test_bbNew_keeps :
    check (exec (.bbNew .b0) (machine 4 8 0 alternating empty))
      (fun t => t.buf0 == { bytes := [(1, 0x01)], len := 8 }) = true := by decide +kernel

/-- Example of R111: bytes `55 01`, `i = 8` gives 1. -/
theorem test_bbRd :
    check (exec (.bbRd .b0) (machine 4 8 0 alternating empty)) (fun t => t.res0 == 1) = true := by decide +kernel

/-- Example of R111, vector F12: `i = 10` faults. -/
theorem test_bbRd_outside :
    check (exec (.bbRd .b0) (machine 4 10 0 alternating empty)) (fun t => t.status.toWord == 0x11) = true := by
  decide +kernel

/-- Vector T2: bit 9 goes into byte 1. -/
theorem test_bbWr :
    check (exec (.bbWr .b0 true) (machine 4 9 0 (one 0x01 10) empty))
      (fun t => t.buf0 == { bytes := [(0, 0x01), (1, 0x02)], len := 10 }) = true := by decide +kernel

/-- Vector T4: a write of 0 clears nothing. -/
theorem test_bbWr_zero :
    check (exec (.bbWr .b0 false) (machine 4 0 0 (one 0x01 10) empty)) (fun t => t.buf0 == one 0x01 10) = true := by
  decide +kernel

/-- Example of R113: `len = 11`. -/
theorem test_bbLen :
    check (exec (.bbLen .b1) (machine 4 0 0 empty (zeros 11))) (fun t => t.res0 == 11 && t.res1 == 2) = true := by
  decide +kernel

/-- Example of R114: `k = 1` gives 1. -/
theorem test_bbByte :
    check (exec (.bbByte .b0) (machine 4 1 0 alternating empty)) (fun t => t.res0 == 1) = true := by decide +kernel

/-- Example of R114: `k = 2` faults. -/
theorem test_bbByte_outside :
    check (exec (.bbByte .b0) (machine 4 2 0 alternating empty)) (fun t => t.status.toWord == 0x11) = true := by
  decide +kernel

/-- R115: no byte is written. -/
theorem test_bsNew :
    check (exec (.bsNew .b0) (machine 4 9 0 alternating empty))
      (fun t => t.buf0 == { bytes := [(0, 0x55), (1, 0x01)], len := 0 }) = true := by decide +kernel

/-- Vector T9: the append at `len mod 8 = 0` first overwrites the byte. -/
theorem test_bsApp :
    check (exec (.bsApp .b1 false) (machine 4 0 0 empty (one 0xFF 0))) (fun t => t.buf1 == zeros 1) = true := by
  decide +kernel

/-- Vector F15: `len = 8 · CAP_BYTES`. -/
theorem test_bsApp_full :
    check (exec (.bsApp .b1 true) (machine 4 0 0 empty (zeros 32)))
      (fun t => t.status.toWord == 0x13 && t.buf1 == zeros 32) = true := by decide +kernel

/-! ### Fast division and the fraction multiplier -/

/-- Example of R131: `d = 7`. -/
theorem test_fdivSetup :
    check (exec .fdivSetup (machine 4 7 0 empty empty))
      (fun t => t.fdg == { d := 7, mul := 0x124924925, shift := 35 } && t.status.toWord == 0x1000) = true := by
  decide +kernel

/-- Vector F6: `d = 2^31`. -/
theorem test_fdivSetup_wide :
    check (exec .fdivSetup (machine 4 0x80000000 0 empty empty)) (fun t => t.status.toWord == 9) = true := by
  decide +kernel

/-- A machine with the descriptor that the table of `95_test_vectors.md` §3 gives for 7. -/
def dividing (arg : Word) : State :=
  { machine 4 arg 0 empty empty with
    fdg := { d := 7, mul := 0x124924925, shift := 35 }, status := { Status.zero with fdgv := true } }

/-- Example of R134. -/
theorem test_fdivDiv :
    check (exec .fdivDiv (dividing 2147483646)) (fun t => t.res0 == 306783378 && t.res1 == 0) = true := by
  decide +kernel

/-- Vector T15. -/
theorem test_fdivDivmod :
    check (exec .fdivDivmod (dividing 2147483647)) (fun t => t.res0 == 306783378 && t.res1 == 1) = true := by
  decide +kernel

/-- Vector F11: `n = 2^31`. -/
theorem test_fdivDivmod_wide :
    check (exec .fdivDivmod (dividing 0x80000000)) (fun t => t.status.toWord == 0x100F) = true := by decide +kernel

/-- Example of R151: `f = 1/3`. -/
theorem test_fmulSetup :
    check (exec .fmulSetup (machine 4 0 (1 / 3) empty empty))
      (fun t => t.fmgM == 0x55555555 && t.status.toWord == 0x2000) = true := by decide +kernel

/-- Vector F3: `f = 3/2`. -/
theorem test_fmulSetup_outside :
    check (exec .fmulSetup (machine 4 0 (3 / 2) empty empty)) (fun t => t.status.toWord == 5) = true := by decide +kernel

/-- A machine with a multiplier set up. -/
def multiplying (m : BitVec 33) (arg : Word) : State :=
  { machine 4 arg 0 empty empty with fmgM := m, status := { Status.zero with fmgv := true } }

/-- Example of R153: `f = 1/3`, `x = 2^32 - 1`. -/
theorem test_fmulMul :
    check (exec .fmulMul (multiplying 0x55555555 0xFFFFFFFF)) (fun t => t.res0 == 1431655764) = true := by
  decide +kernel

/-- Vector T34: `f = 1` is the identity, through the one multiplier that needs bit 32. -/
theorem test_fmulMul_one :
    check (exec .fmulMul (multiplying 0x100000000 0xFFFFFFFF)) (fun t => t.res0 == 0xFFFFFFFF) = true := by
  decide +kernel

/-! ### The Binary Arithmetic Coder -/

/-- Vector T50 and the trace of R193. -/
theorem test_bacEnc :
    check (exec (.bacEnc .b0) (machine 4 0 (1 / 2) alternating empty))
      (fun t => t.buf1 == { bytes := [(0, 0x55), (1, 0x01)], len := 11 } && t.bac.low == 0x7FFFFE00 &&
        t.bac.high == 0xFFFFFE00 && t.bac.pending == 0 && t.bac.readPos == 10) = true := by decide +kernel

/-- Vector T60 and the trace of R194, all three cases: message `01100010`, `p = 3/10`. -/
theorem test_bacEnc_cases :
    check (exec (.bacEnc .b0) (machine 4 0 (3 / 10) (one 0x46 8) empty))
      (fun t => t.buf1 == one 0xE5 8 && t.bac.m == 0xB3333333 && t.bac.low == 0x3C6FF274 &&
        t.bac.high == 0x86C93CBD) = true := by decide +kernel

/-- The decoding of R194. -/
theorem test_bacDec :
    check (exec (.bacDec .b1) (machine 4 0 (3 / 10) (zeros 8) (one 0xE5 8)))
      (fun t => t.buf0 == one 0x46 8 && t.bac.value == 0x40000000 && t.bac.readPos == 8 &&
        t.bac.writePos == 8) = true := by decide +kernel

/-- Vector T84 (R185): 40 ones, where `value` wraps. -/
theorem test_bacDec_wraps :
    check (exec (.bacDec .b1) (machine 8 0 (1 / 2) (zeros 40)
        { bytes := [(0, 0xFF), (1, 0xFF), (2, 0xFF), (3, 0xFF), (4, 0xFF)], len := 40 }))
      (fun t => t.buf0 == { bytes := [(0, 0xFF), (1, 0xFF), (2, 0xFF), (3, 0xFF), (4, 0xFF)], len := 40 } &&
        t.bac.low == 0 && t.bac.high == 0x80000000 && t.bac.value == 0 && t.bac.readPos == 40) = true := by
  decide +kernel

/-! ### rANS -/

/-- Vector T101 (R200): `(3/8, 2)`, a tie. -/
theorem test_ransCfg :
    check (exec .ransCfg (machine 4 2 (3 / 8) empty empty))
      (fun t => t.rans.totalFreq == 4 && t.rans.freq0 == 3 && t.rans.freq1 == 1 && t.rans.cum1 == 3 &&
        t.rans.thr0 == 768 && t.rans.thr1 == 256 && t.rans.fd0 == { d := 3, mul := 0x155555556, shift := 34 } &&
        t.status.toWord == 0x200) = true := by decide +kernel

/-- Vector F4: both operands bad, the probability is reported. -/
theorem test_ransCfg_both :
    check (exec .ransCfg (machine 4 99 2 empty empty)) (fun t => t.status.toWord == 5) = true := by decide +kernel

/-- Trace of R215: message `11110000`. -/
theorem test_ransEnc :
    check (exec (.ransEnc .b0) (configured conf12 (machine 4 0 0 (one 0x0F 8) empty)))
      (fun t => t.buf1 == one 0x80 8 && t.res0 == 387 && t.ransState == 387) = true := by decide +kernel

/-- Trace of R216: a flush before the first transition, and the reversal of the bytes. -/
theorem test_ransEnc_flush :
    check (exec (.ransEnc .b0) (configured conf999 (machine 4 0 0 (one 0x01 3) empty)))
      (fun t => t.buf1 == one 0x3A 16 && t.res0 == 721730) = true := by decide +kernel

/-- Example of R244: message `1011`. -/
theorem test_ransEnct :
    check (exec (.ransEnct .b0) (configured conf38 (machine 4 0 0 (one 0x0D 4) empty)))
      (fun t => t.buf1 == empty && t.res0 == 423) = true := by decide +kernel

/-- Vector F7: no table. -/
theorem test_ransEnct_unbuilt :
    check (exec (.ransEnct .b0)
        { machine 4 0 0 empty empty with rans := conf12, status := { Status.zero with cfgv := true } })
      (fun t => t.status.toWord == 0x20B) = true := by decide +kernel

/-- Trace of R215, decoding. -/
theorem test_ransDec :
    check (exec (.ransDec .b1) (configured conf12 (machine 4 387 0 (zeros 8) (one 0x80 8))))
      (fun t => t.buf0 == one 0x0F 8 && t.ransState == 256 && t.ransReadPos == 1) = true := by decide +kernel

/-- Vector T143: any 32-bit start state. -/
theorem test_ransDec_high :
    check (exec (.ransDec .b1) (configured conf12 (machine 4 0xFFFFFFFF 0 (zeros 3) empty)))
      (fun t => t.buf0 == one 0x07 3 && t.ransState == 536870911) = true := by decide +kernel

/-- Example of R245: from state 423. -/
theorem test_ransDect :
    check (exec (.ransDect .b1) (configured conf38 (machine 4 423 0 (zeros 4) empty)))
      (fun t => t.buf0 == one 0x0D 4 && t.ransState == 4) = true := by decide +kernel

/-- Vector F18 in small: a start state outside the table, whatever `N` is. -/
theorem test_ransDect_outside :
    check (exec (.ransDect .b1) (configured conf38 (machine 4 1024 0 empty empty)))
      (fun t => t.status.toWord == 0xE17) = true := by decide +kernel

/-- Example of R242: 2048 entries, the first of them. -/
theorem test_ransBlde :
    check (exec .ransBlde { machine 4 0 0 empty empty with rans := conf38, status := { Status.zero with cfgv := true } })
      (fun t => t.encTable.size == 2048 && t.status.toWord == 0x600 &&
        (List.range 12).map t.encTable.entry == [0, 3, 1, 7, 2, 11, 4, 15, 5, 19, 6, 23]) = true := by decide +kernel

/-- Vector T95 (R248): an entry that keeps the low 32 bits. -/
theorem test_encTable_truncated :
    EncTable.entry { filledFrom := ransConf (1 / 8192) 13 } (2 * 2097151 + 1) = 4294967295 := by decide +kernel

/-- Example of R243. -/
theorem test_ransBldd :
    check (exec .ransBldd { machine 4 0 0 empty empty with rans := conf38, status := { Status.zero with cfgv := true } })
      (fun t => t.decTable.size == 1024 && t.status.toWord == 0xA00 &&
        [3, 255, 256, 767, 1023].map t.decTable.entry ==
          [(0, true), (63, true), (192, false), (191, true), (255, true)]) = true := by decide +kernel

/-- Vector F19: `R` above `TBL_RMAX`. -/
theorem test_ransBldd_large :
    check (exec .ransBldd
        { machine 4 0 0 empty empty with
          params := { capBytes := 4, tblRmax := 7 }, rans := conf12, status := { Status.zero with cfgv := true } })
      (fun t => t.status.toWord == 0x219) = true := by decide +kernel

/-! ### Hypotheses: for every statement of Obligations.lean that has some, a state and operands that meet them

`meets_X` is about `Obligations.X`; a second theorem takes another clause or another end of a range. -/

/-- The machine with a queue of host actions. -/
def queued (inbox : List HostAction) (s : State) : State := { s with inbox := inbox }

/-- A machine that has recorded `BufferOverflow`. -/
def faulted : State := { machine 1 0 0 empty empty with status := { Status.zero with fault := true, cause := 9 } }

theorem meets_DecodeAndEncodeAgree : decode 0x00000551#32 = .ok (.ransEnct .b1) := by decide

theorem meets_DecodeFollowsMatchAndMask :
    decode 0x00000312#32 = .ok (.bbWr .b1 true) ∧
      0x00000312#32 &&& (Instr.bbWr .b0 false).rowMask = (Instr.bbWr .b0 false).rowMatch := by decide

theorem meets_UnlistedWordRaisesIllegalCommand :
    (queued [.writeCmd 0x17, .writeArg0 1] State.reset).inbox = .writeCmd 0x17 :: [.writeArg0 1] ∧
      State.reset.status.fault = false ∧ ∀ i : Instr, 0x17#32 &&& i.rowMask ≠ i.rowMatch := by
  refine ⟨rfl, rfl, fun i => ?_⟩
  cases i <;> (simp only [Instr.rowMask, Instr.rowMatch]; decide)

theorem meets_StepRunsTheDecodedCommand :
    (queued [.writeCmd 0x113] State.reset).inbox = .writeCmd 0x113 :: [] ∧
      (queued [.writeCmd 0x113] State.reset).status.fault = false ∧
      decode 0x113#32 = .ok (.bbLen .b1) := by decide +kernel

theorem meets_FaultedBlockRefusesCommands :
    (queued [.writeCmd 0x20] faulted).inbox = .writeCmd 0x20 :: [] ∧
      (queued [.writeCmd 0x20] faulted).status.fault = true := by decide +kernel

theorem meets_FaultStaysUntilReset :
    (queued [.writeCmd 0x20, .writeArg0 1] faulted).status.fault = true ∧
      (∀ a ∈ (queued [.writeCmd 0x20, .writeArg0 1] faulted).inbox, a ≠ .reset) ∧
      ∃ t, Host.Core.run Sys2Proof.core 3 (queued [.writeCmd 0x20, .writeArg0 1] faulted) = .next t ∧
        (t.inbox == []) = true :=
  ⟨rfl, by decide +kernel, next_of_check (p := fun t => t.inbox == []) (by decide +kernel)⟩

theorem meets_ResetEventClearsStatusAndLengths :
    (queued [.reset, .writeArg0 1] faulted).inbox = .reset :: [.writeArg0 1] := rfl

theorem meets_HostWritesBetweenCommands_registers :
    (queued [.writeArg0 5] faulted).inbox = .writeArg0 5 :: [] ∧
      (queued [.writeProb .notNumber] faulted).inbox = .writeProb .notNumber :: [] := ⟨rfl, rfl⟩

theorem meets_HostWritesBetweenCommands_bytes :
    (machine 4 0 0 alternating empty).buf0.bytes.wf = true ∧
      3 < (machine 4 0 0 alternating empty).params.capBytes ∧
      (machine 4 0 0 alternating empty).params.capBytes ≤ 4 := by decide +kernel

theorem meets_HostWritesBetweenCommands_lengths :
    (32 : Word).toNat ≤ 8 * (machine 4 0 0 empty empty).params.capBytes ∧
      8 * (machine 4 0 0 empty empty).params.capBytes < (33 : Word).toNat := by decide +kernel

theorem meets_CommandsFaultExactlyAsListed_first :
    RaisesPrecisely .ransCfg (machine 4 1 2 empty empty) .invalidProbability ∧
      RaisesPrecisely .ransCfg (machine 4 24 1 empty empty) .invalidRangeWidth ∧
      RaisesPrecisely (.bbRd .b0) (machine 4 10 0 alternating empty) .indexOutOfRange := by
  refine ⟨.inl ⟨.inr (by decide +kernel), rfl⟩, .inr ⟨?_, .inl ⟨.inr (by decide +kernel), rfl⟩⟩,
    .inl ⟨by decide +kernel, rfl⟩⟩
  show ¬ ((1 : ℚ) < 0 ∨ (1 : ℚ) < 1)
  decide +kernel

theorem meets_CommandsFaultExactlyAsListed_none :
    (machine 4 9 0 alternating empty).status.fault = false ∧ isEncoder (.bbRd .b0) = false ∧
      ∀ c, ¬ RaisesPrecisely (.bbRd .b0) (machine 4 9 0 alternating empty) c := by
  refine ⟨rfl, rfl, fun c h => ?_⟩
  rcases h with ⟨h, -⟩ | ⟨-, h⟩
  · exact absurd h (by decide +kernel)
  · exact h

theorem meets_EncoderFaultsChangeOnlyListedItems_bac :
    (machine 1 0 0 empty (zeros 7)).status.fault = false ∧
      (∀ c, ¬ RaisesPrecisely (.bacEnc .b0) (machine 1 0 0 empty (zeros 7)) c) ∧
      ∃ t, exec (.bacEnc .b0) (machine 1 0 0 empty (zeros 7)) = .next t ∧ t.status.fault = true := by
  refine ⟨rfl, fun c h => ?_, next_of_check (p := fun t => t.status.fault) (by decide +kernel)⟩
  rcases h with ⟨h, -⟩ | ⟨-, h⟩
  · cases h
  · exact h

theorem meets_EncoderFaultsChangeOnlyListedItems_rans :
    (configured conf999 (machine 1 0 0 (one 0x01 3) empty)).status.fault = false ∧
      (∀ c, ¬ RaisesPrecisely (.ransEnct .b0) (configured conf999 (machine 1 0 0 (one 0x01 3) empty)) c) ∧
      ∃ t, exec (.ransEnct .b0) (configured conf999 (machine 1 0 0 (one 0x01 3) empty)) = .next t ∧
        t.status.fault = true := by
  refine ⟨rfl, fun c h => ?_, next_of_check (p := fun t => t.status.fault) (by decide +kernel)⟩
  rcases h with ⟨h, -⟩ | ⟨-, ⟨h, -⟩ | ⟨-, h⟩⟩
  · cases h
  · cases h
  · exact h

theorem meets_BacEncoderNeedsRoomForTwoBits :
    (machine 1 0 (1 / 2) empty (zeros 7)).params.wf = true ∧
      (machine 1 0 (1 / 2) empty (zeros 7)).buf1.bytes.wf = true ∧
      (machine 1 0 (1 / 2) empty (zeros 7)).prob = .num (1 / 2) ∧
      8 * (machine 1 0 (1 / 2) empty (zeros 7)).params.capBytes < (zeros 7).len.toNat + 2 := by decide +kernel

theorem meets_BbNewGivesZeroBits :
    (machine 4 32 0 alternating empty).arg0.toNat ≤ 8 * (machine 4 32 0 alternating empty).params.capBytes ∧
      8 * (machine 4 33 0 alternating empty).params.capBytes < (machine 4 33 0 alternating empty).arg0.toNat := by
  decide +kernel

theorem meets_BbRdReadsOneBit :
    (machine 4 9 0 alternating empty).arg0.toNat < ((machine 4 9 0 alternating empty).buf .b0).len.toNat ∧
      ((machine 4 10 0 alternating empty).buf .b0).len.toNat ≤ (machine 4 10 0 alternating empty).arg0.toNat := by
  decide +kernel

theorem meets_BbWrOrsOneBit :
    ((machine 4 9 0 alternating empty).buf .b0).bytes.wf = true ∧
      (machine 4 9 0 alternating empty).arg0.toNat < ((machine 4 9 0 alternating empty).buf .b0).len.toNat ∧
      ((machine 4 10 0 alternating empty).buf .b0).len.toNat ≤ (machine 4 10 0 alternating empty).arg0.toNat := by
  decide +kernel

theorem meets_BbByteReadsOneByte :
    (machine 4 1 0 alternating empty).arg0.toNat <
        (((machine 4 1 0 alternating empty).buf .b0).len.toNat + 7) / 8 ∧
      (((machine 4 2 0 alternating empty).buf .b0).len.toNat + 7) / 8 ≤
        (machine 4 2 0 alternating empty).arg0.toNat := by decide +kernel

theorem meets_BsAppAppendsOneBit :
    (machine 1 0 0 empty (one 0x7F 7)).params.wf = true ∧
      ((machine 1 0 0 empty (one 0x7F 7)).buf .b1).bytes.wf = true ∧
      ((machine 1 0 0 empty (one 0x7F 7)).buf .b1).len.toNat <
        8 * (machine 1 0 0 empty (one 0x7F 7)).params.capBytes := by decide +kernel

/-- The empty stream over an old byte, and the full buffer. -/
theorem meets_BsAppAppendsOneBit_ends :
    (machine 1 0 0 empty (one 0xFF 0)).params.wf = true ∧
      ((machine 1 0 0 empty (one 0xFF 0)).buf .b1).bytes.wf = true ∧
      ((machine 1 0 0 empty (one 0xFF 0)).buf .b1).len.toNat <
        8 * (machine 1 0 0 empty (one 0xFF 0)).params.capBytes ∧
      ((machine 1 0 0 empty (one 0xFF 8)).buf .b1).bytes.wf = true ∧
      ((machine 1 0 0 empty (one 0xFF 8)).buf .b1).len.toNat =
        8 * (machine 1 0 0 empty (one 0xFF 8)).params.capBytes := by decide +kernel

/-- The bits of a byte that fills a buffer of one byte. -/
def eightBits : List Bool := [true, false, true, true, false, false, false, true]

theorem meets_AppendedStreamReadsBack :
    (machine 1 0 0 empty (one 0xFF 8)).params.wf = true ∧
      ((machine 1 0 0 empty (one 0xFF 8)).buf .b1).bytes.wf = true ∧
      (machine 1 0 0 empty (one 0xFF 8)).status.fault = false ∧
      eightBits.length ≤ 8 * (machine 1 0 0 empty (one 0xFF 8)).params.capBytes ∧
      (queued (.writeCmd (encode (.bsNew .b1)) :: eightBits.map fun b => .writeCmd (encode (.bsApp .b1 b)))
        (machine 1 0 0 empty (one 0xFF 8))).inbox =
        .writeCmd (encode (.bsNew .b1)) :: eightBits.map fun b => .writeCmd (encode (.bsApp .b1 b)) := by
  decide +kernel

theorem meets_LoadDirectiveEqualsItsCommands :
    (machine 1 0 0 (one 0xFF 8) empty).params.wf = true ∧
      ((machine 1 0 0 (one 0xFF 8) empty).buf .b0).bytes.wf = true ∧
      (machine 1 0 0 (one 0xFF 8) empty).status.fault = false ∧
      eightBits.length ≤ 8 * (machine 1 0 0 (one 0xFF 8) empty).params.capBytes := by decide +kernel

theorem meets_FastDivisionIsExact :
    1 ≤ 2147483647 ∧ 2147483647 < 2 ^ 31 ∧ 2147483647 < 2 ^ 31 := by decide

theorem meets_DescriptorFieldsFitTheirWidths :
    1 ≤ 1 ∧ 1 < 2 ^ 31 ∧ 1 ≤ 2147483647 ∧ 2147483647 < 2 ^ 31 := by decide

theorem meets_FdivSetupStoresTheDescriptor :
    (machine 4 0x7FFFFFFF 0 empty empty).arg0.toNat < 2 ^ 31 ∧
      1 ≤ (machine 4 0x7FFFFFFF 0 empty empty).arg0.toNat ∧
      (machine 4 0 0 empty empty).arg0.toNat < 2 ^ 31 ∧ (machine 4 0 0 empty empty).arg0.toNat = 0 ∧
      2 ^ 31 ≤ (machine 4 0x80000000 0 empty empty).arg0.toNat := by
  decide +kernel

theorem meets_FdivDivGivesTheQuotient :
    (dividing 0x7FFFFFFF).status.fdgv = true ∧ (dividing 0x7FFFFFFF).fdg.Legal ∧
      (dividing 0x7FFFFFFF).arg0.toNat < 2 ^ 31 := by
  refine ⟨rfl, ?_, by decide +kernel⟩
  show _ = _
  decide +kernel

theorem meets_FdivDivGivesTheQuotient_faults :
    (machine 4 1 0 empty empty).status.fdgv = false ∧
      (dividing 0x80000000).status.fdgv = true ∧ 2 ^ 31 ≤ (dividing 0x80000000).arg0.toNat := by decide +kernel

/-- The descriptor of 0 is legal too; the faults are met as for `FDIV.DIV`. -/
theorem meets_FdivDivmodGivesQuotientAndRemainder :
    ({ dividing 12345 with fdg := FdDesc.zero } : State).status.fdgv = true ∧
      ({ dividing 12345 with fdg := FdDesc.zero } : State).fdg.Legal ∧
      ({ dividing 12345 with fdg := FdDesc.zero } : State).arg0.toNat < 2 ^ 31 :=
  ⟨rfl, rfl, by decide +kernel⟩

theorem meets_FractionMultiplierErrorBound : (0 : ℚ) ≤ 1 ∧ (1 : ℚ) ≤ 1 ∧ 4294967295 < 2 ^ 32 := by decide +kernel

theorem meets_FmulSetupStoresTheMultiplier :
    (machine 4 0 1 empty empty).prob = .num 1 ∧ (0 : ℚ) ≤ 1 ∧ (1 : ℚ) ≤ 1 := by decide +kernel

/-- The contents of `PROB` that `FMUL.SETUP` and `RANS.CFG` reject. -/
theorem meets_FmulSetupStoresTheMultiplier_faults :
    (machine 4 0 (4294967297 / 4294967296) empty empty).prob = .num (4294967297 / 4294967296) ∧
      (1 : ℚ) < 4294967297 / 4294967296 ∧
      (machine 4 0 (-1 / 1000) empty empty).prob = .num (-1 / 1000) ∧ (-1 / 1000 : ℚ) < 0 ∧
      ({ State.reset with prob := .notNumber } : State).prob = .notNumber := by decide +kernel

theorem meets_FmulMulGivesTheHighProduct :
    (multiplying 0x100000000 3).status.fmgv = true ∧ (multiplying 0x100000000 3).fmgM.toNat ≤ 2 ^ 32 ∧
      State.reset.status.fmgv = false := by
  decide +kernel

theorem meets_BacMultiplierInRange :
    (1 / 1000000000 : ℚ) ≤ 1 / 10 ^ 9 ∧ (1 : ℚ) - 1 / 10 ^ 9 ≤ 999999999 / 1000000000 := by norm_num

/-- BAC registers over the interval `[low, high]` with the multiplier of `p = 1`, the smallest. -/
def interval (low high : Word) : Bac :=
  { m := 4, low := low, high := high, value := 0, pending := 0, readPos := 0, writePos := 0 }

/-- The shortest interval at which a renormalisation loop has exited, `2^30 + 1`. -/
theorem meets_BacNarrowingNeverCollapses :
    (interval 0x3FFFFFFF 0x80000000).low.toNat < (interval 0x3FFFFFFF 0x80000000).high.toNat ∧
      (interval 0x3FFFFFFF 0x80000000).case = .done ∧ (interval 0x3FFFFFFF 0x80000000).m.toNat = bacM 1 := by
  decide +kernel

/-- An interval of length 1 about the middle. -/
theorem meets_BacRenormalisationEndsWithin31Passes :
    (interval 0x7FFFFFFF 0x80000000).low.toNat < (interval 0x7FFFFFFF 0x80000000).high.toNat ∧
      ∃ r', encRenorm 4 31 { out := empty, bac := interval 0x7FFFFFFF 0x80000000 } = .ok r' :=
  ⟨by decide +kernel, _, rfl⟩

theorem meets_BacEncoderCompletesWithRoom :
    (machine 5 0 1 (zeros 1) (one 0x7F 7)).params.wf = true ∧
      ((machine 5 0 1 (zeros 1) (one 0x7F 7)).buf (BufSel.other .b0)).bytes.wf = true ∧
      (machine 5 0 1 (zeros 1) (one 0x7F 7)).prob = .num 1 ∧
      ((machine 5 0 1 (zeros 1) (one 0x7F 7)).buf (BufSel.other .b0)).len.toNat +
        31 * ((machine 5 0 1 (zeros 1) (one 0x7F 7)).buf .b0).len.toNat + 2 ≤
        8 * (machine 5 0 1 (zeros 1) (one 0x7F 7)).params.capBytes := by decide +kernel

theorem meets_BacEncodesTheEmptyMessageAsTwoBits :
    (machine 1 0 (1 / 2) empty empty).params.wf = true ∧
      ((machine 1 0 (1 / 2) empty empty).buf (BufSel.other .b0)).bytes.wf = true ∧
      (machine 1 0 (1 / 2) empty empty).prob = .num (1 / 2) ∧
      ((machine 1 0 (1 / 2) empty empty).buf .b0).len = 0 ∧
      ((machine 1 0 (1 / 2) empty empty).buf (BufSel.other .b0)).len = 0 := by decide +kernel

theorem meets_BacDecoderAlwaysCompletes :
    ((machine 4 0 (-3) (zeros 8) (one 0xE5 8)).buf (BufSel.other .b1)).bytes.wf = true ∧
      (machine 4 0 (-3) (zeros 8) (one 0xE5 8)).prob = .num (-3) := by decide +kernel

/-- The same message from either buffer, in machines of different capacities. -/
theorem meets_BacEncodingIsAFunctionOfItsInputs :
    (machine 2 7 (1 / 2) alternating empty).params.wf = true ∧
      (machine 4 9 (1 / 2) (one 0xFF 0) alternating).params.wf = true ∧
      (one 0xFF 0).bytes.wf = true ∧ empty.bytes.wf = true ∧ (one 0xFF 0).len = 0 ∧ empty.len = 0 ∧
      (machine 2 7 (1 / 2) alternating empty).prob = (machine 4 9 (1 / 2) (one 0xFF 0) alternating).prob ∧
      (∀ j, j < 10 → alternating.bitRead j = alternating.bitRead j) ∧
      (∃ t, exec (.bacEnc .b0) (machine 2 7 (1 / 2) alternating empty) = .next t ∧
        (!t.status.fault) = true) ∧
      ∃ t, exec (.bacEnc .b1) (machine 4 9 (1 / 2) (one 0xFF 0) alternating) = .next t ∧
        (!t.status.fault) = true :=
  ⟨by decide +kernel, by decide +kernel, by decide +kernel, by decide +kernel, rfl, rfl, rfl, fun _ _ => rfl,
    next_of_check (p := fun t => !t.status.fault) (by decide +kernel),
    next_of_check (p := fun t => !t.status.fault) (by decide +kernel)⟩

theorem meets_BacDecodingIsAFunctionOfItsInputs :
    (zeros 8).bytes.wf = true ∧ (∀ j, j < 8 → (zeros 8).bitRead j = false) ∧
      (machine 4 0 (3 / 10) (zeros 8) (one 0xE5 8)).prob = .num (3 / 10) ∧
      (machine 8 3 (3 / 10) (one 0xE5 8) (zeros 8)).prob = .num (3 / 10) ∧
      (∃ t, exec (.bacDec .b1) (machine 4 0 (3 / 10) (zeros 8) (one 0xE5 8)) = .next t ∧
        (!t.status.fault) = true) ∧
      ∃ t, exec (.bacDec .b0) (machine 8 3 (3 / 10) (one 0xE5 8) (zeros 8)) = .next t ∧
        (!t.status.fault) = true :=
  ⟨by decide +kernel, fun _ _ => by simp [zeros, Buffer.bitRead, Buffer.byte, Memory.read, Memory.unlisted],
    rfl, rfl, next_of_check (p := fun t => !t.status.fault) (by decide +kernel),
    next_of_check (p := fun t => !t.status.fault) (by decide +kernel)⟩

/-- The answer is a next state without a fault. -/
def clean (r : Result) : Bool := check r (fun t => !t.status.fault)

/-- Where the answers of a chain are clean, its states exist. -/
theorem clean_next {r : Result} (h : clean r = true) : ∃ t, r = .next t ∧ t.status.fault = false := by
  obtain ⟨t, ht, hf⟩ := next_of_check h
  exact ⟨t, ht, by simpa using hf⟩

/-- `f` after a next state. -/
def after (r : Result) (f : State → Result) : Result :=
  match r with
  | .next t => f t
  | .fault e => .fault e
  | .refused e => .refused e

theorem meets_BacRoundTrip :
    (machine 4 0 (1 / 2) alternating empty).params.wf = true ∧
      (machine 4 0 (1 / 2) alternating empty).BytesOk ∧
      (machine 4 0 (1 / 2) alternating empty).prob = .num (1 / 2) ∧
      ((machine 4 0 (1 / 2) alternating empty).buf (BufSel.other .b0)).len = 0 ∧
      ∃ t u v, exec (.bacEnc .b0) (machine 4 0 (1 / 2) alternating empty) = .next t ∧ t.status.fault = false ∧
        exec (.bbNew .b0) { t with arg0 := 10 } = .next u ∧ u.status.fault = false ∧
        exec (.bacDec .b1) u = .next v ∧ v.status.fault = false := by
  refine ⟨by decide +kernel, fun sel => by cases sel <;> decide +kernel, rfl, rfl, ?_⟩
  have h : clean (after (exec (.bacEnc .b0) (machine 4 0 (1 / 2) alternating empty)) fun t =>
      after (exec (.bbNew .b0) { t with arg0 := 10 }) fun u => exec (.bacDec .b1) u) = true := by decide +kernel
  have h1 : clean (exec (.bacEnc .b0) (machine 4 0 (1 / 2) alternating empty)) = true := by decide +kernel
  have h2 : clean (after (exec (.bacEnc .b0) (machine 4 0 (1 / 2) alternating empty)) fun t =>
      exec (.bbNew .b0) { t with arg0 := 10 }) = true := by decide +kernel
  obtain ⟨t, ht, hft⟩ := clean_next h1
  rw [ht] at h h2
  obtain ⟨u, hu, hfu⟩ := clean_next h2
  change clean (after (exec (.bbNew .b0) { t with arg0 := 10 }) fun u => exec (.bacDec .b1) u) = true at h
  change exec (.bbNew .b0) { t with arg0 := 10 } = .next u at hu
  rw [hu] at h
  obtain ⟨v, hv, hfv⟩ := clean_next h
  exact ⟨t, u, v, ht, hft, hu, hfu, hv, hfv⟩

theorem meets_RansCfgStoresALegalConfiguration :
    (machine 4 2 0 empty empty).prob = .num 0 ∧ (0 : ℚ) ≤ 0 ∧ (0 : ℚ) ≤ 1 ∧
      2 ≤ (machine 4 2 0 empty empty).arg0.toNat ∧ (machine 4 2 0 empty empty).arg0.toNat ≤ 23 := by decide +kernel

/-- The upper ends of both ranges. -/
theorem meets_RansCfgStoresALegalConfiguration_upper :
    (machine 4 23 1 empty empty).prob = .num 1 ∧ (0 : ℚ) ≤ 1 ∧ (1 : ℚ) ≤ 1 ∧
      2 ≤ (machine 4 23 1 empty empty).arg0.toNat ∧ (machine 4 23 1 empty empty).arg0.toNat ≤ 23 := by decide +kernel

/-- The range widths next to the legal ones. The probabilities are met as for `FMUL.SETUP`. -/
theorem meets_RansCfgStoresALegalConfiguration_faults :
    (machine 4 1 1 empty empty).prob = .num 1 ∧ (machine 4 1 1 empty empty).arg0.toNat < 2 ∧
      23 < (machine 4 24 1 empty empty).arg0.toNat := by decide +kernel

theorem meets_DecodeTransitionInvertsEncodeTransition : conf38.Legal ∧ 2147483647 < 2 ^ 31 :=
  ⟨conf38_legal, by decide⟩

/-- The largest state below the threshold, and one from `freq[sym]` on. -/
theorem meets_EncodeTransitionStaysInRange :
    conf38.Legal ∧ 767 < conf38.thr false ∧ conf38.freq false ≤ 767 :=
  ⟨conf38_legal, by decide +kernel, by decide +kernel⟩

theorem meets_DecodeTransitionStaysInRange :
    conf38.Legal ∧ 4294967295 < 2 ^ 32 ∧ 1023 < conf38.totalFreq.toNat * 256 :=
  ⟨conf38_legal, by decide, by decide +kernel⟩

/-- The largest state in range, which takes two passes. -/
theorem meets_FlushEndsBelowTheThreshold :
    conf999.Legal ∧ 4 ≤ 2 ^ 29 - 1 ∧ conf999.totalFreq.toNat ≤ (16777215 : Word).toNat ∧
      (16777215 : Word).toNat < conf999.totalFreq.toNat * 256 ∧
      ∃ r', flush 4 conf999 false (flushFuel 4) { out := empty, st := 16777215 } = .ok r' := by
  have h : (flush 4 conf999 false (flushFuel 4) { out := empty, st := 16777215 }).toOption.isSome = true := by
    decide +kernel
  refine ⟨conf999_legal, by decide, by decide +kernel, by decide +kernel, ?_⟩
  cases hf : flush 4 conf999 false (flushFuel 4) { out := empty, st := 16777215 } with
  | ok r' => exact ⟨r', rfl⟩
  | error e => rw [hf] at h; cases h

theorem meets_RansEncoderCompletesWithRoom :
    (configured conf999 (machine 3 0 0 (one 0x01 1) empty)).params.wf = true ∧
      ((configured conf999 (machine 3 0 0 (one 0x01 1) empty)).buf (BufSel.other .b0)).bytes.wf = true ∧
      (configured conf999 (machine 3 0 0 (one 0x01 1) empty)).status.cfgv = true ∧
      (configured conf999 (machine 3 0 0 (one 0x01 1) empty)).rans.Legal ∧
      3 * ((configured conf999 (machine 3 0 0 (one 0x01 1) empty)).buf .b0).len.toNat ≤
        (configured conf999 (machine 3 0 0 (one 0x01 1) empty)).params.capBytes :=
  ⟨by decide +kernel, by decide +kernel, rfl, conf999_legal, by decide +kernel⟩

theorem meets_RansEncodesTheEmptyMessageAsNoBytes :
    (configured conf12 (machine 1 0 0 empty (zeros 8))).status.cfgv = true ∧
      ((configured conf12 (machine 1 0 0 empty (zeros 8))).buf .b0).len = 0 := ⟨rfl, rfl⟩

theorem meets_RansDecoderAlwaysCompletes :
    ((configured conf12 (machine 4 0 0 (zeros 8) (one 0x80 8))).buf (BufSel.other .b1)).bytes.wf = true ∧
      (configured conf12 (machine 4 0 0 (zeros 8) (one 0x80 8))).status.cfgv = true := ⟨by decide +kernel, rfl⟩

theorem meets_RansRoundTrip :
    (configured conf12 (machine 4 0 0 (one 0x0F 8) empty)).params.wf = true ∧
      (configured conf12 (machine 4 0 0 (one 0x0F 8) empty)).BytesOk ∧
      (configured conf12 (machine 4 0 0 (one 0x0F 8) empty)).status.cfgv = true ∧
      (configured conf12 (machine 4 0 0 (one 0x0F 8) empty)).rans.Legal ∧
      ∃ t u v, exec (.ransEnc .b0) (configured conf12 (machine 4 0 0 (one 0x0F 8) empty)) = .next t ∧
        t.status.fault = false ∧
        exec (.bbNew .b0) { t with arg0 := 8 } = .next u ∧ u.status.fault = false ∧
        exec (.ransDec .b1) { u with arg0 := t.res0 } = .next v ∧ v.status.fault = false := by
  refine ⟨by decide +kernel, fun sel => by cases sel <;> decide +kernel, rfl, conf12_legal, ?_⟩
  have h : clean (after (exec (.ransEnc .b0) (configured conf12 (machine 4 0 0 (one 0x0F 8) empty))) fun t =>
      after (exec (.bbNew .b0) { t with arg0 := 8 }) fun u =>
        exec (.ransDec .b1) { u with arg0 := t.res0 }) = true := by decide +kernel
  have h1 : clean (exec (.ransEnc .b0) (configured conf12 (machine 4 0 0 (one 0x0F 8) empty))) = true := by
    decide +kernel
  have h2 : clean (after (exec (.ransEnc .b0) (configured conf12 (machine 4 0 0 (one 0x0F 8) empty))) fun t =>
      exec (.bbNew .b0) { t with arg0 := 8 }) = true := by decide +kernel
  obtain ⟨t, ht, hft⟩ := clean_next h1
  rw [ht] at h h2
  obtain ⟨u, hu, hfu⟩ := clean_next h2
  change exec (.bbNew .b0) { t with arg0 := 8 } = .next u at hu
  change clean (after (exec (.bbNew .b0) { t with arg0 := 8 }) fun u =>
    exec (.ransDec .b1) { u with arg0 := t.res0 }) = true at h
  rw [hu] at h
  obtain ⟨v, hv, hfv⟩ := clean_next h
  exact ⟨t, u, v, ht, hft, hu, hfu, hv, hfv⟩

/-- `R = TBL_RMAX`. -/
theorem meets_BldeFillsTheEncodeTable :
    ({ configured conf12 (machine 4 0 0 empty empty) with params := { capBytes := 4, tblRmax := 8 } } :
        State).status.cfgv = true ∧
      ({ configured conf12 (machine 4 0 0 empty empty) with params := { capBytes := 4, tblRmax := 8 } } :
        State).rans.r.toNat ≤ 8 := ⟨rfl, by decide +kernel⟩

theorem meets_BldeFillsTheEncodeTable_faults :
    State.reset.status.cfgv = false ∧
      ({ configured conf12 (machine 4 0 0 empty empty) with params := { capBytes := 4, tblRmax := 7 } } :
        State).status.cfgv = true ∧
      7 < ({ configured conf12 (machine 4 0 0 empty empty) with params := { capBytes := 4, tblRmax := 7 } } :
        State).rans.r.toNat := ⟨rfl, rfl, by decide +kernel⟩

/-- The faults are met as for `RANS.BLDE`. -/
theorem meets_BlddFillsTheDecodeTable :
    (configured conf38 (machine 4 0 0 empty empty)).status.cfgv = true ∧
      (configured conf38 (machine 4 0 0 empty empty)).rans.Legal ∧
      (configured conf38 (machine 4 0 0 empty empty)).rans.r.toNat ≤
        (configured conf38 (machine 4 0 0 empty empty)).params.tblRmax := ⟨rfl, conf38_legal, by decide +kernel⟩

theorem meets_TableEncodeEqualsComputeEncode :
    (configured conf38 (machine 3 0 0 (one 0x01 1) empty)).params.wf = true ∧
      ((configured conf38 (machine 3 0 0 (one 0x01 1) empty)).buf (BufSel.other .b0)).bytes.wf = true ∧
      (configured conf38 (machine 3 0 0 (one 0x01 1) empty)).status.cfgv = true ∧
      (configured conf38 (machine 3 0 0 (one 0x01 1) empty)).status.etv = true ∧
      (configured conf38 (machine 3 0 0 (one 0x01 1) empty)).rans.Legal ∧
      (configured conf38 (machine 3 0 0 (one 0x01 1) empty)).encTable.filledFrom =
        (configured conf38 (machine 3 0 0 (one 0x01 1) empty)).rans ∧
      3 * ((configured conf38 (machine 3 0 0 (one 0x01 1) empty)).buf .b0).len.toNat ≤
        (configured conf38 (machine 3 0 0 (one 0x01 1) empty)).params.capBytes :=
  ⟨by decide +kernel, by decide +kernel, rfl, rfl, conf38_legal, rfl, by decide +kernel⟩

/-- The largest state inside the table. -/
theorem meets_TableDecodeEqualsComputeDecode :
    (configured conf38 (machine 4 1023 0 (zeros 4) empty)).status.cfgv = true ∧
      (configured conf38 (machine 4 1023 0 (zeros 4) empty)).status.dtv = true ∧
      (configured conf38 (machine 4 1023 0 (zeros 4) empty)).rans.Legal ∧
      (configured conf38 (machine 4 1023 0 (zeros 4) empty)).decTable.filledFrom =
        (configured conf38 (machine 4 1023 0 (zeros 4) empty)).rans ∧
      (configured conf38 (machine 4 1023 0 (zeros 4) empty)).arg0.toNat <
        (configured conf38 (machine 4 1023 0 (zeros 4) empty)).rans.totalFreq.toNat * 256 :=
  ⟨rfl, rfl, conf38_legal, rfl, by decide +kernel⟩

theorem meets_CommandsLeaveOtherUnitsAlone :
    ∃ t, exec (.ransEnc .b0) (configured conf12 (machine 4 0 0 (one 0x0F 8) empty)) = .next t ∧
      t.res0 = 387 := by
  obtain ⟨t, ht, h⟩ := next_of_check (r := exec (.ransEnc .b0) (configured conf12 (machine 4 0 0 (one 0x0F 8) empty)))
    (p := fun t => t.res0 == 387) (by decide +kernel)
  exact ⟨t, ht, by simpa using h⟩

/-- A machine with every unit set up, bytes in a buffer, and a command to come. -/
def ready : State :=
  queued [.writeCmd 0x00000551]
    { configured conf12 (machine 4 387 (1 / 2) alternating (one 0x0F 8)) with
      fdg := { d := 7, mul := 0x124924925, shift := 35 }, fmgM := 0x100000000
      status := { Status.zero with cfgv := true, etv := true, dtv := true, fdgv := true, fmgv := true } }

theorem ready_meets_the_invariant : ready.Inv where
  params := by decide +kernel
  bytes := fun sel => by cases sel <;> decide +kernel
  lens := fun _ sel => by cases sel <;> decide +kernel
  cause_none := fun _ => rfl
  cause_some := fun h => by cases h
  fdg := fun _ => by show _ = _; decide +kernel
  fmg := fun _ => by decide +kernel
  rans := fun _ => conf12_legal
  enc := fun _ => ⟨rfl, rfl, by decide +kernel⟩
  dec := fun _ => ⟨rfl, rfl, by decide +kernel⟩

theorem meets_StepKeepsTheInvariant : ready.Inv ∧ ∃ t, step ready = .next t ∧ t.status.etv = true :=
  ⟨ready_meets_the_invariant, next_of_check (p := fun t => t.status.etv) (by decide +kernel)⟩

end Sys2Proof.Tests
end

section
/-! PROOFS. The layout of `STATUS` (`10_state.md` R24). -/

namespace Sys2Proof.Machine

/-- Bit `i` of a word as a digit of its number. -/
theorem Word.getLsbD_of_digit {w : Word} {i : Nat} {b : Bool} (h : w.toNat / 2 ^ i % 2 = b.toNat) :
    w.getLsbD i = b := by
  rw [BitVec.getLsbD, Nat.testBit_eq_decide_div_mod_eq, h]
  cases b <;> rfl

/-- A field of a word as a group of digits of its number. -/
theorem Word.extractLsb'_of_digits {w : Word} {i n : Nat} {v : BitVec n} (h : w.toNat / 2 ^ i % 2 ^ n = v.toNat) :
    w.extractLsb' i n = v :=
  BitVec.eq_of_toNat_eq (by rw [BitVec.extractLsb'_toNat, Nat.shiftRight_eq_div_pow, h])

/-- The fields are groups of binary digits of the sum that makes the word, of which 32 bits lose nothing. -/
theorem Status.toWord_digits (st : Status) :
    st.toWord.toNat / 2 ^ 0 % 2 = st.fault.toNat ∧ st.toWord.toNat / 2 ^ 1 % 2 ^ 8 = st.cause.toNat ∧
    st.toWord.toNat / 2 ^ 9 % 2 = st.cfgv.toNat ∧ st.toWord.toNat / 2 ^ 10 % 2 = st.etv.toNat ∧
    st.toWord.toNat / 2 ^ 11 % 2 = st.dtv.toNat ∧ st.toWord.toNat / 2 ^ 12 % 2 = st.fdgv.toNat ∧
    st.toWord.toNat / 2 ^ 13 % 2 = st.fmgv.toNat ∧ st.toWord.toNat / 2 ^ 14 % 2 ^ 18 = 0 := by
  have hfault := Bool.toNat_le st.fault
  have hcause := st.cause.isLt
  have hcfgv := Bool.toNat_le st.cfgv
  have hetv := Bool.toNat_le st.etv
  have hdtv := Bool.toNat_le st.dtv
  have hfdgv := Bool.toNat_le st.fdgv
  have hfmgv := Bool.toNat_le st.fmgv
  simp only [Status.toWord, BitVec.toNat_ofNat, Nat.pow_zero, Nat.div_one]
  omega

/-- Settles O10: each field is the group of digits that `Status.toWord_digits` finds at its place. -/
theorem statusWordLayout : Obligations.StatusWordLayout := by
  intro st
  obtain ⟨hfault, hcause, hcfgv, hetv, hdtv, hfdgv, hfmgv, hrest⟩ := st.toWord_digits
  exact ⟨Word.getLsbD_of_digit hfault, Word.extractLsb'_of_digits hcause, Word.getLsbD_of_digit hcfgv,
    Word.getLsbD_of_digit hetv, Word.getLsbD_of_digit hdtv, Word.getLsbD_of_digit hfdgv,
    Word.getLsbD_of_digit hfmgv, Word.extractLsb'_of_digits hrest⟩

end Sys2Proof.Machine
end

section
/-! PROOFS. What a command leaves alone (`10_state.md` R22 to R33, `46_sequencing_and_system.md` R265): the frame as
a structure, one rule per update that a meaning makes, and every command as a chain of such updates. -/

namespace Sys2Proof.Machine

/-- `t` differs from `s` only where the command `i` may write. -/
structure LeavesAlone (i : Instr) (s t : State) : Prop where
  arg0 : t.arg0 = s.arg0
  prob : t.prob = s.prob
  inbox : t.inbox = s.inbox
  params : t.params = s.params
  res0 : namesRes0 i = false → t.res0 = s.res0
  res1 : namesRes1 i = false → t.res1 = s.res1
  buf : ∀ sel, writtenBuf i ≠ some sel → t.buf sel = s.buf sel
  fdg : i ≠ .fdivSetup → t.fdg = s.fdg ∧ t.status.fdgv = s.status.fdgv
  fmg : i ≠ .fmulSetup → t.fmgM = s.fmgM ∧ t.status.fmgv = s.status.fmgv
  bac : (∀ dir, i ≠ .bacEnc dir ∧ i ≠ .bacDec dir) → t.bac = s.bac
  rans : i ≠ .ransCfg → t.rans = s.rans ∧ t.status.cfgv = s.status.cfgv
  ransState : (∀ dir, i ≠ .ransEnc dir ∧ i ≠ .ransEnct dir ∧ i ≠ .ransDec dir ∧ i ≠ .ransDect dir) →
    t.ransState = s.ransState
  ransReadPos : (∀ dir, i ≠ .ransDec dir ∧ i ≠ .ransDect dir) → t.ransReadPos = s.ransReadPos
  enc : i ≠ .ransBlde → t.encTable = s.encTable ∧ (i ≠ .ransCfg → t.status.etv = s.status.etv)
  dec : i ≠ .ransBldd → t.decTable = s.decTable ∧ (i ≠ .ransCfg → t.status.dtv = s.status.dtv)
  fault : s.status.fault = true → t.status.fault = true

namespace LeavesAlone

variable {i : Instr} {s t : State}

theorem refl (i : Instr) (s : State) : LeavesAlone i s s where
  arg0 := rfl
  prob := rfl
  inbox := rfl
  params := rfl
  res0 _ := rfl
  res1 _ := rfl
  buf _ _ := rfl
  fdg _ := ⟨rfl, rfl⟩
  fmg _ := ⟨rfl, rfl⟩
  bac _ := rfl
  rans _ := ⟨rfl, rfl⟩
  ransState _ := rfl
  ransReadPos _ := rfl
  enc _ := ⟨rfl, fun _ => rfl⟩
  dec _ := ⟨rfl, fun _ => rfl⟩
  fault := id

/-- Any command may fault. -/
theorem raise (h : LeavesAlone i s t) (c : Cause) : LeavesAlone i s (t.raise c) :=
  { h with fault := fun _ => rfl }

/-- `freeCount` is the model's own field. -/
theorem setFreeCount (h : LeavesAlone i s t) (n : Nat) : LeavesAlone i s { t with freeCount := n } :=
  { h with }

theorem setRes0 (h : LeavesAlone i s t) (hi : namesRes0 i = true) (v : Word) :
    LeavesAlone i s { t with res0 := v } :=
  { h with res0 := by simp [hi] }

theorem setResults (h : LeavesAlone i s t) (hi0 : namesRes0 i = true) (hi1 : namesRes1 i = true) (v w : Word) :
    LeavesAlone i s { t with res0 := v, res1 := w } :=
  { h with res0 := by simp [hi0], res1 := by simp [hi1] }

theorem setBuf (h : LeavesAlone i s t) {sel : BufSel} (hi : writtenBuf i = some sel) (b : Buffer) :
    LeavesAlone i s (t.setBuf sel b) := by
  have hbuf : ∀ sel', writtenBuf i ≠ some sel' → (t.setBuf sel b).buf sel' = s.buf sel' := by
    intro sel' hne
    rw [State.buf_setBuf_eq, if_neg (by rintro rfl; exact hne hi), h.buf sel' hne]
  cases sel <;> exact { h with buf := hbuf }

theorem freeOut (h : LeavesAlone i s t) {o : BufSel} (hi : writtenBuf i = some o) :
    LeavesAlone i s (t.freeOut o) :=
  (h.setBuf hi _).setFreeCount _

theorem setBac (h : LeavesAlone i s t) {dir : BufSel} (hi : i = .bacEnc dir ∨ i = .bacDec dir) (b : Bac) :
    LeavesAlone i s { t with bac := b } :=
  { h with bac := fun hn => absurd hi (not_or.mpr (hn dir)) }

theorem setRansEnc (h : LeavesAlone i s t) {dir : BufSel} (hi : i = .ransEnc dir ∨ i = .ransEnct dir) (v w : Word) :
    LeavesAlone i s { t with ransState := v, res0 := w } :=
  { h with
    res0 := by rcases hi with rfl | rfl <;> exact nofun
    ransState := fun hn => absurd hi (not_or.mpr ⟨(hn dir).1, (hn dir).2.1⟩) }

theorem setRansDec (h : LeavesAlone i s t) {dir : BufSel} (hi : i = .ransDec dir ∨ i = .ransDect dir) (v w : Word) :
    LeavesAlone i s { t with ransState := v, ransReadPos := w } :=
  { h with
    ransState := fun hn => absurd hi (not_or.mpr (hn dir).2.2)
    ransReadPos := fun hn => absurd hi (not_or.mpr (hn dir)) }

theorem fdivSetup (s : State) (D : FdDesc) :
    LeavesAlone .fdivSetup s { s with fdg := D, status := s.status.setFdgv } :=
  { refl _ s with fdg := fun hn => absurd rfl hn }

theorem fmulSetup (s : State) (m : BitVec 33) :
    LeavesAlone .fmulSetup s { s with fmgM := m, status := s.status.setFmgv } :=
  { refl _ s with fmg := fun hn => absurd rfl hn }

/-- `RANS.CFG` also clears the valid flags of both tables. -/
theorem ransCfg (s : State) (c : RansConf) :
    LeavesAlone .ransCfg s { s with rans := c, status := s.status.configured } :=
  { refl _ s with
    rans := fun hn => absurd rfl hn
    enc := fun _ => ⟨rfl, fun hn => absurd rfl hn⟩
    dec := fun _ => ⟨rfl, fun hn => absurd rfl hn⟩ }

theorem ransBlde (s : State) (T : EncTable) :
    LeavesAlone .ransBlde s { s with encTable := T, status := s.status.setEtv } :=
  { refl _ s with enc := fun hn => absurd rfl hn }

theorem ransBldd (s : State) (T : DecTable) :
    LeavesAlone .ransBldd s { s with decTable := T, status := s.status.setDtv } :=
  { refl _ s with dec := fun hn => absurd rfl hn }

/-- The end of a rANS encoder, with its results or its fault in the middle. -/
theorem finishRansEnc {dir : BufSel} {x : Except Cause RansRun} (hi : i = .ransEnc dir ∨ i = .ransEnct dir)
    (h : finishRansEnc s dir.other x = .next t) : LeavesAlone i s t := by
  have hout : writtenBuf i = some dir.other := by rcases hi with rfl | rfl <;> rfl
  obtain ⟨c, -, rfl⟩ | ⟨r, -, rfl⟩ := finishRansEnc_cases h
  · exact (((refl i s).freeOut hout).setRansEnc hi _ _).raise c
  · exact ((refl i s).setBuf hout _).setRansEnc hi _ _

/-- The end of a rANS decoder. -/
theorem finishRansDec {dir : BufSel} {r : RansDecRun} (hi : i = .ransDec dir ∨ i = .ransDect dir)
    (h : finishRansDec s dir.other r = .next t) : LeavesAlone i s t := by
  have hout : writtenBuf i = some dir.other := by rcases hi with rfl | rfl <;> rfl
  injection h with h
  subst h
  exact ((refl i s).setBuf hout _).setRansDec hi _ _

end LeavesAlone

/-- Every command changes only what it may write. -/
theorem exec_leavesAlone {i : Instr} {s t : State} (h : exec i s = .next t) : LeavesAlone i s t := by
  have hs := LeavesAlone.refl i s
  cases i with
  | bbNew sel =>
    obtain ⟨-, rfl⟩ | ⟨-, rfl⟩ := execBbNew_cases h
    · exact hs.raise _
    · exact hs.setBuf rfl _
  | bbRd sel =>
    obtain ⟨-, rfl⟩ | ⟨-, rfl⟩ := execBbRd_cases h
    · exact hs.raise _
    · exact hs.setRes0 rfl _
  | bbWr sel b =>
    obtain ⟨-, rfl⟩ | ⟨-, rfl⟩ := execBbWr_cases h
    · exact hs.raise _
    · exact hs.setBuf rfl _
  | bbLen sel =>
    obtain rfl := execBbLen_cases h
    exact hs.setResults rfl rfl _ _
  | bbByte sel =>
    obtain ⟨-, rfl⟩ | ⟨-, rfl⟩ := execBbByte_cases h
    · exact hs.raise _
    · exact hs.setRes0 rfl _
  | bsNew sel =>
    obtain rfl := execBsNew_cases h
    exact hs.setBuf rfl _
  | bsApp sel b =>
    obtain ⟨-, rfl⟩ | ⟨o, -, rfl⟩ := execBsApp_cases h
    · exact hs.raise _
    · exact hs.setBuf rfl _
  | fdivSetup =>
    obtain ⟨-, rfl⟩ | ⟨-, rfl⟩ := execFdivSetup_cases h
    · exact hs.raise _
    · exact .fdivSetup s _
  | fdivDiv =>
    obtain ⟨-, rfl⟩ | ⟨-, -, rfl⟩ | ⟨-, -, rfl⟩ := execFdivDiv_cases h
    · exact hs.raise _
    · exact hs.raise _
    · exact hs.setRes0 rfl _
  | fdivDivmod =>
    obtain ⟨-, rfl⟩ | ⟨-, -, rfl⟩ | ⟨-, -, rfl⟩ := execFdivDivmod_cases h
    · exact hs.raise _
    · exact hs.raise _
    · exact hs.setResults rfl rfl _ _
  | fmulSetup =>
    obtain ⟨-, rfl⟩ | ⟨f, -, rfl⟩ := execFmulSetup_cases h
    · exact hs.raise _
    · exact .fmulSetup s _
  | fmulMul =>
    obtain ⟨-, rfl⟩ | ⟨-, rfl⟩ := execFmulMul_cases h
    · exact hs.raise _
    · exact hs.setRes0 rfl _
  | bacEnc dir =>
    obtain ⟨-, rfl⟩ | ⟨p, -, ⟨c, -, rfl⟩ | ⟨r, -, rfl⟩⟩ := execBacEnc_cases h
    · exact hs.raise _
    · exact ((hs.freeOut rfl).setBac (.inl rfl) _).raise c
    · exact (hs.setBuf rfl _).setBac (.inl rfl) _
  | bacDec dir =>
    obtain ⟨-, rfl⟩ | ⟨p, -, rfl⟩ := execBacDec_cases h
    · exact hs.raise _
    · exact (hs.setBuf rfl _).setBac (.inr rfl) _
  | ransCfg =>
    obtain ⟨-, rfl⟩ | ⟨p, -, ⟨-, rfl⟩ | ⟨-, -, rfl⟩⟩ := execRansCfg_cases h
    · exact hs.raise _
    · exact hs.raise _
    · exact .ransCfg s _
  | ransEnc dir =>
    obtain ⟨-, rfl⟩ | ⟨-, hf⟩ := execRansEnc_cases h
    · exact hs.raise _
    · exact .finishRansEnc (.inl rfl) hf
  | ransEnct dir =>
    obtain ⟨-, rfl⟩ | ⟨-, -, rfl⟩ | ⟨-, -, hf⟩ := execRansEnct_cases h
    · exact hs.raise _
    · exact hs.raise _
    · exact .finishRansEnc (.inr rfl) hf
  | ransDec dir =>
    obtain ⟨-, rfl⟩ | ⟨-, hf⟩ := execRansDec_cases h
    · exact hs.raise _
    · exact .finishRansDec (.inl rfl) hf
  | ransDect dir =>
    obtain ⟨-, rfl⟩ | ⟨-, -, rfl⟩ | ⟨-, -, -, rfl⟩ | ⟨-, -, -, hf⟩ := execRansDect_cases h
    · exact hs.raise _
    · exact hs.raise _
    · exact hs.raise _
    · exact .finishRansDec (.inr rfl) hf
  | ransBlde =>
    obtain ⟨-, rfl⟩ | ⟨-, -, rfl⟩ | ⟨-, -, rfl⟩ := execRansBlde_cases h
    · exact hs.raise _
    · exact hs.raise _
    · exact .ransBlde s _
  | ransBldd =>
    obtain ⟨-, rfl⟩ | ⟨-, -, rfl⟩ | ⟨-, -, rfl⟩ := execRansBldd_cases h
    · exact hs.raise _
    · exact hs.raise _
    · exact .ransBldd s _

/-- Settles O53: the fields of `exec_leavesAlone`. -/
theorem commandsLeaveOtherUnitsAlone : Obligations.CommandsLeaveOtherUnitsAlone := by
  intro i s t h
  have k := exec_leavesAlone h
  exact ⟨k.arg0, k.prob, k.inbox, k.params, k.res0, k.res1, k.buf, k.fdg, k.fmg, k.bac, k.rans, k.ransState,
    k.ransReadPos, k.enc, k.dec, k.fault⟩

end Sys2Proof.Machine
end

section
/-! PROOFS. Every step keeps the invariant of the machine (`10_state.md` R37): the values that the setup commands store
are legal, what each command writes into a buffer fits it, and so every command, every host action and every step
keeps the invariant. -/

namespace Sys2Proof.Machine

/-! ### Legal values -/

/-- What `FDIV.SETUP` stores is a descriptor of R130. -/
theorem fdDesc_legal {d : Nat} (h : d < 2147483648) : (fdDesc d).Legal := by
  unfold FdDesc.Legal
  rcases Nat.eq_zero_or_pos d with rfl | hpos
  · rfl
  · rw [(fdDesc_toNat hpos h).1]

/-- What `FMUL.SETUP` stores is at most `2^32`, so that nothing is lost in 33 bits. -/
theorem fmgM_le {f : ℚ} (h : f ≤ 1) : (BitVec.ofNat 33 (fmSetup f)).toNat ≤ 4294967296 := by
  rw [BitVec.toNat_ofNat]
  exact (Nat.mod_le _ _).trans (fmSetup_le h)

/-- The registers of R200 are legal for every `f0` that leaves both symbols a frequency. -/
theorem confOf_legal {r f0 : Nat} (h2 : 2 ≤ r) (h23 : r ≤ 23) (h0 : 1 ≤ f0) (h1 : f0 ≤ 2 ^ r - 1) :
    (confOf r f0).Legal := by
  obtain ⟨er, et, ef0, ef1, ec0, ec1, eh0, eh1, ed0, ed1⟩ := confOf_toNat h2 h23 h0 h1
  have hf0 : (confOf r f0).freq false = f0 := ef0
  have hf1 : (confOf r f0).freq true = 2 ^ r - f0 := ef1
  exact
  { r_range := by rw [er]; exact ⟨h2, h23⟩
    totalFreq_eq := by rw [et, er]
    freq_sum := by rw [hf0, hf1, et]; omega
    freq_pos := fun sym => by cases sym <;> omega
    cum_zero := ec0
    cum_one := ec1.trans hf0.symm
    thr_eq := fun sym => by
      cases sym
      · rw [hf0]; exact eh0
      · rw [hf1]; exact eh1
    fd_eq := fun sym => by
      cases sym
      · rw [hf0]; exact ed0
      · rw [hf1]; exact ed1 }

/-- What `RANS.CFG` stores is a legal configuration. -/
theorem ransConf_legal (p : ℚ) {r : Nat} (h2 : 2 ≤ r) (h23 : r ≤ 23) : (ransConf p r).Legal := by
  have ht : 2 ≤ 2 ^ r := Nat.le_self_pow (by omega) 2
  obtain ⟨h0, h1⟩ := freqZero_bounds p ht
  exact confOf_legal h2 h23 h0 h1

/-! ### What the coders write fits their out-buffer -/

theorem bacEncode_out_ok {cap : Nat} (hc : cap ≤ 536870911) {inp out : Buffer} {b : Bac} {p : ℚ} {r : BacRun}
    (hb : out.Ok cap) (h : bacEncode cap inp out b p = .ok r) : r.out.Ok cap :=
  (bacEncode_ok hc hb.wf h).2.ok hb (bacEncode_len_le hc h)

theorem bacDecode_out_ok {cap : Nat} (hc : cap ≤ 536870911) {inp out : Buffer} {b : Bac} {p : ℚ}
    (hb : out.Ok cap) (hl : out.len.toNat ≤ 8 * cap) : (bacDecode inp out b p).out.Ok cap :=
  decSymbols_ok inp _ cap hb (by show 0 + _ ≤ _; omega) hc

theorem ransDecode_out_ok {cap : Nat} {c : RansConf} {tr : Word → Word × Bool} {inp out : Buffer} {x : Word}
    (hb : out.Ok cap) (hl : out.len.toNat ≤ 8 * cap) : (ransDecode c tr inp out x).out.Ok cap :=
  ransDecSymbols_ok c tr inp _ hb hl

theorem ransDecode_out_len {c : RansConf} {tr : Word → Word × Bool} {inp out : Buffer} {x : Word}
    (hb : out.bytes.wf = true) : (ransDecode c tr inp out x).out.len = out.len :=
  (ransDecSymbols_out c tr inp _ hb).2.1

/-! ### Commands

A register that the invariant does not speak of may change: every clause then stands as it is, `{ h with }`. -/

section
variable {s t : State}

theorem State.Inv.capBytes_le (h : s.Inv) : s.params.capBytes ≤ 536870911 := by
  have := h.params
  simp only [Params.wf, Bool.and_eq_true, decide_eq_true_eq] at this
  omega

/-- Both buffers are in canonical form and inside the capacity. -/
theorem State.Inv.buf_ok (h : s.Inv) (sel : BufSel) : (s.buf sel).Ok s.params.capBytes :=
  ⟨(h.bytes sel).1, (h.bytes sel).2⟩

/-- A fault in the middle of an encoder keeps the invariant. -/
theorem State.Inv.freeOut (h : s.Inv) (o : BufSel) (c : Cause) : ((s.freeOut o).raise c).Inv :=
  h.freed o c (by simp) (by simp) (by cases o <;> rfl) (by simp) (by simp) (by simp) (by simp) (by simp) (by simp)

/-- The end of a rANS encoder, with its results or its fault in the middle. -/
theorem State.Inv.finishRansEnc (h : s.Inv) {dir : BufSel} {c : RansConf} {tr : Word → Bool → Word} {inp : Buffer}
    (ht : finishRansEnc s dir.other (ransEncode s.params.capBytes c tr inp (s.buf dir.other)) = .next t) :
    t.Inv := by
  obtain ⟨c, -, rfl⟩ | ⟨r, hr, rfl⟩ := finishRansEnc_cases ht
  · exact { h.freeOut dir.other c with }
  · have hout := h.setBuf dir.other (ransEncode_out_ok h.capBytes_le (h.buf_ok _) hr)
      fun _ => ransEncode_len_le h.capBytes_le hr
    exact { hout with }

/-- The end of a rANS decoder. -/
theorem State.Inv.finishRansDec (h : s.Inv) (hf : s.status.fault = false) {dir : BufSel} {c : RansConf}
    {tr : Word → Word × Bool} {inp : Buffer} {x : Word}
    (ht : finishRansDec s dir.other (ransDecode c tr inp (s.buf dir.other) x) = .next t) : t.Inv := by
  have hlen := h.lens hf dir.other
  have hout := h.setBuf dir.other (ransDecode_out_ok (c := c) (tr := tr) (inp := inp) (x := x) (h.buf_ok _) hlen)
    fun _ => by rw [ransDecode_out_len (h.buf_ok _).wf]; exact hlen
  injection ht with ht
  subst ht
  exact { hout with }

/-- Every command that runs keeps the invariant; none runs while a fault is recorded. -/
theorem State.Inv.exec (h : s.Inv) (hf : s.status.fault = false) {i : Instr} (ht : exec i s = .next t) : t.Inv := by
  have hcap := h.capBytes_le
  have hlen := h.lens hf
  cases i with
  | bbNew sel =>
    obtain ⟨-, rfl⟩ | ⟨hn, rfl⟩ := execBbNew_cases ht
    · exact h.raise _
    · obtain ⟨hwf, hwithin⟩ := h.buf_ok sel
      exact h.setBuf sel ⟨Memory.wf_clearBelow hwf _, Memory.within_clearBelow hwithin _⟩ fun _ => hn
  | bbRd sel =>
    obtain ⟨-, rfl⟩ | ⟨-, rfl⟩ := execBbRd_cases ht
    · exact h.raise _
    · exact { h with }
  | bbWr sel b =>
    obtain ⟨-, rfl⟩ | ⟨hi, rfl⟩ := execBbWr_cases ht
    · exact h.raise _
    · exact h.setBuf sel ((h.buf_ok sel).bitWrite (hi.trans_le (hlen sel)) b) fun _ => hlen sel
  | bbLen sel =>
    obtain rfl := execBbLen_cases ht
    exact { h with }
  | bbByte sel =>
    obtain ⟨-, rfl⟩ | ⟨-, rfl⟩ := execBbByte_cases ht
    · exact h.raise _
    · exact { h with }
  | bsNew sel =>
    obtain rfl := execBsNew_cases ht
    exact h.setBuf sel ⟨(h.buf_ok sel).wf, (h.buf_ok sel).within⟩ fun _ => Nat.zero_le _
  | bsApp sel b =>
    obtain ⟨-, rfl⟩ | ⟨o, ho, rfl⟩ := execBsApp_cases ht
    · exact h.raise _
    · have hroom := (Buffer.bitAppend_ok ho).1
      exact h.setBuf sel ((h.buf_ok sel).bitAppend ho) fun _ => by rw [Buffer.bitAppend_len hcap ho]; omega
  | fdivSetup =>
    obtain ⟨-, rfl⟩ | ⟨hd, rfl⟩ := execFdivSetup_cases ht
    · exact h.raise _
    · exact { h with fdg := fun _ => fdDesc_legal hd }
  | fdivDiv =>
    obtain ⟨-, rfl⟩ | ⟨-, -, rfl⟩ | ⟨-, -, rfl⟩ := execFdivDiv_cases ht
    · exact h.raise _
    · exact h.raise _
    · exact { h with }
  | fdivDivmod =>
    obtain ⟨-, rfl⟩ | ⟨-, -, rfl⟩ | ⟨-, -, rfl⟩ := execFdivDivmod_cases ht
    · exact h.raise _
    · exact h.raise _
    · exact { h with }
  | fmulSetup =>
    obtain ⟨-, rfl⟩ | ⟨f, hp, rfl⟩ := execFmulSetup_cases ht
    · exact h.raise _
    · obtain ⟨-, -, hf1⟩ := Prob.inUnit_ok.mp hp
      exact { h with fmg := fun _ => fmgM_le hf1 }
  | fmulMul =>
    obtain ⟨-, rfl⟩ | ⟨-, rfl⟩ := execFmulMul_cases ht
    · exact h.raise _
    · exact { h with }
  | bacEnc dir =>
    obtain ⟨-, rfl⟩ | ⟨p, -, ⟨c, -, rfl⟩ | ⟨r, hr, rfl⟩⟩ := execBacEnc_cases ht
    · exact h.raise _
    · exact { h.freeOut dir.other c with }
    · exact { h.setBuf dir.other (bacEncode_out_ok hcap (h.buf_ok _) hr) fun _ => bacEncode_len_le hcap hr with }
  | bacDec dir =>
    obtain ⟨-, rfl⟩ | ⟨p, -, rfl⟩ := execBacDec_cases ht
    · exact h.raise _
    · exact { h.setBuf dir.other (bacDecode_out_ok hcap (h.buf_ok _) (hlen _))
        fun _ => by rw [bacDecode_len]; exact hlen _ with }
  | ransCfg =>
    obtain ⟨-, rfl⟩ | ⟨p, -, ⟨-, rfl⟩ | ⟨h2, h23, rfl⟩⟩ := execRansCfg_cases ht
    · exact h.raise _
    · exact h.raise _
    · exact { h with rans := fun _ => ransConf_legal p h2 h23, enc := nofun, dec := nofun }
  | ransEnc dir =>
    obtain ⟨-, rfl⟩ | ⟨-, hfin⟩ := execRansEnc_cases ht
    · exact h.raise _
    · exact h.finishRansEnc hfin
  | ransEnct dir =>
    obtain ⟨-, rfl⟩ | ⟨-, -, rfl⟩ | ⟨-, -, hfin⟩ := execRansEnct_cases ht
    · exact h.raise _
    · exact h.raise _
    · exact h.finishRansEnc hfin
  | ransDec dir =>
    obtain ⟨-, rfl⟩ | ⟨-, hfin⟩ := execRansDec_cases ht
    · exact h.raise _
    · exact h.finishRansDec hf hfin
  | ransDect dir =>
    obtain ⟨-, rfl⟩ | ⟨-, -, rfl⟩ | ⟨-, -, -, rfl⟩ | ⟨-, -, -, hfin⟩ := execRansDect_cases ht
    · exact h.raise _
    · exact h.raise _
    · exact h.raise _
    · exact h.finishRansDec hf hfin
  | ransBlde =>
    obtain ⟨-, rfl⟩ | ⟨-, -, rfl⟩ | ⟨hv, hr, rfl⟩ := execRansBlde_cases ht
    · exact h.raise _
    · exact h.raise _
    · exact { h with enc := fun _ => ⟨hv, rfl, hr⟩ }
  | ransBldd =>
    obtain ⟨-, rfl⟩ | ⟨-, -, rfl⟩ | ⟨hv, hr, rfl⟩ := execRansBldd_cases ht
    · exact h.raise _
    · exact h.raise _
    · exact { h with dec := fun _ => ⟨hv, rfl, hr⟩ }

/-! ### Host actions and steps -/

/-- A command word that is refused, rejected or run keeps the invariant. -/
theorem State.Inv.runCommand (h : s.Inv) {w : Word} (ht : runCommand w s = .next t) : t.Inv := by
  obtain ⟨-, rfl⟩ | ⟨-, -, rfl⟩ | ⟨i, hf, -, hx⟩ := runCommand_cases ht
  · exact h
  · exact h.raise _
  · exact h.exec hf hx

/-- The state after reset meets the invariant for all parameters in range: every flag is 0 and every buffer empty. -/
theorem State.afterReset_inv (hp : s.params.wf = true) : s.afterReset.Inv where
  params := hp
  bytes sel := by rw [State.afterReset_buf]; exact ⟨rfl, rfl⟩
  lens _ sel := by rw [State.afterReset_buf]; exact Nat.zero_le _
  cause_none _ := rfl
  cause_some := nofun
  fdg := nofun
  fmg := nofun
  rans := nofun
  enc := nofun
  dec := nofun

theorem hostWriteByte_next {sel : BufSel} {k : Nat} {v : Byte} (h : hostWriteByte sel k v s = .next t) :
    k < s.params.capBytes ∧ t = s.setBuf sel { s.buf sel with bytes := (s.buf sel).bytes.write k v } := by
  unfold hostWriteByte at h
  split at h
  · injection h with h; exact ⟨‹_›, h.symm⟩
  · cases h

theorem hostWriteLen_next {sel : BufSel} {n : Word} (h : hostWriteLen sel n s = .next t) :
    n.toNat ≤ 8 * s.params.capBytes ∧ t = s.setBuf sel { s.buf sel with len := n } := by
  unfold hostWriteLen at h
  split at h
  · injection h with h; exact ⟨‹_›, h.symm⟩
  · cases h

/-- Every host action that is answered keeps the invariant. -/
theorem State.Inv.act (h : s.Inv) {a : HostAction} (ht : act a s = .next t) : t.Inv := by
  cases a with
  | writeCmd w => exact h.runCommand ht
  | writeArg0 v => injection ht with ht; subst ht; exact { h with }
  | writeProb p => injection ht with ht; subst ht; exact { h with }
  | writeByte sel k v =>
    obtain ⟨hk, rfl⟩ := hostWriteByte_next ht
    obtain ⟨hwf, hwithin⟩ := h.buf_ok sel
    exact h.setBuf sel ⟨Memory.wf_write hwf k v, Memory.within_write hwithin hk v⟩ fun hf => h.lens hf sel
  | writeLen sel n =>
    obtain ⟨hn, rfl⟩ := hostWriteLen_next ht
    exact h.setBuf sel ⟨(h.buf_ok sel).wf, (h.buf_ok sel).within⟩ fun _ => hn
  | reset => injection ht with ht; subst ht; exact State.afterReset_inv h.params

end

/-- Settles O55: a step does nothing or one host action, and the queue is no part of the invariant. -/
theorem stepKeepsTheInvariant : Obligations.StepKeepsTheInvariant := by
  intro s t h ht
  obtain ⟨-, rfl⟩ | ⟨a, rest, -, hact⟩ := step_cases ht
  · exact h
  · have hrest : ({ s with inbox := rest } : State).Inv := { h with }
    exact hrest.act hact

/-- Settles O54: `State.reset` is the state after a reset event at the default parameters, which are in range. -/
theorem resetMeetsTheInvariant : Obligations.ResetMeetsTheInvariant :=
  ⟨by decide, rfl, rfl, State.afterReset_inv (s := State.reset) (by decide)⟩

end Sys2Proof.Machine
end

section
/-! PROOFS. The host's writes between commands (`20_memory.md` R74): each is answered inside its bounds and stops the
model outside them. -/

namespace Sys2Proof.Machine

/-- The queue is no part of a buffer: the update of the queue moves inside the replacement of the buffer. -/
theorem State.with_inbox_setBuf (s : State) (l : List HostAction) (sel : BufSel) (b : Buffer) :
    { s.setBuf sel b with inbox := l } = ({ s with inbox := l } : State).setBuf sel b := by
  cases sel <;> rfl

section

variable {s : State} {sel : BufSel} {k : Nat} {v : Byte} {n : Word}

theorem hostWriteByte_inside (h : k < s.params.capBytes) :
    hostWriteByte sel k v s = .next (s.setBuf sel { s.buf sel with bytes := (s.buf sel).bytes.write k v }) :=
  if_pos h

theorem hostWriteByte_outside (h : s.params.capBytes ≤ k) :
    hostWriteByte sel k v s = .fault .hostByteOutsideBuffer :=
  if_neg (Nat.not_lt.mpr h)

theorem hostWriteLen_inside (h : n.toNat ≤ 8 * s.params.capBytes) :
    hostWriteLen sel n s = .next (s.setBuf sel { s.buf sel with len := n }) :=
  if_pos h

theorem hostWriteLen_above (h : 8 * s.params.capBytes < n.toNat) :
    hostWriteLen sel n s = .fault .hostLengthAboveCapacity :=
  if_neg (Nat.not_le.mpr h)

end

/-- Settles O9: a step is the action at the head of the queue; a register write is its own equation, and a buffer
write is answered with the buffer that `Memory.read_write` describes, or stops at its bound. -/
theorem hostWritesBetweenCommands : Obligations.HostWritesBetweenCommands := by
  refine ⟨fun s v rest hin => step_cons hin, fun s p rest hin => step_cons hin, ?_, ?_⟩
  · intro s sel k v rest hin hwf
    refine ⟨fun hk => ⟨_, (step_cons hin).trans (hostWriteByte_inside hk), ?_, ?_, fun a => ?_⟩,
      fun hk => (step_cons hin).trans (hostWriteByte_outside hk)⟩
    · rw [State.buf_setBuf, State.with_inbox_setBuf, State.buf_with_inbox]
    · simp
    · simp [Buffer.byte, Memory.read_write hwf]
  · intro s sel n rest hin
    refine ⟨fun hn => ⟨_, (step_cons hin).trans (hostWriteLen_inside hn), ?_, ?_, fun a => ?_⟩,
      fun hn => (step_cons hin).trans (hostWriteLen_above hn)⟩
    · rw [State.buf_setBuf, State.with_inbox_setBuf, State.buf_with_inbox]
    · simp
    · simp [Buffer.byte]

end Sys2Proof.Machine
end

section
/-! PROOFS. A stream built by commands (`20_memory.md` R61, R65, `40_bitbuffer.md` R115, R116): one step rule per
stream command, and the run over the appends. -/

namespace Sys2Proof.Machine

theorem decode_encode_bsNew (sel : BufSel) : decode (encode (.bsNew sel)) = .ok (.bsNew sel) := by
  cases sel <;> decide

theorem decode_encode_bsApp (sel : BufSel) (x : Bool) : decode (encode (.bsApp sel x)) = .ok (.bsApp sel x) := by
  cases sel <;> cases x <;> decide

/-- `BS.APP` stores the buffer that `BitAppend` makes. -/
theorem exec_bsApp_ok {sel : BufSel} {x : Bool} {s : State} {o : Buffer}
    (h : (s.buf sel).bitAppend s.params.capBytes x = .ok o) : exec (.bsApp sel x) s = .next (s.setBuf sel o) := by
  simp only [exec, execBsApp, h]

section

variable {s : State} {sel : BufSel} {rest : List HostAction} (hf : s.status.fault = false)

include hf

/-- With no fault recorded, the queued word of `BS.NEW` empties the stream. -/
theorem step_bsNew (hin : s.inbox = .writeCmd (encode (.bsNew sel)) :: rest) :
    step s = .next (({ s with inbox := rest } : State).setBuf sel { s.buf sel with len := 0 }) :=
  calc step s = exec (.bsNew sel) { s with inbox := rest } :=
        (step_cons hin).trans (runCommand_decoded hf (decode_encode_bsNew sel))
    _ = .next (({ s with inbox := rest } : State).setBuf sel { s.buf sel with len := 0 }) := by simp [exec, execBsNew]

/-- With no fault recorded, the queued word of `BS.APP` with room appends its bit. -/
theorem step_bsApp_ok {x : Bool} {o : Buffer} (h : (s.buf sel).bitAppend s.params.capBytes x = .ok o)
    (hin : s.inbox = .writeCmd (encode (.bsApp sel x)) :: rest) :
    step s = .next (({ s with inbox := rest } : State).setBuf sel o) :=
  calc step s = exec (.bsApp sel x) { s with inbox := rest } :=
        (step_cons hin).trans (runCommand_decoded hf (decode_encode_bsApp sel x))
    _ = .next (({ s with inbox := rest } : State).setBuf sel o) := exec_bsApp_ok (by simpa using h)

end

/-- R5: eight times the capacity fits 32 bits. -/
theorem Params.capBytes_le_of_wf {p : Params} (h : p.wf = true) : p.capBytes ≤ 536870911 := by
  simp only [Params.wf, Bool.and_eq_true, decide_eq_true_eq] at h
  omega

/-- A run over the appends of `bs`, for which there is room, appends `bs` to the buffer and changes nothing else. -/
theorem run_appendActions {sel : BufSel} (bs : List Bool) {s : State} (hp : s.params.capBytes ≤ 536870911)
    (hwf : (s.buf sel).bytes.wf = true) (hf : s.status.fault = false)
    (hroom : (s.buf sel).len.toNat + bs.length ≤ 8 * s.params.capBytes) (hin : s.inbox = appendActions sel bs) :
    ∃ o, Host.Core.run Sys2Proof.core bs.length s = .next (({ s with inbox := [] } : State).setBuf sel o) ∧
      (s.buf sel).Appended o bs := by
  induction bs generalizing s with
  | nil =>
    refine ⟨s.buf sel, ?_, .refl hwf⟩
    rw [show [] = s.inbox from hin.symm, State.setBuf_buf]
    rfl
  | cons x bs ih =>
    rw [List.length_cons] at hroom
    obtain ⟨b, happ⟩ : ∃ b, (s.buf sel).bitAppend s.params.capBytes x = .ok b :=
      ⟨_, Buffer.bitAppend_of_room (by omega)⟩
    have hone := Buffer.Appended.single hp hwf happ
    have hlen : b.len.toNat = (s.buf sel).len.toNat + 1 := hone.len
    obtain ⟨o, hrun, hrest⟩ := ih (s := ({ s with inbox := appendActions sel bs } : State).setBuf sel b)
      (by simpa using hp) (by simpa using hone.wf) (by simpa using hf) (by simp; omega) (by simp)
    rw [State.with_inbox_setBuf, State.setBuf_setBuf] at hrun
    rw [State.buf_setBuf] at hrest
    exact ⟨o, (core_run_next (step_bsApp_ok hf happ hin)).trans hrun, hone.trans hrest⟩

/-- Settles O21: `BS.NEW` leaves an empty stream, the run over the appends makes it `Buffer.Appended`, and from an
empty stream that relation reads the bits back. -/
theorem appendedStreamReadsBack : Obligations.AppendedStreamReadsBack := by
  intro sel bs s hp hwf hf hfit hin
  have hcap := Params.capBytes_le_of_wf hp
  obtain ⟨o, hrun, happ⟩ := run_appendActions (sel := sel) bs
    (s := ({ s with inbox := appendActions sel bs } : State).setBuf sel { s.buf sel with len := 0 })
    (by simpa using hcap) (by simpa using hwf) (by simpa using hf) (by simpa using hfit) (by simp)
  rw [State.with_inbox_setBuf, State.setBuf_setBuf] at hrun
  rw [State.buf_setBuf] at happ
  refine ⟨_, (core_run_next (step_bsNew hf hin)).trans hrun, ?_, ?_, fun j hj => ?_⟩
  · rw [State.buf_setBuf, State.with_inbox_setBuf]
  · simpa using happ.len
  · simpa using happ.bit_of_empty rfl hj

end Sys2Proof.Machine
end

section
/-! PROOFS. The command word (`30_encoding.md` R90 to R97): decoding and encoding are inverse to each other, and the
rows of R93 by match and mask are the commands. -/

namespace Sys2Proof

/-- Decoding gives every command back, whatever its operand fields. -/
theorem decode_encode (i : Instr) : decode (encode i) = .ok i := by
  cases i with
  | fdivSetup | fdivDiv | fdivDivmod | fmulSetup | fmulMul | ransCfg | ransBlde | ransBldd => decide
  | bbNew sel | bbRd sel | bbLen sel | bbByte sel | bsNew sel | bacEnc sel | bacDec sel
  | ransEnc sel | ransEnct sel | ransDec sel | ransDect sel => cases sel <;> decide
  | bbWr sel b | bsApp sel b => cases sel <;> cases b <;> decide

/-! ### A word that a format accepts is the word of its command -/

section

variable {w : Word} {i : Instr} {op : Nat} (hz : fieldZero w = 0) (hop : fieldOp w = op)

include hz hop

theorem encode_of_formatZ {f : Instr} (h : formatZ w f = .ok i) (he : encode f = commandWord op 0 0 0) :
    encode i = w := by
  obtain ⟨rfl, hsel, hb, ht⟩ := formatZ_ok h
  simpa [hsel, hb, ht, hop, he] using commandWord_fields hz

theorem encode_of_formatS {f : BufSel → Instr} (h : formatS w f = .ok i)
    (he : ∀ sel, encode (f sel) = commandWord op sel.toBit 0 0) : encode i = w := by
  obtain ⟨rfl, hb, ht⟩ := formatS_ok h
  simpa [hb, ht, hop, he] using commandWord_fields hz

theorem encode_of_formatSB {f : BufSel → Bool → Instr} (h : formatSB w f = .ok i)
    (he : ∀ sel b, encode (f sel b) = commandWord op sel.toBit b.toNat 0) : encode i = w := by
  obtain ⟨rfl, ht⟩ := formatSB_ok h
  simpa [ht, hop, he] using commandWord_fields hz

theorem encode_of_formatST {f g : BufSel → Instr} (h : formatST w f g = .ok i)
    (hf : ∀ sel, encode (f sel) = commandWord op sel.toBit 0 0)
    (hg : ∀ sel, encode (g sel) = commandWord op sel.toBit 0 1) : encode i = w := by
  obtain ⟨rfl, hb⟩ := formatST_ok h
  cases ht : fieldT w <;> simpa [ht, hb, hop, hf, hg] using commandWord_fields hz

end

/-- A word decodes only to the command whose word it is: the format of its row reads every bit of it. -/
theorem encode_of_decode {w : Word} {i : Instr} (h : decode w = .ok i) : encode i = w := by
  unfold decode at h
  split at h
  · cases h
  · next hz =>
    rw [not_not] at hz
    -- The alternatives of `decode`, numbered in the order of its rows, are grouped by format here.
    split at h
    case h_8 hop | h_9 hop | h_10 hop | h_11 hop | h_12 hop | h_15 hop | h_18 hop | h_19 hop =>
      exact encode_of_formatZ hz hop h rfl
    case h_1 hop | h_2 hop | h_4 hop | h_5 hop | h_6 hop | h_13 hop | h_14 hop =>
      exact encode_of_formatS hz hop h fun _ => rfl
    case h_3 hop | h_7 hop => exact encode_of_formatSB hz hop h fun _ _ => rfl
    case h_16 hop | h_17 hop => exact encode_of_formatST hz hop h (fun _ => rfl) fun _ => rfl
    case h_20 => cases h

/-- Settles O2: `decode_encode` and `encode_of_decode` are its two directions. -/
theorem decodeAndEncodeAgree : Obligations.DecodeAndEncodeAgree :=
  ⟨decode_encode, fun _ _ => encode_of_decode⟩

/-- Settles O1: the accepted words are encoded commands, and the rejected ones are decoded one by one. -/
theorem writtenCommandWordsDecode : Obligations.WrittenCommandWordsDecode :=
  ⟨decode_encode (.bbNew .b0), decode_encode (.bbByte .b1), decode_encode (.bbWr .b1 true),
    decode_encode (.bsApp .b0 true), decode_encode .fdivDivmod, decode_encode .fmulMul,
    decode_encode (.bacEnc .b1), decode_encode (.ransEnc .b0), decode_encode (.ransEnct .b1),
    decode_encode (.ransDect .b0), decode_encode .ransBldd,
    by decide, by decide, by decide, by decide, by decide, by decide⟩

/-! ### The rows of R93 by match and mask -/

/-- A word is what a mask lets through of it and the bits that the mask leaves free. -/
theorem Word.eq_match_or_free {w m mask : Word} (free : Word) (h : w &&& mask = m)
    (hfree : mask ||| free = BitVec.allOnes 32) : w = m ||| (w &&& free) := by
  rw [← h, ← BitVec.and_or_distrib_left, hfree, BitVec.and_allOnes]

/-- Bit 8 of a word is the field `sel`. -/
theorem Word.and_selBit (w : Word) : w &&& 0x100 = commandWord 0 (w.getLsbD 8).toNat 0 0 := by
  have h : w &&& 0x100 = if w.getLsbD 8 then 0x100 else 0 := BitVec.and_twoPow w 8
  cases hsel : w.getLsbD 8 <;> rw [h, hsel] <;> rfl

/-- Bit 9 of a word is the field `b`. -/
theorem Word.and_bBit (w : Word) : w &&& 0x200 = commandWord 0 0 (w.getLsbD 9).toNat 0 := by
  have h : w &&& 0x200 = if w.getLsbD 9 then 0x200 else 0 := BitVec.and_twoPow w 9
  cases hb : w.getLsbD 9 <;> rw [h, hb] <;> rfl

section

variable {w : Word}

/-- The mask of the format `Z` leaves nothing free. -/
theorem encode_eq_of_fullMask {i : Instr} (h : w &&& i.rowMask = i.rowMatch) (hmask : i.rowMask = 0xFFFFFFFF)
    (henc : encode i = i.rowMatch) : encode i = w := by
  rw [henc, ← h, hmask]
  exact BitVec.and_allOnes

/-- The mask of the formats `S` and `ST` leaves `sel` free. -/
theorem exists_encode_of_selMask {f : BufSel → Instr} {y : BufSel} (h : w &&& (f y).rowMask = (f y).rowMatch)
    (hmask : (f y).rowMask = 0xFFFFFEFF)
    (henc : ∀ sel, encode (f sel) = (f y).rowMatch ||| commandWord 0 sel.toBit 0 0) :
    ∃ sel, encode (f sel) = w := by
  refine ⟨BufSel.ofBit (w.getLsbD 8), ?_⟩
  rw [henc, BufSel.toBit_ofBit, ← Word.and_selBit]
  exact (Word.eq_match_or_free _ h (by rw [hmask]; rfl)).symm

/-- The mask of the format `SB` leaves `sel` and `b` free. -/
theorem exists_encode_of_selBMask {f : BufSel → Bool → Instr} {y : BufSel} {x : Bool}
    (h : w &&& (f y x).rowMask = (f y x).rowMatch) (hmask : (f y x).rowMask = 0xFFFFFCFF)
    (henc : ∀ sel b,
      encode (f sel b) = (f y x).rowMatch ||| (commandWord 0 sel.toBit 0 0 ||| commandWord 0 0 b.toNat 0)) :
    ∃ sel b, encode (f sel b) = w := by
  refine ⟨BufSel.ofBit (w.getLsbD 8), w.getLsbD 9, ?_⟩
  rw [henc, BufSel.toBit_ofBit, ← Word.and_selBit, ← Word.and_bBit, ← BitVec.and_or_distrib_left]
  exact (Word.eq_match_or_free _ h (by rw [hmask]; rfl)).symm

/-- A word that meets the match and mask of a row is the word of a command of that row. -/
theorem exists_encode_of_row {i : Instr} (h : w &&& i.rowMask = i.rowMatch) :
    ∃ j, encode j = w ∧ j.rowMatch = i.rowMatch ∧ j.rowMask = i.rowMask := by
  cases i with
  | fdivSetup | fdivDiv | fdivDivmod | fmulSetup | fmulMul | ransCfg | ransBlde | ransBldd =>
    exact ⟨_, encode_eq_of_fullMask h rfl rfl, rfl, rfl⟩
  | bbNew _ | bbRd _ | bbLen _ | bbByte _ | bsNew _ | bacEnc _ | bacDec _
  | ransEnc _ | ransEnct _ | ransDec _ | ransDect _ =>
    obtain ⟨sel, hw⟩ := exists_encode_of_selMask h rfl fun sel => by
      cases sel <;> simp only [Instr.rowMatch] <;> decide
    exact ⟨_, hw, rfl, rfl⟩
  | bbWr _ _ | bsApp _ _ =>
    obtain ⟨sel, b, hw⟩ := exists_encode_of_selBMask h rfl fun sel b => by
      cases sel <;> cases b <;> simp only [Instr.rowMatch] <;> decide
    exact ⟨_, hw, rfl, rfl⟩

end

/-- The word of a command selects the command's row. -/
theorem Laws.Row.statement (i : Instr) : Statement i := by
  cases i with
  | bbNew sel => exact bbNew sel
  | bbRd sel => exact bbRd sel
  | bbWr sel b => exact bbWr sel b
  | bbLen sel => exact bbLen sel
  | bbByte sel => exact bbByte sel
  | bsNew sel => exact bsNew sel
  | bsApp sel b => exact bsApp sel b
  | fdivSetup => exact fdivSetup
  | fdivDiv => exact fdivDiv
  | fdivDivmod => exact fdivDivmod
  | fmulSetup => exact fmulSetup
  | fmulMul => exact fmulMul
  | bacEnc dir => exact bacEnc dir
  | bacDec dir => exact bacDec dir
  | ransCfg => exact ransCfg
  | ransEnc dir => exact ransEnc dir
  | ransEnct dir => exact ransEnct dir
  | ransDec dir => exact ransDec dir
  | ransDect dir => exact ransDect dir
  | ransBlde => exact ransBlde
  | ransBldd => exact ransBldd

/-- Settles O3: a decoded word is its command's word, which selects the command's row; and a word that selects a row
is the word of one of its commands, to which it decodes. -/
theorem decodeFollowsMatchAndMask : Obligations.DecodeFollowsMatchAndMask := by
  refine ⟨fun w i h => ?_, fun w i h => ?_⟩
  · rw [← encode_of_decode h]
    exact (Laws.Row.statement i).1
  · obtain ⟨j, rfl, hrow⟩ := exists_encode_of_row h
    exact ⟨j, decode_encode j, hrow⟩

end Sys2Proof
end

section
/-! PROOFS. The directive `.load` and its equivalent in commands (`30_encoding.md` R98, `40_bitbuffer.md` R110, R112):
both leave the buffer that appending the bits to the emptied buffer leaves (`Buffer.Appended`), of which there is
one. -/

namespace Sys2Proof.Machine

/-! ### One step of either side -/

section

variable {s : State} {sel : BufSel} {rest : List HostAction}

/-- `BB.NEW` within the capacity. -/
theorem exec_bbNew_inside (h : s.arg0.toNat ≤ 8 * s.params.capBytes) :
    exec (.bbNew sel) s =
      .next (s.setBuf sel { bytes := (s.buf sel).bytes.clearBelow ((s.arg0.toNat + 7) / 8), len := s.arg0 }) :=
  if_neg (Nat.not_lt.mpr h)

/-- `BB.WR` within the length. -/
theorem exec_bbWr_inside {b : Bool} (h : s.arg0.toNat < (s.buf sel).len.toNat) :
    exec (.bbWr sel b) s = .next (s.setBuf sel ((s.buf sel).bitWrite s.arg0.toNat b)) :=
  if_neg (Nat.not_le.mpr h)

/-- With no fault recorded, the queued word of a command runs the command. -/
theorem step_encode {i : Instr} (hf : s.status.fault = false) (hin : s.inbox = .writeCmd (encode i) :: rest) :
    step s = exec i { s with inbox := rest } :=
  (step_cons hin).trans (runCommand_decoded hf (decode_encode i))

/-- The queued write of a length within the capacity. -/
theorem step_writeLen {n : Word} (h : n.toNat ≤ 8 * s.params.capBytes) (hin : s.inbox = .writeLen sel n :: rest) :
    step s = .next (({ s with inbox := rest } : State).setBuf sel { s.buf sel with len := n }) := by
  rw [← State.buf_with_inbox s rest]
  exact (step_cons hin).trans (hostWriteLen_inside h)

/-- The queue and `ARG0` are no part of a buffer. -/
@[simp] theorem State.buf_with_inbox_arg0 (s : State) (l : List HostAction) (v : Word) (sel : BufSel) :
    ({ s with inbox := l, arg0 := v } : State).buf sel = s.buf sel := by
  cases sel <;> rfl

variable {n : Nat} {v : Word} (hf : s.status.fault = false)

include hf

/-- Two steps that write an operand to `ARG0` and run a command. -/
theorem run_writeArg0_encode {i : Instr} {u : State} (h : exec i { s with inbox := rest, arg0 := v } = .next u)
    (hin : s.inbox = .writeArg0 v :: .writeCmd (encode i) :: rest) :
    Host.Core.run Sys2Proof.core (n + 2) s = Host.Core.run Sys2Proof.core n u :=
  (core_run_next (step_cons hin)).trans
    (core_run_next ((step_encode (s := { s with inbox := .writeCmd (encode i) :: rest, arg0 := v }) hf rfl).trans h))

/-- Two steps that write a length within the capacity to `ARG0` and run `BB.NEW`. -/
theorem run_bbNew (h : v.toNat ≤ 8 * s.params.capBytes)
    (hin : s.inbox = .writeArg0 v :: .writeCmd (encode (.bbNew sel)) :: rest) :
    Host.Core.run Sys2Proof.core (n + 2) s =
      Host.Core.run Sys2Proof.core n (({ s with inbox := rest, arg0 := v } : State).setBuf sel
        { bytes := (s.buf sel).bytes.clearBelow ((v.toNat + 7) / 8), len := v }) :=
  run_writeArg0_encode hf (by rw [exec_bbNew_inside h, State.buf_with_inbox_arg0]) hin

/-- Two steps that write an index within the length to `ARG0` and run `BB.WR`. -/
theorem run_bbWr {b : Bool} (h : v.toNat < (s.buf sel).len.toNat)
    (hin : s.inbox = .writeArg0 v :: .writeCmd (encode (.bbWr sel b)) :: rest) :
    Host.Core.run Sys2Proof.core (n + 2) s =
      Host.Core.run Sys2Proof.core n (({ s with inbox := rest, arg0 := v } : State).setBuf sel
        ((s.buf sel).bitWrite v.toNat b)) :=
  run_writeArg0_encode hf (by rw [exec_bbWr_inside (by simpa using h), State.buf_with_inbox_arg0]) hin

end

/-! ### Buffers that hold given bits from index 0 on -/

/-- A buffer that holds the bits and then zeros within the bytes used, and is the old one beyond them, is the one
that appending to the emptied buffer makes. -/
theorem Buffer.Appended.of_bitRead {b o : Buffer} {bs : List Bool} (hwf : o.bytes.wf = true)
    (hlen : o.len.toNat = bs.length)
    (hbit : ∀ j, o.bitRead j = if j / 8 < (bs.length + 7) / 8 then bs.getD j false else b.bitRead j) :
    ({ b with len := 0 } : Buffer).Appended o bs := by
  have h0 : ({ b with len := 0 } : Buffer).len.toNat = 0 := rfl
  refine ⟨hwf, by rw [hlen, h0, Nat.zero_add], fun j => ?_⟩
  have hb : ({ b with len := 0 } : Buffer).bitRead j = b.bitRead j := rfl
  rw [hbit, hb, h0, Nat.zero_add, Nat.sub_zero]
  by_cases hj : j / 8 < (bs.length + 7) / 8
  · simp [hj, Nat.not_le.mpr hj]
  · rw [if_neg hj, List.getD_eq_default _ _ (by omega)]
    simp [Nat.not_lt.mp hj]

/-- The bits of the bytes that `.load` packs, with `v` for a byte beyond them. -/
theorem packedBytes_bit (bs : List Bool) (v : Byte) (j : Nat) :
    (((List.range ((bs.length + 7) / 8)).map (packByte bs)).getD (j / 8) v).getLsbD (j % 8) =
      if j / 8 < (bs.length + 7) / 8 then bs.getD j false else v.getLsbD (j % 8) := by
  by_cases hj : j / 8 < (bs.length + 7) / 8
  · rw [if_pos hj, List.getD_eq_getElem _ _ (by simpa using hj), List.getElem_map, List.getElem_range,
      packByte_bit _ _ (Nat.mod_lt _ (by decide)), Nat.div_add_mod]
  · rw [if_neg hj, List.getD_eq_default _ _ (by simpa using hj)]

/-- The first bit at index `k` and the others from `k + 1` on are the bits from `k` on. -/
theorem or_getD_cons (x : Bool) (bs : List Bool) (k j : Nat) :
    (decide (j = k) && x || decide (k + 1 ≤ j) && bs.getD (j - (k + 1)) false) =
      (decide (k ≤ j) && (x :: bs).getD (j - k) false) := by
  rcases Nat.lt_trichotomy j k with hj | rfl | hj
  · simp [hj.ne, Nat.not_le.mpr hj, show ¬ k + 1 ≤ j by omega]
  · simp
  · rw [show j - k = j - (k + 1) + 1 by omega, List.getD_cons_succ]
    simp [hj.ne', hj.le, Nat.succ_le_of_lt hj]

/-! ### The run of either side -/

/-- The host writes of `.load` leave its bits. -/
theorem run_loadBitsActions {sel : BufSel} {bs : List Bool} {s : State} (hcap : s.params.capBytes ≤ 536870911)
    (hwf : (s.buf sel).bytes.wf = true) (hfit : bs.length ≤ 8 * s.params.capBytes)
    (hin : s.inbox = loadBitsActions sel bs) :
    ∃ t, Host.Core.run Sys2Proof.core (loadBitsActions sel bs).length s = .next t ∧
      ({ s.buf sel with len := 0 } : Buffer).Appended (t.buf sel) bs := by
  have hlen : (wrap32 bs.length).toNat = bs.length := wrap32_toNat_of_lt (by omega)
  have hsteps : (loadBitsActions sel bs).length = (byteWrites sel 0 _).length + 1 := List.length_append
  obtain ⟨o, hrun, -, howf, hbyte⟩ := byteWrites_run _ hwf (by simp; omega) hin 1
  rw [hsteps]
  refine ⟨_, hrun.trans (core_run_next (step_writeLen (by simpa [hlen] using hfit) rfl)), ?_⟩
  rw [State.buf_setBuf, State.with_inbox_setBuf, State.buf_setBuf]
  refine .of_bitRead howf hlen fun j => ?_
  have hj : o.byte (j / 8) = _ := hbyte (j / 8)
  rw [if_pos (Nat.zero_le _), Nat.sub_zero] at hj
  exact (congrArg (BitVec.getLsbD · (j % 8)) hj).trans (packedBytes_bit bs _ j)

/-- The `BB.WR` of every 1 of `bs`, from index `k` on, ORs `bs` in there and changes no length. -/
theorem run_setBitActions {sel : BufSel} (bs : List Bool) {k : Nat} {s : State} (hf : s.status.fault = false)
    (hwf : (s.buf sel).bytes.wf = true) (hfit : k + bs.length ≤ (s.buf sel).len.toNat)
    (hin : s.inbox = setBitActions sel k bs) :
    ∃ u, Host.Core.run Sys2Proof.core (setBitActions sel k bs).length s = .next u ∧
      (u.buf sel).bytes.wf = true ∧ (u.buf sel).len = (s.buf sel).len ∧
      ∀ j, (u.buf sel).bitRead j =
        ((s.buf sel).bitRead j || (decide (k ≤ j) && bs.getD (j - k) false)) := by
  induction bs generalizing k s with
  | nil => exact ⟨s, rfl, hwf, rfl, by simp⟩
  | cons x bs ih =>
    rw [List.length_cons] at hfit
    cases x with
    | false =>
      obtain ⟨u, hrun, huwf, hulen, hbit⟩ := ih (k := k + 1) hf hwf (by omega) hin
      exact ⟨u, hrun, huwf, hulen, fun j => by rw [hbit, ← or_getD_cons]; simp⟩
    | true =>
      have hk : (wrap32 k).toNat = k := wrap32_toNat_of_lt (by have := (s.buf sel).len.isLt; omega)
      obtain ⟨u, hrun, huwf, hulen, hbit⟩ := ih (k := k + 1)
        (s := ({ s with inbox := setBitActions sel (k + 1) bs, arg0 := wrap32 k } : State).setBuf sel
          ((s.buf sel).bitWrite (wrap32 k).toNat true))
        (by simpa using hf) (by rw [State.buf_setBuf]; exact Memory.wf_write hwf _ _) (by simp; omega) (by simp)
      rw [State.buf_setBuf] at hulen hbit
      refine ⟨u, (run_bbWr hf (by omega) hin).trans hrun, huwf, hulen, fun j => ?_⟩
      rw [hbit, Buffer.bitRead_bitWrite hwf, hk, Bool.or_assoc, or_getD_cons]

/-- `BB.NEW` and the `BB.WR`s leave the same bits as `.load`. -/
theorem run_bbNew_setBitActions {sel : BufSel} {bs : List Bool} {s : State} (hcap : s.params.capBytes ≤ 536870911)
    (hwf : (s.buf sel).bytes.wf = true) (hf : s.status.fault = false) (hfit : bs.length ≤ 8 * s.params.capBytes)
    (hin : s.inbox =
      .writeArg0 (wrap32 bs.length) :: .writeCmd (encode (.bbNew sel)) :: setBitActions sel 0 bs) :
    ∃ u, Host.Core.run Sys2Proof.core ((setBitActions sel 0 bs).length + 2) s = .next u ∧
      ({ s.buf sel with len := 0 } : Buffer).Appended (u.buf sel) bs := by
  have hlen : (wrap32 bs.length).toNat = bs.length := wrap32_toNat_of_lt (by omega)
  obtain ⟨u, hrun, huwf, hulen, hbit⟩ := run_setBitActions (sel := sel) bs (k := 0)
    (s := ({ s with inbox := setBitActions sel 0 bs, arg0 := wrap32 bs.length } : State).setBuf sel
      { bytes := (s.buf sel).bytes.clearBelow (((wrap32 bs.length).toNat + 7) / 8), len := wrap32 bs.length })
    (by simpa using hf) (by simpa using Memory.wf_clearBelow hwf _) (by simp [hlen]) (by simp)
  rw [State.buf_setBuf] at hulen hbit
  refine ⟨u, (run_bbNew hf (by omega) hin).trans hrun, .of_bitRead huwf (by rw [hulen, hlen]) fun j => ?_⟩
  rw [hbit, Buffer.bitRead, Buffer.byte, Memory.read_clearBelow, hlen, Nat.sub_zero]
  by_cases hj : j / 8 < (bs.length + 7) / 8
  · simp [hj]
  · rw [if_neg hj, if_neg hj, List.getD_eq_default _ _ (by omega), Bool.and_false, Bool.or_false]
    rfl

/-- Settles O22: both sides are appends of the same bits to the same emptied buffer, which leave one buffer and read
the bits back. -/
theorem loadDirectiveEqualsItsCommands : Obligations.LoadDirectiveEqualsItsCommands := by
  intro sel bs s hp hwf hf hfit
  have hcap := Params.capBytes_le_of_wf hp
  obtain ⟨t, hrunt, ht⟩ := run_loadBitsActions (sel := sel) (s := { s with inbox := loadBitsActions sel bs }) hcap
    (by simpa using hwf) hfit rfl
  obtain ⟨u, hrunu, hu⟩ := run_bbNew_setBitActions (sel := sel) (bs := bs)
    (s := { s with inbox := _ :: _ :: setBitActions sel 0 bs }) hcap (by simpa using hwf) hf hfit rfl
  rw [State.buf_with_inbox] at ht hu
  exact ⟨t, u, hrunt, hrunu, ht.unique hu, by simpa using ht.len,
    fun j hj => ht.bit_of_empty rfl (by omega)⟩

end Sys2Proof.Machine
end

section
/-! PROOFS. The bit-buffer commands (`40_bitbuffer.md` R110 to R116): one equation for a command where it is answered
and one where it faults, and what each answer leaves in the bytes and bits of the buffer. -/

namespace Sys2Proof.Machine

/-! ### The value of one bit, and the byte length -/

/-- A bit read from a buffer, as a number, is the binary digit of its byte at its place. -/
theorem Buffer.toNat_bitRead (b : Buffer) (i : Nat) :
    (b.bitRead i).toNat = (b.byte (i / 8)).toNat / 2 ^ (i % 8) % 2 :=
  Nat.toNat_testBit _ _

/-- A bit fits the register it is read into. -/
theorem wrap32_toNat_bool (x : Bool) : (wrap32 x.toNat).toNat = x.toNat := by
  cases x <;> rfl

/-- A byte fits the register it is read into. -/
theorem wrap32_toNat_byte (v : Byte) : (wrap32 v.toNat).toNat = v.toNat :=
  wrap32_toNat_of_lt (v.isLt.trans (by decide))

/-- The byte length of any buffer fits the register it is read into. -/
theorem wrap32_toNat_byteLen (b : Buffer) : (wrap32 b.byteLen).toNat = b.byteLen :=
  wrap32_toNat_of_lt ((byteLen_lt b).trans (by decide))

/-! ### The bits and bytes of an answer -/

/-- An append writes no byte but the one at `len div 8`. -/
theorem Buffer.byte_bitAppend_of_ne {b o : Buffer} {cap k : Nat} {x : Bool} (hb : b.bytes.wf = true)
    (h : b.bitAppend cap x = .ok o) (hk : k ≠ b.len.toNat / 8) : o.byte k = b.byte k := by
  refine Buffer.byte_eq_of_bitRead fun q hq => ?_
  have hbyte : (8 * k + q) / 8 ≠ b.len.toNat / 8 := by omega
  have hbit : 8 * k + q ≠ b.len.toNat := by omega
  simp [Buffer.bitRead_bitAppend hb h, hbyte, hbit]

/-- The bits after an append by cases: in a byte that the append clears first only the new bit, elsewhere the new
bit ORed into the old ones. -/
theorem Buffer.bitRead_bitAppend_ite {b o : Buffer} {cap : Nat} {x : Bool} (hb : b.bytes.wf = true)
    (h : b.bitAppend cap x = .ok o) (j : Nat) :
    o.bitRead j =
      if b.len.toNat % 8 = 0 ∧ j / 8 = b.len.toNat / 8 then decide (j = b.len.toNat) && x
      else b.bitRead j || (decide (j = b.len.toNat) && x) := by
  rw [Buffer.bitRead_bitAppend hb h, ← Bool.decide_and]
  by_cases hclear : b.len.toNat % 8 = 0 ∧ j / 8 = b.len.toNat / 8 <;> simp [hclear]

/-- What replacing a buffer leaves is the state with that buffer replaced by the one it now has. -/
theorem State.setBuf_eq_setBuf_buf (s : State) (sel : BufSel) (b : Buffer) :
    s.setBuf sel b = s.setBuf sel ((s.setBuf sel b).buf sel) := by
  rw [State.buf_setBuf]

/-! ### One equation per outcome of a command -/

section

variable {s : State} {sel : BufSel} {b : Bool}

theorem bbNew_faults (h : 8 * s.params.capBytes < s.arg0.toNat) : FaultsWith (.bbNew sel) s 9 :=
  if_pos h

theorem exec_bbRd_inside (h : s.arg0.toNat < (s.buf sel).len.toNat) :
    exec (.bbRd sel) s = .next { s with res0 := wrap32 ((s.buf sel).bitRead s.arg0.toNat).toNat } :=
  if_neg (Nat.not_le.mpr h)

theorem bbRd_faults (h : (s.buf sel).len.toNat ≤ s.arg0.toNat) : FaultsWith (.bbRd sel) s 8 :=
  if_pos h

theorem bbWr_faults (h : (s.buf sel).len.toNat ≤ s.arg0.toNat) : FaultsWith (.bbWr sel b) s 8 :=
  if_pos h

theorem exec_bbLen :
    exec (.bbLen sel) s = .next { s with res0 := (s.buf sel).len, res1 := wrap32 (s.buf sel).byteLen } :=
  rfl

theorem exec_bbByte_inside (h : s.arg0.toNat < (s.buf sel).byteLen) :
    exec (.bbByte sel) s = .next { s with res0 := wrap32 ((s.buf sel).byte s.arg0.toNat).toNat } :=
  if_neg (Nat.not_le.mpr h)

theorem bbByte_faults (h : (s.buf sel).byteLen ≤ s.arg0.toNat) : FaultsWith (.bbByte sel) s 8 :=
  if_pos h

theorem exec_bsNew : exec (.bsNew sel) s = .next (s.setBuf sel { s.buf sel with len := 0 }) :=
  rfl

/-- `BS.APP` faults where `BitAppend` finds no room. -/
theorem bsApp_faults (h : 8 * s.params.capBytes ≤ (s.buf sel).len.toNat) : FaultsWith (.bsApp sel b) s 9 := by
  have herr : (s.buf sel).bitAppend s.params.capBytes b = .error .bufferOverflow := if_pos h
  have hraised : execBsApp sel b s = raised s .bufferOverflow := by simp only [execBsApp, herr]
  exact hraised

end

/-! ### The obligations -/

/-- Settles O14: within the capacity the zero fill is `Memory.read_clearBelow`. -/
theorem bbNewGivesZeroBits : Obligations.BbNewGivesZeroBits := by
  refine fun sel s => ⟨fun h => ⟨_, exec_bbNew_inside h, State.setBuf_eq_setBuf_buf _ _ _, ?_, ?_⟩, bbNew_faults⟩
  · rw [State.buf_setBuf]
  · rw [State.buf_setBuf]
    exact Memory.read_clearBelow _ _

/-- Settles O15: the bit read is a digit of its byte (`Buffer.toNat_bitRead`). -/
theorem bbRdReadsOneBit : Obligations.BbRdReadsOneBit := fun _ _ =>
  ⟨fun h => ⟨_, exec_bbRd_inside h, rfl, (wrap32_toNat_bool _).trans (Buffer.toNat_bitRead _ _)⟩, bbRd_faults⟩

/-- Settles O16: the bits and bytes after the write are those of `BitWrite`. -/
theorem bbWrOrsOneBit : Obligations.BbWrOrsOneBit := by
  refine fun sel b s hwf =>
    ⟨fun h => ⟨_, exec_bbWr_inside h, State.setBuf_eq_setBuf_buf _ _ _, ?_, fun j => ?_, fun k hk => ?_⟩, bbWr_faults⟩
  · rw [State.buf_setBuf, Buffer.bitWrite_len]
  · rw [State.buf_setBuf, Buffer.bitRead_bitWrite hwf]
  · rw [State.buf_setBuf, Buffer.byte_bitWrite hwf, if_neg hk]

/-- Settles O17: no length is too long for the registers. -/
theorem bbLenReturnsBothLengths : Obligations.BbLenReturnsBothLengths := fun _ _ =>
  ⟨_, exec_bbLen, rfl, rfl, wrap32_toNat_byteLen _⟩

/-- Settles O18: a byte is zero-extended by `wrap32`. -/
theorem bbByteReadsOneByte : Obligations.BbByteReadsOneByte := fun _ _ =>
  ⟨fun h => ⟨_, exec_bbByte_inside h, rfl, wrap32_toNat_byte _⟩, bbByte_faults⟩

/-- Settles O19: the meaning replaces the buffer by itself with another length. -/
theorem bsNewOnlyEmptiesTheStream : Obligations.BsNewOnlyEmptiesTheStream := by
  refine fun sel s => ⟨_, exec_bsNew, State.setBuf_eq_setBuf_buf _ _ _, ?_, fun k => ?_⟩
  · rw [State.buf_setBuf]
  · rw [State.buf_setBuf, Buffer.byte, Buffer.byte]

/-- Settles O20: with room the answer holds what `BitAppend` makes, whose length, bits and other bytes are known;
without room `BitAppend` faults. -/
theorem bsAppAppendsOneBit : Obligations.BsAppAppendsOneBit := by
  refine fun sel b s hp hwf => ⟨fun hroom => ?_, fun hfull => bsApp_faults hfull.ge⟩
  have happ := Buffer.bitAppend_of_room (x := b) hroom
  refine ⟨_, exec_bsApp_ok happ, State.setBuf_eq_setBuf_buf _ _ _, ?_, fun j => ?_, fun k hk => ?_⟩ <;>
    rw [State.buf_setBuf]
  · exact Buffer.bitAppend_len (Params.capBytes_le_of_wf hp) happ
  · exact Buffer.bitRead_bitAppend_ite hwf happ j
  · exact Buffer.byte_bitAppend_of_ne hwf happ hk

end Sys2Proof.Machine
end

section
/-! PROOFS. The fast divider (`41_fastdiv.md` R130 to R137): the width of R130 as an upper logarithm, exactness of
the multiply and shift for every descriptor that R130 builds, that of 0 included, and the three commands. -/

namespace Sys2Proof.Machine

/-! ### The fields of a descriptor -/

/-- The bit width of the model is the "ceil(log2 d)" of R130. -/
theorem divisorWidth_eq_clog {d : Nat} (h : 1 ≤ d) : divisorWidth d = Nat.clog 2 d := by
  obtain ⟨hle, hlt, hone⟩ := divisorWidth_spec h
  refine le_antisymm ?_ (Nat.clog_le_of_le_pow hle)
  rcases h.eq_or_lt with rfl | h2
  · simp [hone]
  · have hpow : 2 ^ divisorWidth d < 2 ^ (Nat.clog 2 d + 1) := by
      have hclog : d ≤ 2 ^ Nat.clog 2 d := Nat.le_pow_clog Nat.one_lt_two d
      have hd := hlt h2
      rw [Nat.pow_succ]
      omega
    exact Nat.lt_succ_iff.mp ((Nat.pow_lt_pow_iff_right Nat.one_lt_two).mp hpow)

/-- The multiplier of R130 is `2^32` exactly for the powers of two: when it is, `2^w` is not above `d`. -/
theorem mul_eq_two_pow_iff {d : Nat} (h : 1 ≤ d) :
    (2 ^ (32 + divisorWidth d) + d - 1) / d = 2 ^ 32 ↔ ∃ k, d = 2 ^ k := by
  constructor
  · intro hm
    have hexact := (mul_bounds (k := 32 + divisorWidth d) h).1
    rw [hm, Nat.pow_add] at hexact
    exact ⟨_, le_antisymm (divisorWidth_spec h).1 (Nat.le_of_mul_le_mul_left hexact (Nat.two_pow_pos 32))⟩
  · rintro ⟨k, rfl⟩
    rw [divisorWidth_eq_clog h, Nat.clog_pow 2 k Nat.one_lt_two, Nat.pow_add, Nat.add_sub_assoc h,
      Nat.mul_comm, Nat.mul_add_div h, Nat.div_eq_of_lt (Nat.sub_one_lt_of_le h le_rfl), Nat.add_zero]

/-- The divisor of a descriptor, that of 0 included. -/
theorem fdDesc_d_toNat {d : Nat} (h : d < 2 ^ 31) : (fdDesc d).d.toNat = d := by
  rcases d.eq_zero_or_pos with rfl | hpos
  · rfl
  · exact (fdDesc_toNat hpos h).1

/-! ### Exactness -/

/-- The argument of R137: a multiplier `m` that lies less than 1 above `P / d` gives the floor quotient of every
`n` whose excess `n · (m·d - P)` stays below one unit `P`. -/
theorem mul_div_eq_div {d m n P : Nat} (hd : 1 ≤ d) (hlo : P ≤ m * d) (hhi : m * d < P + d) (hn : n * d < P) :
    n * m / P = n / d := by
  have hdm : n / d * d ≤ n := Nat.div_mul_le_self n d
  have hnext : n < (n / d + 1) * d := Nat.lt_mul_of_div_lt (Nat.lt_succ_self _) hd
  refine Nat.div_eq_of_lt_le ?_ (lt_of_mul_lt_mul_right ?_ (Nat.zero_le d))
  · calc n / d * P ≤ n / d * (m * d) := Nat.mul_le_mul_left _ hlo
      _ = n / d * d * m := by ring
      _ ≤ n * m := Nat.mul_le_mul_right _ hdm
  · calc n * m * d = n * (m * d) := by ring
      _ ≤ n * (P + d) := Nat.mul_le_mul_left _ hhi.le
      _ = n * P + n * d := by ring
      _ < n * P + P := by omega
      _ = (n + 1) * P := by ring
      _ ≤ (n / d + 1) * d * P := Nat.mul_le_mul_right _ hnext
      _ = (n / d + 1) * P * d := by ring

/-- `FdDiv` (R132) as a quotient of numbers. -/
theorem fdDiv_eq_div_two_pow (D : FdDesc) (n : Nat) : fdDiv D n = n * D.mul.toNat / 2 ^ D.shift.toNat :=
  Nat.shiftRight_eq_div_pow _ _

/-- `FdDiv` by the descriptor of `d` is the floor quotient; by the descriptor of 0 it is 0, as `n / 0` is. -/
theorem fdDiv_fdDesc {d n : Nat} (hd : d < 2 ^ 31) (hn : n < 2 ^ 31) : fdDiv (fdDesc d) n = n / d := by
  rcases d.eq_zero_or_pos with rfl | hpos
  · simp [fdDiv_eq_div_two_pow, fdDesc_zero, FdDesc.zero]
  · obtain ⟨-, hshift, hmul⟩ := fdDesc_toNat hpos hd
    obtain ⟨hlo, hhi⟩ := mul_bounds (k := 32 + divisorWidth d) hpos
    rw [fdDiv_eq_div_two_pow, hshift, hmul]
    refine mul_div_eq_div hpos hlo hhi ?_
    calc n * d ≤ n * 2 ^ divisorWidth d := Nat.mul_le_mul_left _ (divisorWidth_spec hpos).1
      _ < 2 ^ 32 * 2 ^ divisorWidth d := Nat.mul_lt_mul_of_pos_right (hn.trans (by decide)) (Nat.two_pow_pos _)
      _ = 2 ^ (32 + divisorWidth d) := (Nat.pow_add ..).symm

theorem FdDesc.Legal.fdDiv_eq {D : FdDesc} (h : D.Legal) {n : Nat} (hn : n < 2 ^ 31) :
    fdDiv D n = n / D.d.toNat := by
  rw [← fdDiv_fdDesc D.d.isLt hn, ← h]

/-- The residual of a floor quotient is the remainder. -/
theorem FdDesc.Legal.fdDivMod_eq {D : FdDesc} (h : D.Legal) {n : Nat} (hn : n < 2 ^ 31) :
    fdDivMod D n = (n / D.d.toNat, n % D.d.toNat) := by
  rw [fdDivMod, h.fdDiv_eq hn, Nat.mod_eq_sub_div_mul]

/-! ### One equation per outcome of a command -/

section

variable {s : State}

theorem exec_fdivSetup_inside (h : s.arg0.toNat < 2 ^ 31) :
    exec .fdivSetup s = .next { s with fdg := fdDesc s.arg0.toNat, status := s.status.setFdgv } :=
  if_neg (Nat.not_le.mpr h)

theorem fdivSetup_faults (h : 2 ^ 31 ≤ s.arg0.toNat) : FaultsWith .fdivSetup s 4 :=
  if_pos h

theorem exec_fdivDiv_inside (hv : s.status.fdgv = true) (h : s.arg0.toNat < 2 ^ 31) :
    exec .fdivDiv s = .next { s with res0 := wrap32 (fdDiv s.fdg s.arg0.toNat) } :=
  (if_neg (by simp [hv])).trans (if_neg (Nat.not_le.mpr h))

theorem fdivDiv_notConfigured (hv : s.status.fdgv = false) : FaultsWith .fdivDiv s 6 :=
  if_pos hv

theorem fdivDiv_operandOutOfRange (hv : s.status.fdgv = true) (h : 2 ^ 31 ≤ s.arg0.toNat) :
    FaultsWith .fdivDiv s 7 :=
  (if_neg (by simp [hv])).trans (if_pos h)

theorem exec_fdivDivmod_inside (hv : s.status.fdgv = true) (h : s.arg0.toNat < 2 ^ 31) :
    exec .fdivDivmod s =
      .next { s with
        res0 := wrap32 (fdDivMod s.fdg s.arg0.toNat).1, res1 := wrap32 (fdDivMod s.fdg s.arg0.toNat).2 } :=
  (if_neg (by simp [hv])).trans (if_neg (Nat.not_le.mpr h))

theorem fdivDivmod_notConfigured (hv : s.status.fdgv = false) : FaultsWith .fdivDivmod s 6 :=
  if_pos hv

theorem fdivDivmod_operandOutOfRange (hv : s.status.fdgv = true) (h : 2 ^ 31 ≤ s.arg0.toNat) :
    FaultsWith .fdivDivmod s 7 :=
  (if_neg (by simp [hv])).trans (if_pos h)

end

/-- A dividend's quotient and remainder are not above it, so they fit the registers. -/
theorem wrap32_toNat_of_le_dividend {x n : Nat} (hx : x ≤ n) (hn : n < 2 ^ 31) : (wrap32 x).toNat = x :=
  wrap32_toNat_of_lt (hx.trans_lt (hn.trans (by decide)))

/-! ### The obligations -/

/-- Settles O23: the descriptor of `d` is legal, and division by a legal one is exact. -/
theorem fastDivisionIsExact : Obligations.FastDivisionIsExact := by
  intro d n _ hd hn
  rw [(fdDesc_legal hd).fdDivMod_eq hn, fdDesc_d_toNat hd]

/-- Settles O24: the fields as numbers, the range of the multiplier, and when it is `2^32`. -/
theorem descriptorFieldsFitTheirWidths : Obligations.DescriptorFieldsFitTheirWidths := by
  intro d h1 hd
  obtain ⟨hdiv, hshift, hmul⟩ := fdDesc_toNat h1 hd
  obtain ⟨hlo, hhi⟩ := mul_range h1 hd
  have hw := divisorWidth_le hd
  rw [hshift, hmul]
  exact ⟨hdiv, Nat.le_add_right .., Nat.add_le_add_left hw 32, hlo, hhi, mul_eq_two_pow_iff h1⟩

/-- Settles O25: the fields of the stored descriptor as numbers, for the divisor 0 and for the others. -/
theorem fdivSetupStoresTheDescriptor : Obligations.FdivSetupStoresTheDescriptor := by
  refine fun s => ⟨fun h => ⟨_, exec_fdivSetup_inside h, rfl, fdDesc_d_toNat h, fun h0 => ?_, fun h1 => ?_⟩,
    fdivSetup_faults⟩
  · simp [h0, fdDesc_zero, FdDesc.zero]
  · obtain ⟨-, hshift, hmul⟩ := fdDesc_toNat h1 h
    exact ⟨by rw [hshift, divisorWidth_eq_clog h1], by rw [hmul, hshift]⟩

/-- Settles O26: the shifted product is the quotient of a legal descriptor, and fits `RES0`. -/
theorem fdivDivGivesTheQuotient : Obligations.FdivDivGivesTheQuotient := by
  refine fun s => ⟨fun hv hlegal hn => ?_, fdivDiv_notConfigured, fdivDiv_operandOutOfRange⟩
  have hq := hlegal.fdDiv_eq hn
  have hres : (wrap32 (fdDiv s.fdg s.arg0.toNat)).toNat = fdDiv s.fdg s.arg0.toNat :=
    wrap32_toNat_of_le_dividend (hq.trans_le (Nat.div_le_self ..)) hn
  exact ⟨_, exec_fdivDiv_inside hv hn, rfl, hres.trans (fdDiv_eq_div_two_pow ..), hres.trans hq⟩

/-- Settles O27: quotient and residual of a legal descriptor fit `RES0` and `RES1`. -/
theorem fdivDivmodGivesQuotientAndRemainder : Obligations.FdivDivmodGivesQuotientAndRemainder := by
  refine fun s => ⟨fun hv hlegal hn => ⟨_, exec_fdivDivmod_inside hv hn, rfl, ?_, ?_⟩,
    fdivDivmod_notConfigured, fdivDivmod_operandOutOfRange⟩ <;>
    rw [hlegal.fdDivMod_eq hn]
  · exact wrap32_toNat_of_le_dividend (Nat.div_le_self ..) hn
  · exact wrap32_toNat_of_le_dividend (Nat.mod_le ..) hn

end Sys2Proof.Machine
end

section
/-! PROOFS. The fraction multiplier (`42_fracmul.md` R150 to R155): the high product as a floor quotient, its error
bound against the exact product, and the two commands. -/

namespace Sys2Proof.Machine

/-! ### The high product -/

/-- `FmMul` (R152) as a quotient of numbers. -/
theorem fmMul_eq_div_two_pow (M x : Nat) : fmMul M x = x * M / 2 ^ 32 :=
  Nat.shiftRight_eq_div_pow _ _

/-- The range of R155. -/
theorem fmMul_le {M x : Nat} (hM : M ≤ 2 ^ 32) : fmMul M x ≤ x := by
  rw [fmMul_eq_div_two_pow]
  refine Nat.div_le_of_le_mul ?_
  rw [Nat.mul_comm]
  exact Nat.mul_le_mul_right x hM

/-- `FmSetup` (R150) with the power written out. -/
theorem fmSetup_eq_floor (f : ℚ) : fmSetup f = ⌊f * 2 ^ 32⌋₊ := by
  rw [fmSetup]
  norm_num

/-- Taking the floor before multiplying by `x` loses at most `x`. -/
theorem floor_natCast_mul_bounds {u : ℚ} (hu : 0 ≤ u) (x : Nat) :
    x * ⌊u⌋₊ ≤ ⌊(x : ℚ) * u⌋₊ ∧ ⌊(x : ℚ) * u⌋₊ ≤ x * ⌊u⌋₊ + x := by
  have hx : (0 : ℚ) ≤ x := x.cast_nonneg
  constructor
  · refine Nat.le_floor ?_
    push_cast
    exact mul_le_mul_of_nonneg_left (Nat.floor_le hu) hx
  · refine Nat.floor_le_of_le ?_
    push_cast
    calc (x : ℚ) * u ≤ x * (⌊u⌋₊ + 1) := mul_le_mul_of_nonneg_left (Nat.lt_floor_add_one u).le hx
      _ = x * ⌊u⌋₊ + x := by ring

/-- The argument of R154: both products are divided by `2^32`, and the loss of less than `2^32` before the division
costs at most 1 after it. -/
theorem fmMul_fmSetup_bounds {f : ℚ} {x : Nat} (h0 : 0 ≤ f) (hx : x < 2 ^ 32) :
    fmMul (fmSetup f) x ≤ ⌊(x : ℚ) * f⌋₊ ∧ ⌊(x : ℚ) * f⌋₊ ≤ fmMul (fmSetup f) x + 1 := by
  have hexact : ⌊(x : ℚ) * f⌋₊ = ⌊(x : ℚ) * (f * 2 ^ 32)⌋₊ / 2 ^ 32 := by
    rw [← Nat.floor_div_natCast]
    congr 1
    push_cast
    ring
  obtain ⟨hlo, hhi⟩ := floor_natCast_mul_bounds (mul_nonneg h0 (by positivity : (0 : ℚ) ≤ 2 ^ 32)) x
  rw [hexact, fmMul_eq_div_two_pow, fmSetup_eq_floor]
  omega

/-! ### One equation per outcome of a command -/

/-- A rational outside `[0, 1]` is no fraction. -/
theorem Prob.inUnit_outside {p : ℚ} (h : p < 0 ∨ 1 < p) : (Prob.num p).inUnit = .error .invalidProbability :=
  if_pos h

section

variable {s : State}

theorem exec_fmulSetup_inside {f : ℚ} (h : s.prob.inUnit = .ok f) :
    exec .fmulSetup s = .next { s with fmgM := BitVec.ofNat 33 (fmSetup f), status := s.status.setFmgv } := by
  rw [exec, execFmulSetup, h]

theorem fmulSetup_faults (h : s.prob.inUnit = .error .invalidProbability) : FaultsWith .fmulSetup s 2 := by
  have hraised : execFmulSetup s = raised s .invalidProbability := by rw [execFmulSetup, h]
  exact hraised

theorem exec_fmulMul_configured (hv : s.status.fmgv = true) :
    exec .fmulMul s = .next { s with res0 := wrap32 (fmMul s.fmgM.toNat s.arg0.toNat) } :=
  if_neg (by simp [hv])

theorem fmulMul_notConfigured (hv : s.status.fmgv = false) : FaultsWith .fmulMul s 6 :=
  if_pos hv

end

/-- A multiplier of a fraction fits the 33 bits of `FMG.M`. -/
theorem ofNat_fmSetup_toNat {f : ℚ} (h : f ≤ 1) : (BitVec.ofNat 33 (fmSetup f)).toNat = fmSetup f := by
  rw [BitVec.toNat_ofNat]
  exact Nat.mod_eq_of_lt ((fmSetup_le h).trans_lt (by decide))

/-! ### The obligations -/

/-- Settles O28: the error bound of R154 and the range of R155, the multiplier of a fraction being at most `2^32`. -/
theorem fractionMultiplierErrorBound : Obligations.FractionMultiplierErrorBound := by
  intro f x h0 h1 hx
  obtain ⟨hlo, hhi⟩ := fmMul_fmSetup_bounds h0 hx
  exact ⟨hlo, hhi, by rw [fmMul_eq_div_two_pow, fmSetup_eq_floor], fmMul_le (fmSetup_le h1)⟩

/-- Settles O29: the stored multiplier loses nothing in 33 bits, and is a floor. -/
theorem fmulSetupStoresTheMultiplier : Obligations.FmulSetupStoresTheMultiplier := by
  refine ⟨fun s f hp h0 h1 => ⟨_, exec_fmulSetup_inside (Prob.inUnit_ok.mpr ⟨hp, h0, h1⟩), rfl, ?_⟩,
    fun s f hp hout => fmulSetup_faults ?_, fun s hp => fmulSetup_faults ?_⟩
  · rw [ofNat_fmSetup_toNat h1, show (2 : ℚ) ^ 32 = 4294967296 by norm_num]
    exact fmSetup_bounds h0
  · rw [hp, Prob.inUnit_outside hout]
  · rw [hp, Prob.inUnit]

/-- Settles O30: the high product is not above the 32-bit operand, so it fits `RES0`. -/
theorem fmulMulGivesTheHighProduct : Obligations.FmulMulGivesTheHighProduct := by
  refine fun s => ⟨fun hv hM => ⟨_, exec_fmulMul_configured hv, rfl, ?_⟩, fmulMul_notConfigured⟩
  exact (wrap32_toNat_of_lt ((fmMul_le hM).trans_lt s.arg0.isLt)).trans (fmMul_eq_div_two_pow ..)

end Sys2Proof.Machine
end

section
/-! PROOFS. The multiplier and the interval of the BAC (`43_bac.md` R166, R186, R187): the range of the multiplier, the
registers from which either coder starts, narrowing, and the ends of the renormalisation loops. -/

namespace Sys2Proof.Machine

/-! ### The multiplier -/

theorem fmSetup_eps : fmSetup eps = 4 := by
  rw [fmSetup, Nat.floor_eq_iff (by norm_num [eps])]
  norm_num [eps]

theorem fmSetup_one_sub_eps : fmSetup (1 - eps) = 4294967291 := by
  rw [fmSetup, Nat.floor_eq_iff (by norm_num [eps])]
  norm_num [eps]

theorem bacM_range (p : ℚ) : 4 ≤ bacM p ∧ bacM p ≤ 4294967291 := by
  obtain ⟨hlow, hhigh⟩ := clip_eps_bounds p
  rw [← fmSetup_eps, ← fmSetup_one_sub_eps]
  exact ⟨fmSetup_mono (by linarith), fmSetup_mono (by linarith)⟩

theorem bacM_of_le_eps {p : ℚ} (h : p ≤ eps) : bacM p = 4294967291 := by
  have hclip : clip p eps (1 - eps) = eps := by
    rw [clip, max_eq_right h, min_eq_left (by norm_num [eps])]
  rw [bacM, hclip, fmSetup_one_sub_eps]

theorem bacM_of_one_sub_eps_le {p : ℚ} (h : 1 - eps ≤ p) : bacM p = 4 := by
  have hclip : clip p eps (1 - eps) = 1 - eps := by
    rw [clip, min_eq_right (h.trans (le_max_left _ _))]
  rw [bacM, hclip, sub_sub_cancel, fmSetup_eps]

/-- The multiplier loses nothing in its register. -/
theorem wrap32_bacM_toNat (p : ℚ) : (wrap32 (bacM p)).toNat = bacM p :=
  wrap32_toNat_of_lt ((bacM_range p).2.trans_lt (by decide))

/-! ### Registers between two symbols -/

/-- The whole range, with the multiplier of a rational, is an interval between two symbols. -/
theorem Bac.Ready.of_whole_range {b : Bac} {p : ℚ} (hlow : b.low = 0) (hhigh : b.high = 0xFFFFFFFF)
    (hm : b.m = wrap32 (bacM p)) : b.Ready where
  low_lt_high := by rw [hlow, hhigh]; decide
  done := by rw [Bac.case, hlow, hhigh]; decide
  m_low := by rw [hm, wrap32_bacM_toNat]; exact (bacM_range p).1
  m_high := by rw [hm, wrap32_bacM_toNat]; exact (bacM_range p).2

theorem Bac.encInit_ready (b : Bac) (p : ℚ) : (b.encInit (bacM p)).Ready :=
  .of_whole_range rfl rfl rfl

theorem Bac.decStart_ready (b : Bac) (inp : Buffer) (p : ℚ) : (b.decStart inp p).Ready :=
  .of_whole_range rfl rfl rfl

theorem Bac.Ready.mid_bounds {b : Bac} (h : b.Ready) : b.low.toNat < b.mid ∧ b.mid < b.high.toNat := by
  have hlength := length_of_done h.done
  exact Bac.mid_bounds h.m_low h.m_high (by omega)

/-! ### The registers of the encoder's loop, whatever the out-buffer -/

theorem emit_bac {cap : Nat} {x : Bool} {r r' : BacRun} (h : emit cap x r = .ok r') :
    r'.bac = { r.bac with pending := 0 } := by
  unfold emit at h
  split at h
  · cases h
  · split at h
    · cases h
    · injection h with h
      rw [← h]

theorem encStep_bac {cap : Nat} {r r' : BacRun} (h : encStep cap r.bac.case r = .ok r') :
    r'.bac = r.bac.encPass := by
  unfold encStep at h
  unfold Bac.encPass
  split at h
  · cases h
  · rename_i q hq
    injection h with h
    subst h
    split at hq <;> rename_i hcase <;> rw [hcase]
    · simp only [emit_bac hq, casePending]
    · simp only [emit_bac hq, casePending]
    · obtain ⟨-, rfl⟩ := countPending_ok hq
      rfl
    · injection hq with hq
      rw [← hq]
      rfl

theorem encRenorm_bac {cap : Nat} (fuel : Nat) {r r' : BacRun} (h : encRenorm cap fuel r = .ok r') :
    r'.bac = encRenormBac fuel r.bac := by
  induction fuel generalizing r with
  | zero => injection h with h; rw [← h, encRenormBac]
  | succ fuel ih =>
    unfold encRenorm at h
    unfold encRenormBac
    split at h
    · rename_i hd
      injection h with h
      rw [if_pos hd, ← h]
    · rename_i hd
      rw [if_neg hd]
      split at h
      · cases h
      · rename_i q hq
        rw [← encStep_bac hq]
        exact ih h

/-! ### The obligations -/

/-- Settles O31: the multiplier is monotone, and at the bounds of the clamped probability it is 4 and `2^32 - 5`. -/
theorem bacMultiplierInRange : Obligations.BacMultiplierInRange := by
  have heps : (1 / 10 ^ 9 : ℚ) = eps := by norm_num [eps]
  rw [Obligations.BacMultiplierInRange, heps]
  exact ⟨bacM_range, fun p => bacM_of_le_eps, fun p => bacM_of_one_sub_eps_le⟩

/-- Settles O32: such registers are those between two symbols. -/
theorem bacNarrowingNeverCollapses : Obligations.BacNarrowingNeverCollapses := by
  intro b p hlt hdone hm
  obtain ⟨hmlow, hmhigh⟩ := bacM_range p
  have hready : b.Ready := ⟨hlt, hdone, by omega, by omega⟩
  obtain ⟨hlow, hhigh⟩ := hready.mid_bounds
  exact ⟨hlow, hhigh, hready.narrow⟩

/-- Settles O33: a pass doubles the length, and an interval outside the cases is wide. -/
theorem bacRenormalisationEndsWithin31Passes : Obligations.BacRenormalisationEndsWithin31Passes := by
  refine ⟨fun inp b hlt => ?_, fun cap r r' hlt h => ?_⟩
  · obtain ⟨hdone, -⟩ := decRenorm_fuel (inp := inp) 31 (le_refl 31) (by simpa using hlt) (le_refl 31)
    exact ⟨hdone, length_of_done hdone⟩
  · rw [encRenorm_bac 31 h]
    obtain ⟨hdone, -⟩ := encRenormBac_fuel 31 (le_refl 31) (by simpa using hlt) (le_refl 31)
    exact ⟨hdone, length_of_done hdone⟩

end Sys2Proof.Machine
end

section
/-! PROOFS. The BAC encoder with room (`43_bac.md` R175, R176, R187, R192): a symbol turns at most 31 decisions into
bits, which bounds the room that the symbol loop needs and the length of the code; the registers that `BAC.ENC` leaves. -/

namespace Sys2Proof.Machine

/-! ### The command -/

section

variable {dir : BufSel} {s : State} {p : ℚ}

theorem exec_bacEnc_ok {r : BacRun} (hp : s.prob = .num p)
    (h : bacEncode s.params.capBytes (s.buf dir) (s.buf dir.other) s.bac p = .ok r) :
    exec (.bacEnc dir) s = .next { s.setBuf dir.other r.out with bac := r.bac } := by
  simp only [exec, execBacEnc, hp, Prob.anyNumber, State.inBuf, State.outBuf, h]

theorem exec_bacEnc_error {c : Cause} (hp : s.prob = .num p)
    (h : bacEncode s.params.capBytes (s.buf dir) (s.buf dir.other) s.bac p = .error c) :
    exec (.bacEnc dir) s = .next ({ s.freeOut dir.other with bac := freeBac s.freeCount }.raise c) := by
  simp only [exec, execBacEnc, hp, Prob.anyNumber, State.inBuf, State.outBuf, h]
  rfl

end

/-! ### The symbol loop -/

/-- `n + 1` advances of a position are one and `n` more. -/
theorem Word.add_ofNat_succ (w : Word) (n : Nat) : w + BitVec.ofNat 32 (n + 1) = w + 1 + BitVec.ofNat 32 n := by
  rw [Nat.add_comm, BitVec.ofNat_add, BitVec.add_assoc]
  rfl

/-- The symbol loop advances `readPos` by one a symbol and keeps the multiplier and the decoder's registers. -/
theorem encSymbolsBac_frame (inp : Buffer) (n : Nat) (b : Bac) :
    encSymbolsBac inp n b = { b with
      low := (encSymbolsBac inp n b).low, high := (encSymbolsBac inp n b).high
      pending := (encSymbolsBac inp n b).pending, readPos := b.readPos + BitVec.ofNat 32 n } := by
  induction n generalizing b with
  | zero => simp [encSymbolsBac]
  | succ n ih =>
    rw [encSymbolsBac, ih, encSymbolBac_eq, Word.add_ofNat_succ]

theorem Bac.Ready.encSymbols {b : Bac} (h : b.Ready) (inp : Buffer) (n : Nat) : (encSymbolsBac inp n b).Ready := by
  induction n generalizing b with
  | zero => exact h
  | succ n ih => exact ih (h.encSymbol inp)

/-- With room for 31 more decisions a symbol is coded: its loop ends within 31 passes, one less than it is given. -/
theorem encSymbol_of_room {cap : Nat} (hc : cap ≤ 536870911) (inp : Buffer) {r : BacRun} (hr : r.bac.Ready)
    (hb : r.out.bytes.wf = true) (h : r.out.len.toNat + (r.bac.pending.toNat + 31) ≤ 8 * cap) :
    ∃ r', encSymbol cap inp r = .ok r' := by
  obtain ⟨hdone, -, -⟩ := hr.renorm (inp.bitRead r.bac.readPos.toNat)
  obtain ⟨q, hq⟩ := encRenorm_of_room hc 31
    (r := { r with bac := r.bac.narrow (inp.bitRead r.bac.readPos.toNat) }) hb (by rw [Bac.narrow_frame]; exact h)
  have hrenorm : encRenorm cap renormFuel _ = .ok q :=
    encRenorm_more_fuel 31 hq (by rw [encRenorm_bac 31 hq]; exact hdone)
  exact ⟨_, by rw [encSymbol, hrenorm]⟩

/-- Decisions appended or pending after `n` symbols. -/
theorem encSymbolsBits_length {b : Bac} (h : b.Ready) (inp : Buffer) (n : Nat)
    (hp : b.pending.toNat + 31 * n ≤ pendingMax) :
    (encSymbolsBits inp n b).length + (encSymbolsBac inp n b).pending.toNat ≤ b.pending.toNat + 31 * n := by
  induction n generalizing b with
  | zero => simp [encSymbolsBits, encSymbolsBac]
  | succ n ih =>
    have hsymbol := encSymbolBits_length h inp (by omega)
    have hrest := ih (h.encSymbol inp) (by omega)
    rw [encSymbolsBits, encSymbolsBac, List.length_append]
    omega

theorem encSymbols_of_room {cap : Nat} (hc : cap ≤ 536870911) (inp : Buffer) (n : Nat) {r : BacRun} (hr : r.bac.Ready)
    (hb : r.out.bytes.wf = true) (h : r.out.len.toNat + (r.bac.pending.toNat + 31 * n) ≤ 8 * cap) :
    ∃ r', encSymbols cap inp n r = .ok r' := by
  induction n generalizing r with
  | zero => exact ⟨r, rfl⟩
  | succ n ih =>
    obtain ⟨q, hq⟩ := encSymbol_of_room hc inp hr hb (by omega)
    obtain ⟨hbac, hout⟩ := encSymbol_ok hc hb hq
    have hlen := encSymbolBits_length hr inp (by unfold pendingMax; omega)
    obtain ⟨r', hr'⟩ := ih (r := q) (by rw [hbac]; exact hr.encSymbol inp) hout.wf
      (by rw [hout.len, hbac]; omega)
    exact ⟨r', by rw [encSymbols, hq]; exact hr'⟩

/-! ### The code -/

theorem encodedBac_frame (inp : Buffer) (b : Bac) (p : ℚ) :
    encodedBac inp b p = { b with
      m := wrap32 (bacM p), low := (encodedBac inp b p).low, high := (encodedBac inp b p).high
      pending := (encodedBac inp b p).pending, readPos := inp.len } := by
  rw [encodedBac, encSymbolsBac_frame]
  simp [Bac.encInit]

theorem encodedBac_ready (inp : Buffer) (b : Bac) (p : ℚ) : (encodedBac inp b p).Ready :=
  (b.encInit_ready p).encSymbols inp _

section

variable {cap : Nat} (hc : cap ≤ 536870911) {inp : Buffer}

include hc

/-- Decisions of the whole message, those of the finalisation left out. -/
theorem encodedBits_length (b : Bac) (p : ℚ) (h : 31 * inp.len.toNat ≤ 8 * cap) :
    (encSymbolsBits inp inp.len.toNat (b.encInit (bacM p))).length + (encodedBac inp b p).pending.toNat ≤
      31 * inp.len.toNat := by
  have := encSymbolsBits_length (b.encInit_ready p) inp inp.len.toNat
    (by show 0 + _ ≤ _; unfold pendingMax; omega)
  exact this.trans (Nat.zero_add _).le

theorem codeBits_length_le (b : Bac) (p : ℚ) (h : 31 * inp.len.toNat ≤ 8 * cap) :
    (codeBits inp b p).length ≤ 31 * inp.len.toNat + 2 := by
  have := encodedBits_length hc b p h
  rw [codeBits, List.length_append, emitBits, List.length_cons, List.length_replicate]
  omega

theorem bacEncode_of_room {out : Buffer} (b : Bac) (p : ℚ) (hb : out.bytes.wf = true)
    (h : out.len.toNat + 31 * inp.len.toNat + 2 ≤ 8 * cap) : ∃ r, bacEncode cap inp out b p = .ok r := by
  obtain ⟨q, hq⟩ := encSymbols_of_room hc inp inp.len.toNat (r := { out := out, bac := b.encInit (bacM p) })
    (b.encInit_ready p) hb (by show out.len.toNat + (0 + _) ≤ _; omega)
  obtain ⟨hbac, hout⟩ : q.bac = encodedBac inp b p ∧
    out.Appended q.out (encSymbolsBits inp inp.len.toNat (b.encInit (bacM p))) := encSymbols_ok hc _ hb hq
  have hlen := encodedBits_length hc b p (inp := inp) (by omega)
  obtain ⟨r, hr⟩ := encFinal_of_room hc (r := q) (by rw [hout.len, hbac]; omega)
  exact ⟨r, by rw [bacEncode, hq]; exact hr⟩

end

/-- The code of the empty message is `0 1`. -/
theorem codeBits_of_empty {inp : Buffer} (h : inp.len = 0) (b : Bac) (p : ℚ) : codeBits inp b p = [false, true] := by
  rw [codeBits, encodedBac, h]
  rfl

/-! ### The obligations -/

/-- Settles O13: a completed run has appended two bits inside the capacity, so that the run faults. -/
theorem bacEncoderNeedsRoomForTwoBits : Obligations.BacEncoderNeedsRoomForTwoBits := by
  intro dir s p hparams hwf hp hfull
  have hc := Params.capBytes_le_of_wf hparams
  cases h : bacEncode s.params.capBytes (s.buf dir) (s.buf dir.other) s.bac p with
  | error c => exact ⟨_, exec_bacEnc_error hp h, rfl⟩
  | ok r =>
    have hinside := bacEncode_len_le hc h
    have htwo := codeBits_length (s.buf dir) s.bac p
    rw [(bacEncode_ok hc hwf h).2.len] at hinside
    omega

/-- Settles O34: the loops have room, and the answer holds what `bacEncode_ok` says. -/
theorem bacEncoderCompletesWithRoom : Obligations.BacEncoderCompletesWithRoom := by
  intro dir s p hparams hwf hp hroom
  have hc := Params.capBytes_le_of_wf hparams
  obtain ⟨r, hr⟩ := bacEncode_of_room hc s.bac p hwf hroom
  obtain ⟨hbac, hout⟩ := bacEncode_ok hc hwf hr
  have hlen := hout.len
  have hshort := codeBits_length (s.buf dir) s.bac p
  have hlong := codeBits_length_le hc (inp := s.buf dir) s.bac p (by omega)
  refine ⟨_, exec_bacEnc_ok hp hr, ?_⟩
  simp only [State.buf_with_bac, State.buf_setBuf]
  refine ⟨trivial, ?_, ?_, ?_, ?_, ?_, ?_, by omega, by omega, fun j => hout.bit_low,
    fun k => hout.byte_of_untouched⟩ <;> rw [hbac]
  · rw [encodedBac_frame]
    exact wrap32_bacM_toNat p
  · rw [encodedBac_frame]
  · rw [encodedBac_frame]
  · rw [encodedBac_frame]
  · exact (encodedBac_ready _ _ _).low_lt_high

/-- Settles O35: every buffer has room for the two bits of `codeBits_of_empty`, which read back from the first byte. -/
theorem bacEncodesTheEmptyMessageAsTwoBits : Obligations.BacEncodesTheEmptyMessageAsTwoBits := by
  intro dir s p hparams hwf hp hempty hout0
  have hc := Params.capBytes_le_of_wf hparams
  have hpos : 1 ≤ s.params.capBytes := by
    simp only [Params.wf, Bool.and_eq_true, decide_eq_true_eq] at hparams
    omega
  obtain ⟨r, hr⟩ := bacEncode_of_room hc s.bac p hwf (inp := s.buf dir)
    (by rw [hempty, hout0]; show 2 ≤ 8 * s.params.capBytes; omega)
  obtain ⟨-, hout⟩ := bacEncode_ok hc hwf hr
  rw [codeBits_of_empty hempty] at hout
  refine ⟨_, exec_bacEnc_ok hp hr, by simp, ?_⟩
  simp only [State.buf_with_bac, State.buf_setBuf]
  refine ⟨BitVec.eq_of_toNat_eq (by rw [hout.len, hout0]; rfl), ?_⟩
  refine Buffer.byte_eq_of_bitRead (b' := { bytes := [(0, 2)], len := 2 }) fun q hq => ?_
  rw [hout.bit_of_empty (by rw [hout0]; rfl) (by simp; omega)]
  have hread : ∀ q : Fin 8, [false, true].getD (8 * 0 + q.val) false =
    Buffer.bitRead { bytes := [(0, 2)], len := 2 } (8 * 0 + q.val) := by decide
  exact hread ⟨q, hq⟩

end Sys2Proof.Machine
end

section
/-! PROOFS. The BAC decoder completes (`43_bac.md` R184, R189), and both commands of the BAC are functions of their
inputs (`43_bac.md` R190): neither coder's loop looks at the other coder's registers, nor at the in-buffer beyond its
length. -/

namespace Sys2Proof.Machine

/-! ### What the decoder leaves -/

theorem exec_bacDec_num {dir : BufSel} {s : State} {p : ℚ} (hp : s.prob = .num p) :
    exec (.bacDec dir) s = .next { s.setBuf dir.other (bacDecode (s.buf dir) (s.buf dir.other) s.bac p).out with
      bac := (bacDecode (s.buf dir) (s.buf dir.other) s.bac p).bac } := by
  simp only [exec, execBacDec, hp, Prob.anyNumber, State.inBuf, State.outBuf]

/-- The symbol loop advances `writePos` by one a symbol and keeps the multiplier and the encoder's `pending`. -/
theorem decSymbolsBac_frame (inp : Buffer) (n : Nat) (b : Bac) :
    decSymbolsBac inp n b = { b with
      low := (decSymbolsBac inp n b).low, high := (decSymbolsBac inp n b).high
      value := (decSymbolsBac inp n b).value, readPos := (decSymbolsBac inp n b).readPos
      writePos := b.writePos + BitVec.ofNat 32 n } := by
  induction n generalizing b with
  | zero => simp [decSymbolsBac]
  | succ n ih =>
    rw [decSymbolsBac, ih, decSymbolBac_m, decSymbolBac_pending, decSymbolBac_writePos, Word.add_ofNat_succ]

theorem Bac.Ready.decSymbols {b : Bac} (h : b.Ready) (inp : Buffer) (n : Nat) : (decSymbolsBac inp n b).Ready := by
  induction n generalizing b with
  | zero => exact h
  | succ n ih => exact ih (h.decSymbol inp)

theorem decSymbolsBac_readPos {inp : Buffer} (n : Nat) {b : Bac} (h : b.readPos.toNat ≤ inp.len.toNat) :
    (decSymbolsBac inp n b).readPos.toNat ≤ inp.len.toNat := by
  induction n generalizing b with
  | zero => exact h
  | succ n ih =>
    refine ih (decRenorm_induct (P := fun q => q.readPos.toNat ≤ inp.len.toNat)
      (fun q hq _ => Bac.refill_readPos hq) renormFuel ?_)
    rw [Bac.narrow_frame]
    exact h

theorem Bac.decStart_readPos (b : Bac) (inp : Buffer) (p : ℚ) :
    (b.decStart inp p).readPos.toNat = min inp.len.toNat 32 :=
  wrap32_toNat_of_lt (by omega)

theorem bacDecode_frame (inp out : Buffer) (b : Bac) (p : ℚ) :
    (bacDecode inp out b p).bac = { (bacDecode inp out b p).bac with
      m := wrap32 (bacM p), pending := b.pending, writePos := out.len } := by
  rw [bacDecode_bac, decSymbolsBac_frame]
  simp [Bac.decStart, Bac.decInit, Bac.valueLoad]

/-- Settles O36: the symbol loop answers whatever it reads, and ORs as many bits as the out-buffer is long. -/
theorem bacDecoderAlwaysCompletes : Obligations.BacDecoderAlwaysCompletes := by
  intro dir s p hwf hp
  have hbit := bacDecode_bit (s.buf dir) s.bac p hwf
  refine ⟨_, exec_bacDec_num hp, ?_⟩
  simp only [State.buf_with_bac, State.buf_setBuf]
  refine ⟨trivial, ?_, ?_, ?_, ?_, ?_, bacDecode_len _ _ _ _, fun j hj => ?_, fun j hj => ?_, fun k hk => ?_⟩
  · rw [bacDecode_frame]
    exact wrap32_bacM_toNat p
  · rw [bacDecode_frame]
  · rw [bacDecode_bac]
    exact decSymbolsBac_readPos _ (by rw [Bac.decStart_readPos]; exact min_le_left _ _)
  · rw [bacDecode_frame]
  · rw [bacDecode_bac]
    exact ((s.bac.decStart_ready _ p).decSymbols _ _).low_lt_high
  · rw [hbit, hj, Bool.true_or]
  · rw [hbit, List.getD_eq_default _ _ (by rwa [decodedSyms_length]), Bool.or_false]
  · have hlen := (s.buf dir.other).len.isLt
    rw [Buffer.byteLen] at hk
    exact decSymbols_byte _ _ hwf (by show 0 + _ < _; omega) (by show 0 + _ ≤ _; omega)

/-! ### The encoder and the decoder's registers -/

/-- The encoder's loop neither uses nor changes `value` and `writePos`. -/
theorem encRenorm_with_decoder (k : Nat) (b : Bac) (v w : Word) :
    encRenormBac k { b with value := v, writePos := w } = { encRenormBac k b with value := v, writePos := w } ∧
    encRenormBits k { b with value := v, writePos := w } = encRenormBits k b := by
  induction k generalizing b with
  | zero => exact ⟨rfl, rfl⟩
  | succ k ih =>
    obtain ⟨hbac, hbits⟩ := ih b.encPass
    by_cases hd : b.case = .done
    · have hd' : ({ b with value := v, writePos := w } : Bac).case = .done := hd
      simp only [encRenormBac, encRenormBits, if_pos hd, if_pos hd', and_self]
    · have hd' : ({ b with value := v, writePos := w } : Bac).case ≠ .done := hd
      simp only [encRenormBac, encRenormBits, if_neg hd, if_neg hd']
      exact ⟨hbac, congrArg _ hbits⟩

theorem encSymbol_with_decoder (inp : Buffer) (b : Bac) (v w : Word) :
    encSymbolBac inp { b with value := v, writePos := w } = { encSymbolBac inp b with value := v, writePos := w } ∧
    encSymbolBits inp { b with value := v, writePos := w } = encSymbolBits inp b := by
  have hnarrow (sym : Bool) : ({ b with value := v, writePos := w } : Bac).narrow sym =
      { b.narrow sym with value := v, writePos := w } := by cases sym <;> rfl
  obtain ⟨hbac, hbits⟩ := encRenorm_with_decoder renormFuel (b.narrow (inp.bitRead b.readPos.toNat)) v w
  rw [encSymbolBac, encSymbolBits, hnarrow, hbac]
  exact ⟨rfl, hbits⟩

theorem encSymbolBac_readPos_toNat {b : Bac} (inp : Buffer) (h : b.readPos.toNat + 1 < 4294967296) :
    (encSymbolBac inp b).readPos.toNat = b.readPos.toNat + 1 := by
  rw [encSymbolBac_eq]
  exact BitVec.toNat_add_of_lt (x := b.readPos) (y := 1) h

/-- `n` symbols are a function of the message bits that they read and of the encoder's registers. -/
theorem encSymbols_congr {inp inp' : Buffer} (n : Nat) {b : Bac} (v w : Word) (hn : b.readPos.toNat + n < 4294967296)
    (hbits : ∀ j, j < b.readPos.toNat + n → inp.bitRead j = inp'.bitRead j) :
    encSymbolsBac inp' n { b with value := v, writePos := w } =
      { encSymbolsBac inp n b with value := v, writePos := w } ∧
    encSymbolsBits inp' n { b with value := v, writePos := w } = encSymbolsBits inp n b := by
  induction n generalizing b with
  | zero => exact ⟨rfl, rfl⟩
  | succ n ih =>
    have hread := hbits b.readPos.toNat (by omega)
    have hsymbol : encSymbolBac inp' b = encSymbolBac inp b := by rw [encSymbolBac, encSymbolBac, hread]
    have hemit : encSymbolBits inp' b = encSymbolBits inp b := by rw [encSymbolBits, encSymbolBits, hread]
    obtain ⟨hbac, hout⟩ := encSymbol_with_decoder inp' b v w
    have hpos := encSymbolBac_readPos_toNat inp (b := b) (by omega)
    obtain ⟨hbacs, houts⟩ := ih (b := encSymbolBac inp b) (by omega) fun j hj => hbits j (by omega)
    rw [encSymbolsBac, encSymbolsBac, encSymbolsBits, encSymbolsBits, hbac, hout, hsymbol, hemit, houts]
    exact ⟨hbacs, rfl⟩

theorem encodedBac_congr {inp inp' : Buffer} (h : SameBits inp inp') (b b' : Bac) (p : ℚ) :
    encodedBac inp' b' p = { encodedBac inp b p with value := b'.value, writePos := b'.writePos } ∧
    codeBits inp' b' p = codeBits inp b p := by
  obtain ⟨hlen, hbit⟩ := h
  obtain ⟨hbac, hout⟩ := encSymbols_congr inp.len.toNat (b := b.encInit (bacM p)) b'.value b'.writePos
    (inp := inp) (inp' := inp') (by have := inp.len.isLt; show 0 + _ < _; omega)
    fun j hj => hbit j (by rwa [show (b.encInit (bacM p)).readPos.toNat = 0 from rfl, Nat.zero_add] at hj)
  have hencoded : encodedBac inp' b' p = { encodedBac inp b p with value := b'.value, writePos := b'.writePos } := by
    rw [encodedBac, ← hlen]
    exact hbac
  refine ⟨hencoded, ?_⟩
  rw [codeBits, hencoded, ← hlen]
  exact congrArg (· ++ _) hout

/-! ### The decoder, the stream and `pending` -/

theorem Bac.refill_congr {inp inp' : Buffer} (h : SameBits inp inp') (b : Bac) : b.refill inp' = b.refill inp := by
  obtain ⟨hlen, hbit⟩ := h
  unfold Bac.refill
  rw [← hlen]
  split
  · rw [hbit _ ‹_›]
  · rfl

theorem Bac.decPass_with_pending {inp inp' : Buffer} (h : SameBits inp inp') (b : Bac) (q : Word) :
    ({ b with pending := q } : Bac).decPass inp' = { b.decPass inp with pending := q } := by
  unfold Bac.decPass
  rw [Bac.refill_congr h]
  unfold Bac.refill
  split
  · rw [if_pos ‹_›]
    rfl
  · rw [if_neg ‹_›]
    rfl

/-- The decoder's loop is a function of the stream's bits, and neither uses nor changes `pending`. -/
theorem decRenorm_with_pending {inp inp' : Buffer} (h : SameBits inp inp') (k : Nat) (b : Bac) (q : Word) :
    decRenorm inp' k { b with pending := q } = { decRenorm inp k b with pending := q } := by
  induction k generalizing b with
  | zero => rfl
  | succ k ih =>
    have hcase : ({ b with pending := q } : Bac).case = b.case := rfl
    rw [decRenorm_succ, decRenorm_succ, hcase]
    split
    · rfl
    · rw [Bac.decPass_with_pending h, ih]

theorem decSymbolBac_with_pending {inp inp' : Buffer} (h : SameBits inp inp') (b : Bac) (q : Word) :
    decSymbolBac inp' { b with pending := q } = { decSymbolBac inp b with pending := q } := by
  have hnarrow (sym : Bool) : ({ b with pending := q } : Bac).narrow sym =
      { b.narrow sym with pending := q } := by cases sym <;> rfl
  unfold decSymbolBac
  rw [hnarrow]
  exact decRenorm_with_pending h renormFuel { b.narrow b.decodedSym with writePos := b.writePos + 1 } q

theorem decSymbols_congr {inp inp' : Buffer} (h : SameBits inp inp') (n : Nat) (b : Bac) (q : Word) :
    decSymbolsBac inp' n { b with pending := q } = { decSymbolsBac inp n b with pending := q } ∧
    decodedSyms inp' n { b with pending := q } = decodedSyms inp n b := by
  induction n generalizing b with
  | zero => exact ⟨rfl, rfl⟩
  | succ n ih =>
    obtain ⟨hbac, hsyms⟩ := ih (decSymbolBac inp b)
    rw [decSymbolsBac, decSymbolsBac, decodedSyms, decodedSyms, decSymbolBac_with_pending h, hsyms]
    exact ⟨hbac, rfl⟩

theorem loadValueBits_congr {inp inp' : Buffer} (k : Nat) (h : ∀ j, j < k → inp.bitRead j = inp'.bitRead j) :
    loadValueBits inp' k = loadValueBits inp k := by
  induction k with
  | zero => rfl
  | succ k ih => rw [loadValueBits, loadValueBits, ih fun j hj => h j (by omega), h k (by omega)]

theorem Bac.decStart_congr {inp inp' : Buffer} (h : SameBits inp inp') (b b' : Bac) (p : ℚ) :
    b'.decStart inp' p = { b.decStart inp p with pending := b'.pending } := by
  obtain ⟨hlen, hbit⟩ := h
  have hload := loadValueBits_congr (min inp.len.toNat 32) fun j hj => hbit j (hj.trans_le (min_le_left _ _))
  unfold Bac.decStart Bac.valueLoad
  rw [← hlen, hload]
  rfl

/-! ### The obligations -/

/-- A run of `BAC.ENC` that records no fault has completed. -/
theorem exec_bacEnc_completed {dir : BufSel} {s t : State} (h : exec (.bacEnc dir) s = .next t)
    (hf : t.status.fault = false) : ∃ p r, s.prob = .num p ∧
      bacEncode s.params.capBytes (s.buf dir) (s.buf dir.other) s.bac p = .ok r ∧
      t = { s.setBuf dir.other r.out with bac := r.bac } := by
  obtain ⟨-, rfl⟩ | ⟨p, hp, ⟨c, -, rfl⟩ | ⟨r, hr, rfl⟩⟩ := execBacEnc_cases h
  · simp at hf
  · simp at hf
  · exact ⟨p, r, hp, hr, rfl⟩

/-- Settles O37: code and registers of a completed run are `codeBits` and `encodedBac`. -/
theorem bacEncodingIsAFunctionOfItsInputs : Obligations.BacEncodingIsAFunctionOfItsInputs := by
  intro dir dir' s s' t t' hparams hparams' hwf hwf' hempty hempty' hprob hsame ht ht' hf hf'
  obtain ⟨p, r, hp, hr, rfl⟩ := exec_bacEnc_completed ht hf
  obtain ⟨p', r', hp', hr', rfl⟩ := exec_bacEnc_completed ht' hf'
  obtain rfl : p = p' := by simpa [hp, hp'] using hprob
  obtain ⟨hbac, hout⟩ := bacEncode_ok (Params.capBytes_le_of_wf hparams) hwf hr
  obtain ⟨hbac', hout'⟩ := bacEncode_ok (Params.capBytes_le_of_wf hparams') hwf' hr'
  obtain ⟨hregs, hcode⟩ := encodedBac_congr hsame s.bac s'.bac p
  rw [hcode] at hout'
  simp only [State.buf_with_bac, State.buf_setBuf]
  refine ⟨⟨BitVec.eq_of_toNat_eq (by rw [hout.len, hout'.len, hempty, hempty']), fun j hj => ?_⟩, ?_⟩
  · have hbyte : j / 8 < ((codeBits (s.buf dir) s.bac p).length + 7) / 8 := by
      rw [hout.len, hempty] at hj
      simp at hj
      omega
    rw [hout.bit_of_empty (by rw [hempty]; rfl) hbyte, hout'.bit_of_empty (by rw [hempty']; rfl) hbyte]
  · rw [hbac, hbac', hregs]
    exact ⟨rfl, rfl, rfl, rfl, rfl⟩

/-- Settles O38: the symbols are ORed into zeros, and they and the registers are a function of the stream. -/
theorem bacDecodingIsAFunctionOfItsInputs : Obligations.BacDecodingIsAFunctionOfItsInputs := by
  intro dir dir' s s' t t' p hwf hwf' hlen hzero hp hp' hsame ht ht'
  rw [exec_bacDec_num hp] at ht
  rw [exec_bacDec_num hp'] at ht'
  cases ht
  cases ht'
  obtain ⟨hregs, hsyms⟩ := decSymbols_congr hsame (s.buf dir.other).len.toNat
    (s.bac.decStart (s.buf dir) p) s'.bac.pending
  rw [← Bac.decStart_congr hsame] at hregs hsyms
  simp only [State.buf_with_bac, State.buf_setBuf]
  refine ⟨⟨by rw [bacDecode_len, bacDecode_len, hlen], fun j hj => ?_⟩, ?_⟩
  · rw [bacDecode_len] at hj
    obtain ⟨hz, hz'⟩ := hzero j hj
    rw [bacDecode_bit _ _ _ hwf, bacDecode_bit _ _ _ hwf', hz, hz', ← hlen, hsyms]
  · rw [bacDecode_bac, bacDecode_bac, ← hlen, hregs]
    exact ⟨rfl, rfl, rfl, rfl, rfl, rfl⟩

end Sys2Proof.Machine
end

section
/-! PROOFS. The BAC round trip (`43_bac.md` R191). The bits that the encoder still has to append stand for a point on
the scale of `low` and `high` (`codePoint`). That point lies in the encoder's interval, because it does after the
finalisation and every pass and narrowing can be undone; and the decoder's `value` is the point rounded down, the
bits not yet taken in being its fraction, so that the decoder decides every symbol as it was encoded. -/

namespace Sys2Proof.Machine

/-! ### The point of the bits to come lies in the encoder's interval -/

theorem Bac.encPass_low_lt_high {b : Bac} (h : b.low.toNat < b.high.toNat) (hd : b.case ≠ .done) :
    b.encPass.low.toNat < b.encPass.high.toNat := by
  have := Bac.rescale_length h hd
  rw [Bac.encPass_low, Bac.encPass_high]
  omega

/-- A point that the interval contains after the loop was contained in it before. -/
theorem Bac.contains_of_encRenorm (k : Nat) {b : Bac} (h : b.low.toNat < b.high.toNat) (hp : renormCountsFit k b)
    {rest : List Bool}
    (hx : (encRenormBac k b).Contains (codePoint (encRenormBac k b).pending.toNat rest)) :
    b.Contains (codePoint b.pending.toNat (encRenormBits k b ++ rest)) := by
  induction k generalizing b with
  | zero => exact hx
  | succ k ih =>
    unfold encRenormBac at hx
    unfold encRenormBits
    by_cases hd : b.case = .done
    · rw [if_pos hd] at hx ⊢
      exact hx
    · rw [if_neg hd] at hx ⊢
      obtain ⟨hcount, hcounts⟩ := hp.resolve_left hd
      rw [List.append_assoc]
      exact Bac.contains_of_encPass h hd hcount (ih (Bac.encPass_low_lt_high h hd) hcounts hx)

@[simp] theorem Bac.narrow_pending (b : Bac) (sym : Bool) : (b.narrow sym).pending = b.pending := by
  rw [Bac.narrow_frame]

/-- Each part of a narrowed interval lies on its own side of `Mid`. -/
theorem Bac.Ready.contains_narrow {b : Bac} (h : b.Ready) {sym : Bool} {x : ℚ} (hx : (b.narrow sym).Contains x) :
    b.Contains x ∧ (x < b.mid ↔ sym = false) := by
  obtain ⟨hlow, hhigh⟩ := h.mid_bounds
  obtain ⟨elow, ehigh⟩ := Bac.narrow_toNat hhigh.le sym
  obtain ⟨hx1, hx2⟩ := hx
  rw [elow] at hx1
  rw [ehigh] at hx2
  have hlow' : (b.low.toNat : ℚ) < b.mid := by exact_mod_cast hlow
  have hhigh' : (b.mid : ℚ) < b.high.toNat := by exact_mod_cast hhigh
  cases sym with
  | false => exact ⟨⟨hx1, hx2.trans hhigh'⟩, iff_of_true hx2 rfl⟩
  | true => exact ⟨⟨hlow'.le.trans hx1, hx2⟩, iff_of_false (not_lt.mpr hx1) nofun⟩

/-- The bits that the encoder appends from the registers `b` on, with `n` symbols to go. -/
def bitsToCome (msg : Buffer) (n : Nat) (b : Bac) : List Bool :=
  encSymbolsBits msg n b ++
    emitBits (!decide ((encSymbolsBac msg n b).low.toNat < q1)) ((encSymbolsBac msg n b).pending.toNat + 1)

theorem bitsToCome_succ (msg : Buffer) (n : Nat) (b : Bac) :
    bitsToCome msg (n + 1) b = encSymbolBits msg b ++ bitsToCome msg n (encSymbolBac msg b) :=
  List.append_assoc _ _ _

theorem codeBits_eq_bitsToCome (msg : Buffer) (b : Bac) (p : ℚ) :
    codeBits msg b p = bitsToCome msg msg.len.toNat (b.encInit (bacM p)) := rfl

/-- The quarter that the finalisation names lies in the interval. -/
theorem Bac.Ready.contains_final {b : Bac} (h : b.Ready) :
    b.Contains (codePoint b.pending.toNat (emitBits (!decide (b.low.toNat < q1)) (b.pending.toNat + 1))) := by
  obtain ⟨hhigh, hlow, hquarter⟩ := renormCase_done.mp h.done
  rw [codePoint_final, Bac.Contains]
  by_cases hq : b.low.toNat < q1
  · have hle : b.low.toNat ≤ 2 ^ 30 := by unfold q1 at hq; omega
    have hgt : 2 ^ 30 < b.high.toNat := by omega
    simp only [hq, decide_true, Bool.not_true, Bool.false_eq_true, if_false]
    exact ⟨by exact_mod_cast hle, by exact_mod_cast hgt⟩
  · have hle : b.low.toNat ≤ 2 ^ 31 := by omega
    have hgt : 2 ^ 31 < b.high.toNat := by unfold q1 at hq; omega
    simp only [hq, decide_false, Bool.not_false, if_true]
    exact ⟨by exact_mod_cast hle, by exact_mod_cast hgt⟩

theorem Bac.Ready.contains_bitsToCome {msg : Buffer} (n : Nat) {b : Bac} (h : b.Ready) (hp : symbolCountsFit msg n b) :
    b.Contains (codePoint b.pending.toNat (bitsToCome msg n b)) := by
  induction n generalizing b with
  | zero => exact h.contains_final
  | succ n ih =>
    obtain ⟨hcount, hcounts⟩ := hp
    have hnext := ih (h.encSymbol msg) hcounts
    have hx := Bac.contains_of_encRenorm renormFuel (h.narrow _) hcount hnext
    rw [Bac.narrow_pending] at hx
    rw [bitsToCome_succ]
    exact (h.contains_narrow hx).1

/-! ### The decoder follows the encoder -/

/-- The decoder's registers `d` over the stream of the bits `cs` are the encoder's `b`, and `value` with the bits not
yet taken in as its fraction is the point `x`. -/
structure Follows (cs : List Bool) (d b : Bac) (x : ℚ) : Prop where
  low : d.low = b.low
  high : d.high = b.high
  m : d.m = b.m
  readPos : d.readPos.toNat ≤ cs.length
  point : (d.value.toNat : ℚ) + binFrac (cs.drop d.readPos.toNat) = x

section

variable {cs : List Bool} {d b : Bac} {x : ℚ}

/-- `value` is the point rounded down: it compares with every number as the point does. -/
theorem Follows.value_lt_iff (h : Follows cs d b x) (k : Nat) : d.value.toNat < k ↔ x < k := by
  obtain ⟨hnonneg, hlt⟩ := binFrac_range (cs.drop d.readPos.toNat)
  have hpoint := h.point
  constructor
  · intro hk
    have : (d.value.toNat : ℚ) + 1 ≤ k := by exact_mod_cast hk
    linarith
  · intro hk
    have : (d.value.toNat : ℚ) < k := by linarith
    exact_mod_cast this

theorem Follows.case_eq (h : Follows cs d b x) : d.case = b.case := by
  rw [Bac.case, Bac.case, h.low, h.high]

theorem Follows.mid_eq (h : Follows cs d b x) : d.mid = b.mid := by
  rw [Bac.mid, Bac.mid, h.low, h.high, h.m]

/-- Narrowing moves no point. -/
theorem Follows.narrow (h : Follows cs d b x) (sym : Bool) : Follows cs (d.narrow sym) (b.narrow sym) x := by
  have hmid := h.mid_eq
  obtain ⟨hlow, hhigh, hm, hpos, hpoint⟩ := h
  cases sym with
  | false => exact ⟨hlow, congrArg wrap32 hmid, hm, hpos, hpoint⟩
  | true => exact ⟨congrArg wrap32 hmid, hhigh, hm, hpos, hpoint⟩

/-- The decoder's doubling, as numbers, where `value` lies in the interval: nothing is lost. -/
theorem Bac.rescaleValue_toNat {off : Nat} (hlow : off ≤ d.value.toNat) (hhigh : 2 * (d.value.toNat - off) < 2 ^ 32) :
    (d.rescaleValue off).value.toNat = 2 * (d.value.toNat - off) := by
  have hoff : (wrap32 off).toNat = off := wrap32_toNat_of_lt (hlow.trans_lt d.value.isLt)
  have hsub : (d.value - wrap32 off).toNat = d.value.toNat - off := by
    rw [BitVec.toNat_sub_of_le (BitVec.le_def.mpr (by rwa [hoff])), hoff]
  show (2 * (d.value - wrap32 off)).toNat = _
  rw [BitVec.toNat_mul, hsub]
  exact Nat.mod_eq_of_lt hhigh

theorem toNat_or_wrap32_bool {w : Word} (h : w.toNat % 2 = 0) (y : Bool) :
    (w ||| wrap32 y.toNat).toNat = w.toNat + y.toNat := by
  obtain ⟨k, hk⟩ : ∃ k, w.toNat = 2 ^ 1 * k := ⟨w.toNat / 2, by omega⟩
  have hy : (wrap32 y.toNat).toNat = y.toNat := by cases y <;> rfl
  rw [BitVec.toNat_or, hy, hk, Nat.two_pow_add_eq_or_of_lt y.toNat_lt]

variable {code : Buffer} (hlen : code.len.toNat = cs.length)
  (hbits : ∀ j, j < cs.length → code.bitRead j = cs.getD j false)

include hlen hbits

/-- A refill after a doubling moves the highest bit of the fraction into `value`. -/
theorem Bac.refill_point (heven : d.value.toNat % 2 = 0) (hpos : d.readPos.toNat ≤ cs.length) :
    ((d.refill code).value.toNat : ℚ) + binFrac (cs.drop (d.refill code).readPos.toNat) =
      d.value.toNat + 2 * binFrac (cs.drop d.readPos.toNat) := by
  unfold Bac.refill
  split
  · rename_i hlt
    have hread : d.readPos.toNat < cs.length := hlen ▸ hlt
    have hnext : (d.readPos + 1).toNat = d.readPos.toNat + 1 :=
      BitVec.toNat_add_of_lt (x := d.readPos) (y := 1) (Nat.lt_of_le_of_lt hlt code.len.isLt)
    have hcons : cs.drop d.readPos.toNat = code.bitRead d.readPos.toNat :: cs.drop (d.readPos.toNat + 1) := by
      rw [hbits _ hread, List.getD_eq_getElem _ _ hread]
      exact List.drop_eq_getElem_cons hread
    simp only [hnext, toNat_or_wrap32_bool heven, hcons, binFrac]
    push_cast
    ring
  · have hend : d.readPos.toNat = cs.length := by omega
    simp [hend, binFrac]

/-- A pass of both loops doubles the point about the offset of the case. -/
theorem Follows.pass (h : Follows cs d b x) (hd : b.case ≠ .done)
    (hx : b.Contains x) : Follows cs (d.decPass code) b.encPass (2 * (x - b.case.offset)) := by
  obtain ⟨hx1, hx2⟩ := hx
  obtain ⟨hoff, hfits⟩ := offset_le b.high.isLt hd
  change b.case.offset ≤ _ at hoff
  change 2 * (_ - b.case.offset) < _ at hfits
  have hlow : b.low.toNat ≤ d.value.toNat := not_lt.mp (mt (h.value_lt_iff _).mp (not_lt.mpr hx1))
  have hhigh : d.value.toNat < b.high.toNat := (h.value_lt_iff _).mpr hx2
  have hvalue : (d.rescaleValue b.case.offset).value.toNat = 2 * (d.value.toNat - b.case.offset) :=
    Bac.rescaleValue_toNat (by omega) (by omega)
  have hpoint := Bac.refill_point (d := (d.rescaleValue b.case.offset).rescale b.case.offset) hlen hbits
    (by show (d.rescaleValue b.case.offset).value.toNat % 2 = 0; omega) h.readPos
  have hcast : ((d.rescaleValue b.case.offset).value.toNat : ℚ) = 2 * (d.value.toNat - b.case.offset) := by
    rw [hvalue]
    push_cast [Nat.cast_sub (hoff.trans hlow)]
    ring
  refine ⟨?_, ?_, ?_, ?_, ?_⟩
  · rw [Bac.decPass_low, Bac.encPass_low, h.case_eq, Bac.rescale, Bac.rescale, h.low]
  · rw [Bac.decPass_high, Bac.encPass_high, h.case_eq, Bac.rescale, Bac.rescale, h.high]
  · rw [Bac.decPass_frame]
    exact h.m
  · have hpos := Bac.refill_readPos (b := (d.rescaleValue d.case.offset).rescale d.case.offset) (inp := code)
      (by rw [hlen]; exact h.readPos)
    rwa [hlen] at hpos
  · rw [Bac.decPass, h.case_eq, hpoint]
    show ((d.rescaleValue b.case.offset).value.toNat : ℚ) + 2 * binFrac (cs.drop d.readPos.toNat) = _
    rw [hcast, ← h.point]
    ring

/-- Through the renormalisation loop the point stays that of the bits to come. -/
theorem Follows.renorm (k : Nat) {rest : List Bool} (hlt : b.low.toNat < b.high.toNat) (hp : renormCountsFit k b)
    (hx : (encRenormBac k b).Contains (codePoint (encRenormBac k b).pending.toNat rest))
    (h : Follows cs d b (codePoint b.pending.toNat (encRenormBits k b ++ rest))) :
    Follows cs (decRenorm code k d) (encRenormBac k b) (codePoint (encRenormBac k b).pending.toNat rest) := by
  induction k generalizing b d with
  | zero => exact h
  | succ k ih =>
    have hin := Bac.contains_of_encRenorm (k + 1) hlt hp hx
    unfold encRenormBac at hx ⊢
    unfold encRenormBits at h hin
    rw [decRenorm_succ, h.case_eq]
    by_cases hd : b.case = .done
    · rw [if_pos hd] at h
      rw [if_pos hd, if_pos hd]
      exact h
    · rw [if_neg hd] at h hx hin
      rw [if_neg hd, if_neg hd]
      obtain ⟨hcount, hcounts⟩ := hp.resolve_left hd
      have hpass := h.pass hlen hbits hd hin
      have hdouble := codePoint_caseBits hd hcount (encRenormBits k b.encPass ++ rest)
      rw [List.append_assoc, hdouble, add_sub_cancel_right, mul_div_cancel₀ _ two_ne_zero] at hpass
      exact ih (Bac.encPass_low_lt_high hlt hd) hcounts hx hpass

/-- One symbol: decided as it was encoded, and followed to the next one. -/
theorem Follows.symbol {msg : Buffer} {rest : List Bool} (hb : b.Ready)
    (hp : renormCountsFit renormFuel (b.narrow (msg.bitRead b.readPos.toNat)))
    (hx : (encSymbolBac msg b).Contains (codePoint (encSymbolBac msg b).pending.toNat rest))
    (h : Follows cs d b (codePoint b.pending.toNat (encSymbolBits msg b ++ rest))) :
    d.decodedSym = msg.bitRead b.readPos.toNat ∧
    Follows cs (decSymbolBac code d) (encSymbolBac msg b) (codePoint (encSymbolBac msg b).pending.toNat rest) := by
  have hin := Bac.contains_of_encRenorm renormFuel (hb.narrow (msg.bitRead b.readPos.toNat)) hp hx
  rw [Bac.narrow_pending] at hin
  have hsym : d.decodedSym = msg.bitRead b.readPos.toNat := by
    have hside := (h.value_lt_iff b.mid).trans (hb.contains_narrow hin).2
    simp [Bac.decodedSym, h.mid_eq, hside]
  obtain ⟨hlow, hhigh, hm, hpos, hpoint⟩ := h.narrow (msg.bitRead b.readPos.toNat)
  rw [← Bac.narrow_pending b (msg.bitRead b.readPos.toNat)] at hpoint
  have hrenorm := Follows.renorm hlen hbits renormFuel (hb.narrow _) hp hx
    (d := { d.narrow (msg.bitRead b.readPos.toNat) with writePos := d.writePos + 1 }) ⟨hlow, hhigh, hm, hpos, hpoint⟩
  obtain ⟨hlow', hhigh', hm', hpos', hpoint'⟩ := hrenorm
  rw [decSymbolBac, hsym]
  exact ⟨rfl, hlow', hhigh', hm', hpos', hpoint'⟩

/-- The decoded symbols are the message bits from `readPos` on. -/
theorem Follows.decodedSyms_eq {msg : Buffer} (n : Nat) (hb : b.Ready) (hp : symbolCountsFit msg n b)
    (hn : b.readPos.toNat + n < 4294967296)
    (h : Follows cs d b (codePoint b.pending.toNat (bitsToCome msg n b))) :
    decodedSyms code n d = (List.range' b.readPos.toNat n).map msg.bitRead := by
  induction n generalizing b d with
  | zero => rfl
  | succ n ih =>
    obtain ⟨hcount, hcounts⟩ := hp
    have hready := hb.encSymbol msg
    rw [bitsToCome_succ] at h
    obtain ⟨hsym, hnext⟩ := h.symbol hlen hbits hb hcount (hready.contains_bitsToCome n hcounts)
    have hpos := encSymbolBac_readPos_toNat msg (b := b) (by omega)
    have hrest := ih hready hcounts (by omega) hnext
    rw [decodedSyms, hsym, hrest, hpos, List.range'_succ, List.map_cons]

/-- The value load takes in the integer part of the point. -/
theorem Bac.decStart_follows (b' : Bac) (p : ℚ) :
    Follows cs (b'.decStart code p) (b.encInit (bacM p)) (codePoint 0 cs) := by
  have hload := loadValueBits_lt code (min cs.length 32)
  have hvalue : (b'.decStart code p).value.toNat =
      loadValueBits code (min cs.length 32) * 2 ^ (32 - min cs.length 32) := by
    rw [← hlen] at hload ⊢
    refine wrap32_toNat_of_lt ?_
    calc _ < 2 ^ min code.len.toNat 32 * 2 ^ (32 - min code.len.toNat 32) :=
          Nat.mul_lt_mul_of_pos_right hload (Nat.two_pow_pos _)
      _ = 4294967296 := by rw [← Nat.pow_add, Nat.add_sub_cancel' (min_le_right _ _)]
  refine ⟨rfl, rfl, rfl, ?_, ?_⟩
  · rw [Bac.decStart_readPos, hlen]
    exact min_le_left _ _
  · rw [Bac.decStart_readPos, hlen, hvalue, codePoint, binFrac_load hbits _ (min_le_left cs.length 32)]
    rcases Nat.le_total cs.length 32 with hshort | hfull
    · rw [min_eq_left hshort, List.drop_length]
      have hsplit : (2 : ℚ) ^ 32 = 2 ^ (32 - cs.length) * 2 ^ cs.length := by
        rw [← pow_add, Nat.sub_add_cancel hshort]
      rw [hsplit, binFrac]
      push_cast
      field_simp
      ring
    · rw [min_eq_right hfull]
      push_cast
      field_simp
      ring

end

/-! ### The commands -/

theorem symbolCountsFit_of_bacEncode {cap : Nat} (hc : cap ≤ 536870911) {msg out : Buffer} {b : Bac} {p : ℚ}
    {r : BacRun} (hb : out.bytes.wf = true) (h : bacEncode cap msg out b p = .ok r) :
    symbolCountsFit msg msg.len.toNat (b.encInit (bacM p)) := by
  unfold bacEncode at h
  split at h
  · cases h
  · exact symbolCountsFit_of_ok hc _ (r := { out := out, bac := b.encInit (bacM p) }) hb ‹_›

/-- The symbols that the decoder finds in a code appended to an empty stream are those of the message. -/
theorem decodedSyms_of_bacEncode {cap : Nat} (hc : cap ≤ 536870911) {msg out : Buffer} {b : Bac} {p : ℚ} {r : BacRun}
    (hb : out.bytes.wf = true) (hempty : out.len.toNat = 0) (h : bacEncode cap msg out b p = .ok r) (b' : Bac) :
    decodedSyms r.out msg.len.toNat (b'.decStart r.out p) = (List.range msg.len.toNat).map msg.bitRead := by
  obtain ⟨-, hout⟩ := bacEncode_ok hc hb h
  have hlen : r.out.len.toNat = (codeBits msg b p).length := by rw [hout.len, hempty, Nat.zero_add]
  have hbits : ∀ j, j < (codeBits msg b p).length → r.out.bitRead j = (codeBits msg b p).getD j false :=
    fun j hj => hout.bit_of_empty hempty (by omega)
  rw [List.range_eq_range']
  exact Follows.decodedSyms_eq hlen hbits msg.len.toNat (b.encInit_ready p) (symbolCountsFit_of_bacEncode hc hb h)
    (by have := msg.len.isLt; show 0 + _ < _; omega) (Bac.decStart_follows hlen hbits b' p)

/-- The round trip of the two commands' effects: the message is decoded into a zero buffer of its length. -/
theorem bacDecode_of_bacEncode {cap : Nat} (hc : cap ≤ 536870911) {msg out : Buffer} {b : Bac} {p : ℚ} {r : BacRun}
    (hb : out.bytes.wf = true) (hempty : out.len.toNat = 0) (h : bacEncode cap msg out b p = .ok r) (b' : Bac)
    {out' : Buffer} (hb' : out'.bytes.wf = true) (hlen : out'.len = msg.len)
    (hzero : ∀ j, j < msg.len.toNat → out'.bitRead j = false) :
    SameBits (bacDecode r.out out' b' p).out msg := by
  have hlen' : (bacDecode r.out out' b' p).out.len = msg.len := (bacDecode_len ..).trans hlen
  refine ⟨hlen', fun j hj => ?_⟩
  rw [hlen'] at hj
  rw [bacDecode_bit _ _ _ hb', hzero j hj, Bool.false_or, hlen, decodedSyms_of_bacEncode hc hb hempty h]
  simp [hj]

/-- The bits of the bytes that `BB.NEW` clears. -/
theorem Buffer.bitRead_clearBelow (m : Memory) (n : Nat) (l : Word) {j : Nat} (hj : j < n) :
    Buffer.bitRead { bytes := m.clearBelow ((n + 7) / 8), len := l } j = false := by
  rw [Buffer.bitRead, Buffer.byte, Memory.read_clearBelow, if_pos (by omega)]
  exact BitVec.getLsbD_zero

/-- Settles O39: `BB.NEW` leaves the code alone and zeros for the message, so that the effects of the two commands
make a round trip. -/
theorem bacRoundTrip : Obligations.BacRoundTrip := by
  intro dir s t u v p hparams hbytes hp hempty ht htf hu huf hv
  obtain ⟨p', r, hp', hr, ht'⟩ := exec_bacEnc_completed ht htf
  obtain rfl : p = p' := by simpa [hp] using hp'
  have htcode : t.buf dir.other = r.out := by rw [ht', State.buf_with_bac, State.buf_setBuf]
  have htmsg : t.buf dir = s.buf dir := by rw [ht', State.buf_with_bac, State.buf_setBuf_other]
  obtain ⟨-, hu'⟩ | ⟨-, hu'⟩ := execBbNew_cases hu
  · simp [hu'] at huf
  have hucode : u.buf dir.other = r.out := by rw [hu', State.buf_other_setBuf, State.buf_with_arg0, htcode]
  have humsg : u.buf dir =
      { bytes := (s.buf dir).bytes.clearBelow (((s.buf dir).len.toNat + 7) / 8), len := (s.buf dir).len } := by
    rw [hu', State.buf_setBuf, State.buf_with_arg0, htmsg]
  have hdec := exec_bacDec_num (dir := dir.other) (s := u) (p := p) (by simp [hu', ht', hp])
  rw [BufSel.other_other, hucode, humsg] at hdec
  have hv' := Host.Outcome.next.inj (hv.symm.trans hdec)
  refine ⟨by simpa [hv'] using huf, ?_⟩
  rw [hv', State.buf_with_bac, State.buf_setBuf]
  exact bacDecode_of_bacEncode (Params.capBytes_le_of_wf hparams) (hbytes dir.other).1 (by rw [hempty]; rfl) hr u.bac
    (Memory.wf_clearBelow (hbytes dir).1 _) rfl fun j => Buffer.bitRead_clearBelow _ _ _

end Sys2Proof.Machine
end

section
/-! PROOFS. The configuration and the two transitions of the rANS unit (`44_rans.md` R200 to R203): the encode
transition puts a state into the slots of its symbol, and the decode transition reads state and symbol off the slot. -/

namespace Sys2Proof.Machine

/-! ### The transitions -/

section

variable {c : RansConf} (h : c.Legal)

include h

theorem RansConf.Legal.freq_lt (sym : Bool) : c.freq sym < 2 ^ 31 := by
  obtain ⟨-, hlt, hT, -⟩ := h.bounds sym
  omega

/-- The formula of R202, the fast division being exact. -/
theorem RansConf.Legal.encTr_eq {x : Nat} (hx : x < 2 ^ 31) (sym : Bool) :
    encTr c x sym = c.totalFreq.toNat * (x / c.freq sym) + c.cum sym + x % c.freq sym := by
  rw [encTr, h.fd_eq, fastDivisionIsExact _ _ (h.freq_pos sym) (h.freq_lt sym) hx]

/-- `DecTr` (R203) with its mask and its shift as remainder and quotient. -/
theorem RansConf.Legal.decTr_eq {y : Nat} {sym : Bool}
    (hsym : decide (c.cum true ≤ y % c.totalFreq.toNat) = sym) :
    decTr c y =
      (c.freq sym * (y / c.totalFreq.toNat) + (y % c.totalFreq.toNat - c.cum sym), sym) := by
  have hdec : decSym c y = sym := by rw [decSym, h.and_totalFreq, hsym]
  rw [decTr, decNext, hdec, h.and_totalFreq, h.shift_r]

/-- The slots of a symbol start at its `cum` and are `freq` many; those of 1 follow those of 0. -/
theorem RansConf.Legal.slot_sym {k : Nat} {sym : Bool} (hk : k < c.freq sym) :
    decide (c.cum true ≤ c.cum sym + k) = sym := by
  cases sym with
  | false => rw [h.cum_one, h.cum_zero, decide_eq_false_iff_not]; omega
  | true => simp

/-- The decode transition of a slot. -/
theorem RansConf.Legal.decTr_slot (q : Nat) {k : Nat} {sym : Bool} (hk : k < c.freq sym) :
    decTr c (c.totalFreq.toNat * q + c.cum sym + k) = (c.freq sym * q + k, sym) := by
  obtain ⟨-, -, -, hslots⟩ := h.bounds sym
  have hr : c.cum sym + k < c.totalFreq.toNat := by omega
  have hmod : (c.totalFreq.toNat * q + c.cum sym + k) % c.totalFreq.toNat = c.cum sym + k := by
    rw [Nat.add_assoc, Nat.mul_add_mod, Nat.mod_eq_of_lt hr]
  have hdiv : (c.totalFreq.toNat * q + c.cum sym + k) / c.totalFreq.toNat = q := by
    rw [Nat.add_assoc, Nat.mul_add_div (by omega), Nat.div_eq_of_lt hr, Nat.add_zero]
  rw [h.decTr_eq (hmod ▸ h.slot_sym hk), hmod, hdiv, Nat.add_sub_cancel_left]

/-- R203: "`DecTr(EncTr(x, s)) = (x, s)`". -/
theorem RansConf.Legal.decTr_encTr {x : Nat} (hx : x < 2 ^ 31) (sym : Bool) : decTr c (encTr c x sym) = (x, sym) := by
  rw [h.encTr_eq hx, h.decTr_slot _ (Nat.mod_lt _ (h.freq_pos sym)), Nat.div_add_mod]

/-- R208: `totalFreq · 256` and with it every threshold fits 31 bits. -/
theorem RansConf.Legal.totalFreq_mul_le : c.totalFreq.toNat * 256 ≤ 2 ^ 31 := by
  obtain ⟨-, -, hT, -⟩ := h.bounds false
  omega

theorem RansConf.Legal.lt_of_lt_thr {x : Nat} {sym : Bool} (hx : x < c.thr sym) : x < 2 ^ 31 := by
  obtain ⟨-, hlt, hT, -⟩ := h.bounds sym
  rw [h.thr_eq] at hx
  omega

/-- Below the threshold the quotient of R202 is at most 255. -/
theorem RansConf.Legal.encTr_lt {x : Nat} {sym : Bool} (hx : x < c.thr sym) :
    encTr c x sym < c.totalFreq.toNat * 256 := by
  have hmod := Nat.mod_lt x (h.freq_pos sym)
  have hq : x / c.freq sym + 1 ≤ 256 := Nat.div_lt_of_lt_mul (by rwa [h.thr_eq] at hx)
  obtain ⟨-, -, -, hslots⟩ := h.bounds sym
  rw [h.encTr_eq (h.lt_of_lt_thr hx)]
  calc _ < c.totalFreq.toNat * (x / c.freq sym + 1) := by rw [Nat.mul_succ]; omega
    _ ≤ c.totalFreq.toNat * 256 := Nat.mul_le_mul_left _ hq

/-- From `freq` on the quotient of R202 is at least 1. -/
theorem RansConf.Legal.le_encTr {x : Nat} {sym : Bool} (hx : x < c.thr sym) (hf : c.freq sym ≤ x) :
    c.totalFreq.toNat ≤ encTr c x sym := by
  have hq : 1 ≤ x / c.freq sym := Nat.div_pos hf (h.freq_pos sym)
  rw [h.encTr_eq (h.lt_of_lt_thr hx), Nat.add_assoc]
  exact le_add_right (Nat.le_mul_of_pos_right _ hq)

end

/-! ### `RANS.CFG` -/

section

variable {s : State}

theorem exec_ransCfg_inside {p : ℚ} (hp : s.prob.inUnit = .ok p) (h2 : 2 ≤ s.arg0.toNat) (h23 : s.arg0.toNat ≤ 23) :
    exec .ransCfg s = .next { s with rans := ransConf p s.arg0.toNat, status := s.status.configured } := by
  rw [exec, execRansCfg, hp]
  exact if_neg (by rw [State.argNat]; omega)

theorem ransCfg_invalidProbability (h : s.prob.inUnit = .error .invalidProbability) : FaultsWith .ransCfg s 2 := by
  have hraised : execRansCfg s = raised s .invalidProbability := by rw [execRansCfg, h]
  exact hraised

theorem ransCfg_invalidRangeWidth {p : ℚ} (hp : s.prob.inUnit = .ok p) (h : s.arg0.toNat < 2 ∨ 23 < s.arg0.toNat) :
    FaultsWith .ransCfg s 3 := by
  have hraised : execRansCfg s = raised s .invalidRangeWidth := by
    rw [execRansCfg, hp]
    exact if_pos h
  exact hraised

end

/-- The registers of `RansCfg(p, R)` that depend on the operands. -/
theorem ransConf_r_freq (p : ℚ) {r : Nat} (h2 : 2 ≤ r) (h23 : r ≤ 23) :
    (ransConf p r).r.toNat = r ∧ (ransConf p r).freq false = freqZero p (2 ^ r) := by
  obtain ⟨h0, h1⟩ := freqZero_bounds p (Nat.le_self_pow (by omega) 2 : 2 ≤ 2 ^ r)
  obtain ⟨hr, -, hf, -⟩ := confOf_toNat h2 h23 h0 h1
  exact ⟨hr, hf⟩

/-- The rounding and the clip of R200 over the rationals. -/
theorem freqZero_cast {p : ℚ} (hp : p ≤ 1) {t : Nat} (ht : 1 ≤ t) :
    (freqZero p t : ℚ) = min (max (⌊(1 - p) * t + 1 / 2⌋ : ℚ) 1) (t - 1) := by
  have hx : 0 ≤ (1 - p) * t + 1 / 2 := by
    have := mul_nonneg (sub_nonneg.mpr hp) (Nat.cast_nonneg (α := ℚ) t)
    linarith
  rw [freqZero, roundHalfUp, Nat.cast_min, Nat.cast_max, natCast_floor_eq_intCast_floor hx, Nat.cast_sub ht, Nat.cast_one]

/-! ### The obligations -/

/-- Settles O40: the stored registers are those of R200, legal for every legal pair, and `f0` is the rounded one. -/
theorem ransCfgStoresALegalConfiguration : Obligations.RansCfgStoresALegalConfiguration := by
  refine ⟨fun s p hp h0 h1 => ?_, fun s p hp hout => ransCfg_invalidProbability ?_,
    fun s hp => ransCfg_invalidProbability ?_⟩
  · have hin : s.prob.inUnit = .ok p := Prob.inUnit_ok.mpr ⟨hp, h0, h1⟩
    refine ⟨fun h2 h23 => ?_, ransCfg_invalidRangeWidth hin⟩
    obtain ⟨hr, hf⟩ := ransConf_r_freq p h2 h23
    refine ⟨_, exec_ransCfg_inside hin h2 h23, rfl, ransConf_legal p h2 h23, hr, ?_⟩
    rw [hf, freqZero_cast h1 Nat.one_le_two_pow, Nat.cast_pow, Nat.cast_ofNat]
  · rw [hp, Prob.inUnit_outside hout]
  · rw [hp, Prob.inUnit]

/-- Settles O41: the encode transition leads to a slot of its symbol, off which the decode transition reads both. -/
theorem decodeTransitionInvertsEncodeTransition : Obligations.DecodeTransitionInvertsEncodeTransition :=
  fun _ _ sym h hx => h.decTr_encTr hx sym

/-- Settles O42: the quotient is at most 255 below the threshold, and at least 1 from `freq` on. -/
theorem encodeTransitionStaysInRange : Obligations.EncodeTransitionStaysInRange :=
  fun _ _ sym h hx => ⟨h.encTr_eq (h.lt_of_lt_thr hx) sym, h.encTr_lt hx, h.totalFreq_mul_le, h.le_encTr hx⟩

/-- Settles O43: the decode transition never leads to a larger state. -/
theorem decodeTransitionStaysInRange : Obligations.DecodeTransitionStaysInRange :=
  fun _ x h hx => ⟨(decNext_le h x).trans_lt hx, (decNext_le h x).trans_lt⟩

end Sys2Proof.Machine
end

section
/-! PROOFS. The rANS encoder (`44_rans.md` R204, R206, R208): between two symbols the state stays in
`[totalFreq, totalFreq · 256)`, so that a flush takes at most 3 bytes, which bounds the room that a message needs. -/

namespace Sys2Proof.Machine

/-! ### `Flush` -/

/-- The state and the length after a flush, in an out-buffer that need not be in canonical form. -/
theorem flush_st_len {cap : Nat} (hc : cap ≤ 536870911) {c : RansConf} {sym : Bool} (fuel : Nat) {r r' : RansRun}
    (h : flush cap c sym fuel r = .ok r') :
    r'.st = flushState c sym fuel r.st ∧
    r'.out.len.toNat = r.out.len.toNat + 8 * (flushBytes c sym fuel r.st).length := by
  induction fuel generalizing r with
  | zero => cases h; exact ⟨rfl, rfl⟩
  | succ fuel ih =>
    unfold flush at h
    unfold flushState flushBytes
    split at h
    · rename_i hd
      cases h
      rw [if_pos hd, if_pos hd]
      exact ⟨rfl, rfl⟩
    · rename_i hd
      rw [if_neg hd, if_neg hd]
      split at h
      · cases h
      · rename_i o ho
        obtain ⟨hst, hlen⟩ := ih h
        have hpass : o.len.toNat = r.out.len.toNat + 8 := Buffer.byteAppend_len hc ho
        exact ⟨hst, hlen.trans (by simp only [hpass, List.length_cons]; omega)⟩

/-- R208 (a): the states between two symbols. -/
def RansConf.InRange (c : RansConf) (st : Word) : Prop :=
  c.totalFreq.toNat ≤ st.toNat ∧ st.toNat < c.totalFreq.toNat * 256

section

variable {c : RansConf} {st : Word}

/-- R208 (b): a flush of such a state ends in `[freq, thr)`, after at most 3 bytes. -/
theorem RansConf.InRange.after_flush (hst : c.InRange st) (h : c.Legal) (cap : Nat) (sym : Bool) :
    c.freq sym ≤ (flushState c sym (flushFuel cap) st).toNat ∧
    (flushState c sym (flushFuel cap) st).toNat < c.thr sym ∧
    (flushBytes c sym (flushFuel cap) st).length ≤ 3 := by
  obtain ⟨-, hlt, -, -⟩ := h.bounds sym
  have hrange := flushState_range (h.thr_eq sym) (h.freq_pos sym) (Nat.le_of_succ_le hlt) h.totalFreq_mul_le
    (show 4 ≤ flushFuel cap by unfold flushFuel; omega) hst.1 hst.2
  rwa [← h.thr_eq] at hrange

/-! ### The symbol loop -/

theorem RansConf.Legal.computeEnc_toNat (h : c.Legal) {x : Word} {sym : Bool} (hx : x.toNat < c.thr sym) :
    (computeEnc c x sym).toNat = encTr c x.toNat sym :=
  wrap32_toNat_of_lt (((h.encTr_lt hx).trans_le h.totalFreq_mul_le).trans (by decide))

/-- The encoder starts in range. -/
theorem RansConf.Legal.inRange_start (h : c.Legal) : c.InRange (wrap32 c.totalFreq.toNat) := by
  obtain ⟨-, hpos, hT, -⟩ := h.bounds false
  rw [RansConf.InRange, wrap32_toNat_of_lt (by omega)]
  omega

/-- A flush and the transition lead back into the range. -/
theorem RansConf.InRange.after_symbol (hst : c.InRange st) (h : c.Legal) (cap : Nat) (sym : Bool) :
    c.InRange (symbolState c (computeEnc c) (flushFuel cap) sym st) := by
  obtain ⟨hf, hx, -⟩ := hst.after_flush h cap sym
  rw [symbolState, RansConf.InRange, h.computeEnc_toNat hx]
  exact ⟨h.le_encTr hx hf, h.encTr_lt hx⟩

theorem RansConf.InRange.after_symbols (hst : c.InRange st) (h : c.Legal) (cap : Nat) (inp : Buffer) (n : Nat) :
    c.InRange (symbolsState c (computeEnc c) (flushFuel cap) inp n st) := by
  induction n generalizing st with
  | zero => exact hst
  | succ n ih => exact ih (hst.after_symbol h cap _)

theorem RansConf.InRange.symbolsBytes_length (hst : c.InRange st) (h : c.Legal) (cap : Nat) (inp : Buffer) (n : Nat) :
    (symbolsBytes c (computeEnc c) (flushFuel cap) inp n st).length ≤ 3 * n := by
  induction n generalizing st with
  | zero => exact Nat.le_refl 0
  | succ n ih =>
    have hrest := ih (hst.after_symbol h cap (inp.bitRead n))
    obtain ⟨-, -, hflush⟩ := hst.after_flush h cap (inp.bitRead n)
    rw [symbolsBytes, List.length_append]
    omega

end

section

variable {cap : Nat} (hc : cap ≤ 536870911) {c : RansConf} {tr : Word → Bool → Word} {inp : Buffer}

include hc

/-- With room for the bytes of the symbols the loop does not fault. -/
theorem ransEncSymbols_of_room (n : Nat) {r : RansRun} (hb : r.out.bytes.wf = true)
    (h : r.out.len.toNat / 8 + (symbolsBytes c tr (flushFuel cap) inp n r.st).length ≤ cap) :
    ∃ r', ransEncSymbols cap c tr inp n r = .ok r' := by
  induction n generalizing r with
  | zero => exact ⟨r, rfl⟩
  | succ n ih =>
    rw [symbolsBytes, List.length_append] at h
    obtain ⟨f, hf⟩ := flush_of_room hc (c := c) (sym := inp.bitRead n) (flushFuel cap) (r := r) (by omega)
    have hsymbol : ransEncSymbol cap c tr (inp.bitRead n) r = .ok { f with st := tr f.st (inp.bitRead n) } := by
      rw [ransEncSymbol, hf]
    obtain ⟨hst, hout⟩ := ransEncSymbol_ok hc hb hsymbol
    rw [ransEncSymbols, hsymbol]
    refine ih hout.wf ?_
    rw [hst, hout.len]
    omega

theorem ransEncode_of_room {out : Buffer} (hb : out.bytes.wf = true)
    (h : (symbolsBytes c tr (flushFuel cap) inp inp.len.toNat (wrap32 c.totalFreq.toNat)).length ≤ cap) :
    ∃ r, ransEncode cap c tr inp out = .ok r := by
  obtain ⟨r, hr⟩ := ransEncSymbols_of_room hc (c := c) (tr := tr) (inp := inp) inp.len.toNat
    (r := { out := { out with len := 0 }, st := wrap32 c.totalFreq.toNat }) hb (by simpa using h)
  rw [ransEncode, hr]
  exact ⟨_, rfl⟩

end

/-- The encoder of an empty message. -/
theorem ransEncode_of_empty {cap : Nat} {c : RansConf} {tr : Word → Bool → Word} {inp out : Buffer} (h : inp.len = 0) :
    ransEncode cap c tr inp out = .ok { out := { out with len := 0 }, st := wrap32 c.totalFreq.toNat } := by
  simp [ransEncode, h, ransEncSymbols, Buffer.reverseBytes, Buffer.swapLoop]

/-! ### The command -/

theorem exec_ransEnc_ok {dir : BufSel} {s : State} {r : RansRun} (hv : s.status.cfgv = true)
    (h : ransEncode s.params.capBytes s.rans (computeEnc s.rans) (s.buf dir) (s.buf dir.other) = .ok r) :
    exec (.ransEnc dir) s = .next { s.setBuf dir.other r.out with ransState := r.st, res0 := r.st } := by
  simp [exec, execRansEnc, hv, State.inBuf, State.outBuf, h, finishRansEnc]

/-! ### The obligations -/

/-- Settles O44: the range of R208 (b) for the state, and 8 bits of length for each byte of the flush. -/
theorem flushEndsBelowTheThreshold : Obligations.FlushEndsBelowTheThreshold := by
  intro cap c sym r r' h hcap hlo hhi hr
  obtain ⟨hst, hlen⟩ := flush_st_len hcap (flushFuel cap) hr
  obtain ⟨hf, hthr, hbytes⟩ := RansConf.InRange.after_flush ⟨hlo, hhi⟩ h cap sym
  obtain ⟨-, hfreq, -, -⟩ := h.bounds sym
  have hbit := Bool.toNat_lt sym
  rw [hst, hlen]
  refine ⟨hf, hthr, ?_, by omega, by omega⟩
  rw [h.thr_eq] at hthr
  omega

/-- Settles O45: each symbol flushes at most 3 bytes, for which there is room, and its transition stays in range. -/
theorem ransEncoderCompletesWithRoom : Obligations.RansEncoderCompletesWithRoom := by
  intro dir s hparams hb hv h hroom
  have hcap := Params.capBytes_le_of_wf hparams
  have hbytes := h.inRange_start.symbolsBytes_length h s.params.capBytes (s.buf dir) (s.buf dir).len.toNat
  obtain ⟨r, hr⟩ := ransEncode_of_room hcap hb (hbytes.trans hroom)
  obtain ⟨hst, -, hlen, hbyte⟩ := ransEncode_ok hcap hb hr
  obtain ⟨hlo, hhi⟩ := h.inRange_start.after_symbols h s.params.capBytes (s.buf dir) (s.buf dir).len.toNat
  refine ⟨_, exec_ransEnc_ok hv hr, ?_⟩
  rw [State.buf_with_ransEnc, State.buf_setBuf]
  refine ⟨rfl, hst ▸ hlo, hst ▸ hhi, by omega, by omega, fun k hk => ?_⟩
  rw [hbyte, List.getD_eq_default _ _ (by rw [List.length_reverse]; omega)]

/-- Settles O46: the symbol loop does not run. -/
theorem ransEncodesTheEmptyMessageAsNoBytes : Obligations.RansEncodesTheEmptyMessageAsNoBytes := by
  intro dir s hv hempty
  refine ⟨_, exec_ransEnc_ok hv (ransEncode_of_empty hempty), ?_⟩
  exact ⟨by simp, by rw [State.buf_with_ransEnc, State.buf_setBuf],
    wrap32_toNat_of_lt (s.rans.totalFreq.isLt.trans (by decide)), rfl, by simp⟩

end Sys2Proof.Machine
end

section
/-! PROOFS. The rANS decoder completes (`44_rans.md` R207, R211), and the round trip (R205, R209, R212): decoding a
symbol and unflushing leads from the encoder's state after the symbol to its state before it, so that the decoder passes
through the encoder's states in reverse. -/

namespace Sys2Proof.Machine

/-! ### What the decoder leaves -/

theorem exec_ransDec_configured {dir : BufSel} {s : State} (hv : s.status.cfgv = true) :
    exec (.ransDec dir) s = .next { s.setBuf dir.other
        (ransDecode s.rans (computeDec s.rans) (s.buf dir) (s.buf dir.other) s.arg0).out with
      ransState := (ransDecode s.rans (computeDec s.rans) (s.buf dir) (s.buf dir.other) s.arg0).st
      ransReadPos := (ransDecode s.rans (computeDec s.rans) (s.buf dir) (s.buf dir.other) s.arg0).readPos } := by
  simp [exec, execRansDec, hv, State.inBuf, State.outBuf, finishRansDec]

/-- The out-buffer in the state that a decoder leaves. -/
theorem State.buf_setBuf_ransDec (s : State) (sel : BufSel) (b : Buffer) (v w : Word) :
    ({ s.setBuf sel b with ransState := v, ransReadPos := w } : State).buf sel = b := by
  rw [State.buf_with_ransDec (s.setBuf sel b), State.buf_setBuf]

/-- What a configured `RANS.DEC` leaves in `STATUS` and in the out-buffer. -/
theorem exec_ransDec_next {dir : BufSel} {s t : State} (h : exec (.ransDec dir) s = .next t)
    (hv : s.status.cfgv = true) :
    t.status = s.status ∧
    t.buf dir.other = (ransDecode s.rans (computeDec s.rans) (s.buf dir) (s.buf dir.other) s.arg0).out := by
  obtain rfl := Host.Outcome.next.inj ((exec_ransDec_configured hv).symm.trans h)
  exact ⟨s.setBuf_status .., s.buf_setBuf_ransDec ..⟩

/-- Settles O47: what the symbol loop does to the read position and the out-buffer, whatever the configuration. -/
theorem ransDecoderAlwaysCompletes : Obligations.RansDecoderAlwaysCompletes := by
  intro dir s hb hv
  refine ⟨_, exec_ransDec_configured hv, ?_⟩
  rw [State.buf_setBuf_ransDec]
  obtain ⟨-, hlen, hset, hrest⟩ := ransDecSymbols_out s.rans (computeDec s.rans) (s.buf dir)
    (s.buf dir.other).len.toNat (r := { out := s.buf dir.other, st := s.arg0, readPos := 0 }) hb
  refine ⟨rfl, ransDecSymbols_readPos _ _ _ _ (Nat.zero_le _), hlen, hset, hrest, fun k hk => ?_⟩
  exact ransDecSymbols_byte _ _ _ _ hb (by unfold Buffer.byteLen at hk; omega)

/-! ### Bytes in reverse order -/

/-- The buffer holds the bytes `vs` from index 0 on, last one first (R209). -/
structure Buffer.HoldsReversed (b : Buffer) (vs : List Byte) : Prop where
  byteLen : vs.length ≤ b.byteLen
  byte : ∀ k, k < vs.length → b.byte k = vs.reverse.getD k 0

section

variable {b : Buffer} {us vs : List Byte}

/-- The bytes appended last come first. -/
theorem Buffer.HoldsReversed.last (h : b.HoldsReversed (us ++ vs)) : b.HoldsReversed vs := by
  obtain ⟨hlen, hbyte⟩ := h
  rw [List.length_append] at hlen hbyte
  refine ⟨by omega, fun k hk => ?_⟩
  rw [hbyte k (by omega), List.reverse_append, List.getD_append _ _ _ _ (by rwa [List.length_reverse])]

theorem Buffer.HoldsReversed.byte_first (h : b.HoldsReversed (us ++ vs)) {k : Nat} (hk : k < us.length) :
    b.byte (vs.length + k) = us.reverse.getD k 0 := by
  rw [h.byte _ (by rw [List.length_append]; omega), List.reverse_append,
    List.getD_append_right _ _ _ _ (by rw [List.length_reverse]; omega), List.length_reverse, Nat.add_sub_cancel_left]

end

/-- What the encoder leaves in the out-buffer. -/
theorem holdsReversed_of_ransEncode {cap : Nat} (hc : cap ≤ 536870911) {c : RansConf} {tr : Word → Bool → Word}
    {msg out : Buffer} {r : RansRun} (hb : out.bytes.wf = true) (h : ransEncode cap c tr msg out = .ok r) :
    r.out.HoldsReversed (symbolsBytes c tr (flushFuel cap) msg msg.len.toNat (wrap32 c.totalFreq.toNat)) := by
  obtain ⟨-, -, hlen, hbyte⟩ := ransEncode_ok hc hb h
  refine ⟨by unfold Buffer.byteLen; omega, fun k hk => ?_⟩
  rw [← List.length_reverse] at hk
  rw [hbyte, List.getD_eq_getElem _ _ hk, List.getD_eq_getElem _ _ hk]

/-! ### One symbol -/

/-- `Unflush` (R205) with all the bytes that remain, as the decoder runs it before a symbol. -/
def unflushAll (c : RansConf) (code : Buffer) (r : RansDecRun) : RansDecRun :=
  unflush c code (code.byteLen - r.readPos.toNat) r

/-- One symbol from where `Unflush` leads to. -/
theorem ransDecSymbol_of_unflushAll {c : RansConf} {tr : Word → Word × Bool} {code : Buffer} {r u : RansDecRun}
    {x : Word} {sym : Bool} (hu : unflushAll c code r = u) (htr : tr u.st = (x, sym)) (j : Nat) :
    ransDecSymbol c tr code j r = { out := u.out.bitWrite j sym, st := x, readPos := u.readPos } := by
  rw [unflushAll] at hu
  rw [ransDecSymbol, hu, htr]

/-- R203 on the registers. -/
theorem RansConf.Legal.computeDec_computeEnc {c : RansConf} (h : c.Legal) {x : Word} {sym : Bool}
    (hx : x.toNat < c.thr sym) : computeDec c (computeEnc c x sym) = (x, sym) := by
  obtain ⟨hnext, hsym⟩ := Prod.mk.inj (h.decTr_encTr (h.lt_of_lt_thr hx) sym)
  rw [computeDec, h.computeEnc_toNat hx, hnext, hsym, wrap32_toNat_word]

section

variable {c : RansConf} {st : Word} (hst : c.InRange st) (h : c.Legal) {code : Buffer}

include hst h

/-- The decoder's transition takes back the encoder's, up to the flush. -/
theorem RansConf.InRange.computeDec_symbolState (cap : Nat) (sym : Bool) :
    computeDec c (symbolState c (computeEnc c) (flushFuel cap) sym st) =
      (flushState c sym (flushFuel cap) st, sym) := by
  obtain ⟨-, hthr, -⟩ := hst.after_flush h cap sym
  exact h.computeDec_computeEnc hthr

/-- `Unflush` takes back the flush: it reads just its bytes, the state before it being in range. -/
theorem RansConf.InRange.unflushAll_flushState {fuel : Nat} {sym : Bool} {vs : List Byte}
    (hcode : code.HoldsReversed (flushBytes c sym fuel st ++ vs)) (out : Buffer) :
    unflushAll c code { out := out, st := flushState c sym fuel st, readPos := wrap32 vs.length } =
      { out := out, st := st, readPos := wrap32 (flushBytes c sym fuel st ++ vs).length } := by
  obtain ⟨-, -, hT, -⟩ := h.bounds sym
  have hlen := hcode.byteLen
  have hmax := byteLen_lt code
  rw [List.length_append] at hlen
  have hpos : (wrap32 vs.length).toNat = vs.length := wrap32_toNat_of_lt (by omega)
  have hfuel : code.byteLen - vs.length =
      code.byteLen - vs.length - (flushBytes c sym fuel st).length + (flushBytes c sym fuel st).length := by omega
  rw [unflushAll, hpos, hfuel, unflush_flushed fuel hT hst.2 hpos (by omega) fun _ => hcode.byte_first,
    unflush_of_le _ hst.1, List.length_append, Nat.add_comm]

end

/-! ### The symbol loop -/

/-- After `n` symbols and an `Unflush` the decoder stands in the encoder's state before those symbols, has read their
bytes, and has written them to the out-buffer. -/
theorem RansConf.InRange.decoded {c : RansConf} {st : Word} (hst : c.InRange st) (h : c.Legal) {cap : Nat}
    {msg code : Buffer} (n : Nat) {r : RansDecRun}
    (hr : r.st = symbolsState c (computeEnc c) (flushFuel cap) msg n st) (hpos : r.readPos = 0)
    (hb : r.out.bytes.wf = true)
    (hcode : code.HoldsReversed (symbolsBytes c (computeEnc c) (flushFuel cap) msg n st)) :
    unflushAll c code (ransDecSymbols c (computeDec c) code n r) =
      { out := (ransDecSymbols c (computeDec c) code n r).out, st := st
        readPos := wrap32 (symbolsBytes c (computeEnc c) (flushFuel cap) msg n st).length } ∧
    ∀ j, j < n →
      (ransDecSymbols c (computeDec c) code n r).out.bitRead j = (r.out.bitRead j || msg.bitRead j) := by
  induction n generalizing st with
  | zero =>
    refine ⟨?_, fun j hj => absurd hj (Nat.not_lt_zero j)⟩
    obtain rfl : r.st = st := hr
    rw [ransDecSymbols, unflushAll, unflush_of_le _ hst.1]
    exact congrArg (RansDecRun.mk r.out r.st) hpos
  | succ n ih =>
    obtain ⟨hu, hbits⟩ := ih (hst.after_symbol h cap (msg.bitRead n)) hr hcode.last
    obtain ⟨hwf, -, -, hrest⟩ := ransDecSymbols_out c (computeDec c) code n hb
    have hsymbol := ransDecSymbol_of_unflushAll hu (hst.computeDec_symbolState h cap (msg.bitRead n)) n
    rw [ransDecSymbols, hsymbol]
    refine ⟨hst.unflushAll_flushState h hcode _, fun j hj => ?_⟩
    rw [Buffer.bitRead_bitWrite hwf]
    rcases Nat.lt_succ_iff_lt_or_eq.mp hj with hlt | rfl
    · rw [hbits j hlt]
      simp [hlt.ne]
    · rw [hrest j le_rfl]
      simp

/-- The round trip of the two commands' effects: the message is decoded into a zero buffer of its length. -/
theorem ransDecode_of_ransEncode {cap : Nat} (hc : cap ≤ 536870911) {c : RansConf} (h : c.Legal) {msg out : Buffer}
    {r : RansRun} (hb : out.bytes.wf = true) (henc : ransEncode cap c (computeEnc c) msg out = .ok r)
    {out' : Buffer} (hb' : out'.bytes.wf = true) (hlen : out'.len = msg.len)
    (hzero : ∀ j, j < msg.len.toNat → out'.bitRead j = false) :
    SameBits (ransDecode c (computeDec c) r.out out' r.st).out msg := by
  have hlen' := (ransDecode_out_len (c := c) (tr := computeDec c) (inp := r.out) (x := r.st) hb').trans hlen
  obtain ⟨hst, -⟩ := ransEncode_ok hc hb henc
  obtain ⟨-, hbits⟩ := h.inRange_start.decoded h msg.len.toNat (r := { out := out', st := r.st, readPos := 0 }) hst rfl
    hb' (holdsReversed_of_ransEncode hc hb henc)
  refine ⟨hlen', fun j hj => ?_⟩
  rw [hlen'] at hj
  rw [ransDecode, hlen, hbits j hj, hzero j hj, Bool.false_or]

/-! ### The commands -/

/-- A `RANS.ENC` that records no fault has run to its end. -/
theorem exec_ransEnc_completed {dir : BufSel} {s t : State} (h : exec (.ransEnc dir) s = .next t)
    (hf : t.status.fault = false) :
    ∃ r, ransEncode s.params.capBytes s.rans (computeEnc s.rans) (s.buf dir) (s.buf dir.other) = .ok r ∧
      t = { s.setBuf dir.other r.out with ransState := r.st, res0 := r.st } := by
  obtain ⟨-, rfl⟩ | ⟨-, hfinish⟩ := execRansEnc_cases h
  · simp at hf
  · obtain ⟨c, -, rfl⟩ | hok := finishRansEnc_cases hfinish
    · simp at hf
    · exact hok

/-- Settles O48: `BB.NEW` leaves the code alone and zeros for the message, so that the effects of the two commands
make a round trip. -/
theorem ransRoundTrip : Obligations.RansRoundTrip := by
  intro dir s t u v hparams hbytes hcfgv h ht htf hu huf hv
  obtain ⟨r, hr, ht'⟩ := exec_ransEnc_completed ht htf
  have htcode : t.buf dir.other = r.out := by rw [ht', State.buf_with_ransEnc, State.buf_setBuf]
  have htmsg : t.buf dir = s.buf dir := by rw [ht', State.buf_with_ransEnc, State.buf_setBuf_other]
  obtain ⟨-, hu'⟩ | ⟨-, hu'⟩ := execBbNew_cases hu
  · simp [hu'] at huf
  have hucode : u.buf dir.other = r.out := by rw [hu', State.buf_other_setBuf, State.buf_with_arg0, htcode]
  have humsg : u.buf dir =
      { bytes := (s.buf dir).bytes.clearBelow (((s.buf dir).len.toNat + 7) / 8), len := (s.buf dir).len } := by
    rw [hu', State.buf_setBuf, State.buf_with_arg0, htmsg]
  have hurans : u.rans = s.rans := by simp [hu', ht']
  obtain ⟨hstatus, hout⟩ := exec_ransDec_next hv (show u.status.cfgv = true by simp [hu', ht', hcfgv])
  refine ⟨(congrArg Status.fault hstatus).trans huf, ?_⟩
  rw [BufSel.other_other, State.buf_with_arg0 u t.res0, State.buf_with_arg0 u t.res0, hucode, humsg] at hout
  simp only [hurans, show t.res0 = r.st by rw [ht']] at hout
  rw [hout]
  exact ransDecode_of_ransEncode (Params.capBytes_le_of_wf hparams) h (hbytes dir.other).1 hr
    (Memory.wf_clearBelow (hbytes dir).1 _) rfl fun j => Buffer.bitRead_clearBelow _ _ _

end Sys2Proof.Machine
end

section
/-! PROOFS. rANS table mode (`45_rans_table.md` R240 to R247): a fill stores the transitions of the current
configuration, so that a lookup in a table of the current configuration is the compute-mode transition, and each command
of the table mode does what its compute-mode command does. -/

namespace Sys2Proof.Machine

section

variable {s : State}

/-! ### The fills -/

theorem exec_ransBlde_inside (hv : s.status.cfgv = true) (hr : s.rans.r.toNat ≤ s.params.tblRmax) :
    exec .ransBlde s = .next { s with encTable := { filledFrom := s.rans }, status := s.status.setEtv } :=
  (if_neg (by simp [hv])).trans (if_neg (Nat.not_lt.mpr hr))

theorem ransBlde_notConfigured (hv : s.status.cfgv = false) : FaultsWith .ransBlde s 6 :=
  if_pos hv

theorem ransBlde_tableTooLarge (hv : s.status.cfgv = true) (hr : s.params.tblRmax < s.rans.r.toNat) :
    FaultsWith .ransBlde s 12 :=
  (if_neg (by simp [hv])).trans (if_pos hr)

theorem exec_ransBldd_inside (hv : s.status.cfgv = true) (hr : s.rans.r.toNat ≤ s.params.tblRmax) :
    exec .ransBldd s = .next { s with decTable := { filledFrom := s.rans }, status := s.status.setDtv } :=
  (if_neg (by simp [hv])).trans (if_neg (Nat.not_lt.mpr hr))

theorem ransBldd_notConfigured (hv : s.status.cfgv = false) : FaultsWith .ransBldd s 6 :=
  if_pos hv

theorem ransBldd_tableTooLarge (hv : s.status.cfgv = true) (hr : s.params.tblRmax < s.rans.r.toNat) :
    FaultsWith .ransBldd s 12 :=
  (if_neg (by simp [hv])).trans (if_pos hr)

/-! ### The lookups -/

/-- `RANS.ENCT` with the table of the current configuration is `RANS.ENC`, whether it completes or faults. -/
theorem exec_ransEnct_eq_ransEnc {dir : BufSel} (hv : s.status.cfgv = true) (hetv : s.status.etv = true)
    (hfill : s.encTable.filledFrom = s.rans) : exec (.ransEnct dir) s = exec (.ransEnc dir) s := by
  have htr : tableEnc s.encTable = computeEnc s.rans := by
    funext x sym
    rw [tableEnc_eq, hfill]
  simp [exec, execRansEnct, execRansEnc, hv, hetv, htr]

/-- `RANS.DECT` with the table of the current configuration is `RANS.DEC`, from a state inside the table. -/
theorem exec_ransDect_eq_ransDec {dir : BufSel} (hv : s.status.cfgv = true) (hdtv : s.status.dtv = true)
    (hfill : s.decTable.filledFrom = s.rans) (harg : s.arg0.toNat < s.rans.totalFreq.toNat * 256) :
    exec (.ransDect dir) s = exec (.ransDec dir) s := by
  have htr : tableDec s.decTable = computeDec s.rans := by
    funext x
    rw [tableDec_eq, hfill]
  simp [exec, execRansDect, execRansDec, hv, hdtv, htr, State.argNat, Nat.not_le.mpr harg]

end

/-! ### The entries -/

theorem EncTable.dense_map_toNat_getElem? (t : EncTable) {x : Nat} (sym : Bool)
    (hx : x < t.filledFrom.totalFreq.toNat * 256) :
    (t.dense.map BitVec.toNat)[2 * x + sym.toNat]? = some (encTr t.filledFrom x sym % 2 ^ 32) := by
  have hbit := Bool.toNat_lt sym
  have hindex : 2 * x + sym.toNat < t.size := by
    rw [EncTable.size]
    omega
  rw [List.getElem?_map, t.dense_getElem? hindex, t.entry_eq, Option.map_some, wrap32, BitVec.toNat_ofNat]

/-- R203: a decode transition is never above its state, so that an entry loses nothing in its 32 bits. -/
theorem DecTable.dense_map_toNat_getElem? {t : DecTable} (h : t.filledFrom.Legal) {x : Nat}
    (hx : x < t.filledFrom.totalFreq.toNat * 256) :
    (t.dense.map fun e => (e.1.toNat, e.2))[x]? = some (decTr t.filledFrom x) := by
  have hnext : (wrap32 (decNext t.filledFrom x)).toNat = decNext t.filledFrom x :=
    wrap32_toNat_of_lt ((decNext_le h x).trans_lt ((hx.trans_le h.totalFreq_mul_le).trans (by decide)))
  rw [List.getElem?_map, t.dense_getElem? hx, Option.map_some, DecTable.entry, hnext, decTr]

/-! ### The decoder's state stays inside the table -/

theorem RansConf.Legal.computeDec_lt {c : RansConf} (h : c.Legal) {x : Word} {n : Nat} (hx : x.toNat < n) :
    (computeDec c x).1.toNat < n := by
  have hnext := decNext_le h x.toNat
  rw [computeDec, wrap32_toNat_of_lt (hnext.trans_lt x.isLt)]
  exact hnext.trans_lt hx

/-- R245: the index of every lookup is inside the table, and so is the state at the end. -/
theorem RansConf.Legal.ransDecode_st_lt {c : RansConf} (h : c.Legal) {inp out : Buffer} {x : Word}
    (hx : x.toNat < c.totalFreq.toNat * 256) :
    (ransDecode c (computeDec c) inp out x).st.toNat < c.totalFreq.toNat * 256 := by
  obtain ⟨-, -, hT, -⟩ := h.bounds false
  exact ransDecSymbols_state (P := fun st => st.toNat < c.totalFreq.toNat * 256)
    (fun _ => unflush_state_lt (hT.trans (by decide)) _) (fun _ => h.computeDec_lt) _ hx

/-! ### The obligations -/

/-- Settles O49: the fill stores the current configuration, and each entry is its transition. -/
theorem bldeFillsTheEncodeTable : Obligations.BldeFillsTheEncodeTable :=
  fun s => ⟨fun hv hr => ⟨_, exec_ransBlde_inside hv hr, rfl, EncTable.dense_length _,
      fun _ sym => EncTable.dense_map_toNat_getElem? { filledFrom := s.rans } sym⟩,
    ransBlde_notConfigured, ransBlde_tableTooLarge⟩

/-- Settles O50: the fill stores the current configuration, whose transitions fit the entries where it is legal. -/
theorem blddFillsTheDecodeTable : Obligations.BlddFillsTheDecodeTable :=
  fun s => ⟨fun hv h hr => ⟨_, exec_ransBldd_inside hv hr, rfl, DecTable.dense_length _,
      fun _ => DecTable.dense_map_toNat_getElem? (t := { filledFrom := s.rans }) h⟩,
    ransBldd_notConfigured, ransBldd_tableTooLarge⟩

/-- Settles O51: `RANS.ENC` completes with this room, and `RANS.ENCT` is the same command here. -/
theorem tableEncodeEqualsComputeEncode : Obligations.TableEncodeEqualsComputeEncode := by
  intro dir s hparams hb hv hetv h hfill hroom
  obtain ⟨t, ht, hframe, -⟩ := ransEncoderCompletesWithRoom dir s hparams hb hv h hroom
  have hstatus : t.status = s.status := (congrArg State.status hframe).trans (s.setBuf_status ..)
  exact ⟨t, (exec_ransEnct_eq_ransEnc hv hetv hfill).trans ht, ht, hstatus⟩

/-- Settles O52: `RANS.DEC` always completes, inside the table from inside the table, and `RANS.DECT` is the same
command here. -/
theorem tableDecodeEqualsComputeDecode : Obligations.TableDecodeEqualsComputeDecode := by
  intro dir s hv hdtv h hfill harg
  have ht := exec_ransDec_configured (dir := dir) hv
  exact ⟨_, (exec_ransDect_eq_ransDec hv hdtv hfill harg).trans ht, ht, s.setBuf_status .., h.ransDecode_st_lt harg⟩

end Sys2Proof.Machine
end

section
/-! PROOFS. A step on a written command word (`46_sequencing_and_system.md` R260). -/

namespace Sys2Proof.Machine

/-- Settles O5: the step takes the write of the word from the queue, and with no fault recorded the word runs as the
command that it decodes to. -/
theorem stepRunsTheDecodedCommand : Obligations.StepRunsTheDecodedCommand := by
  intro s w rest i hin hf hd
  calc step s = runCommand w { s with inbox := rest } := step_cons hin
    _ = exec i { s with inbox := rest } := runCommand_decoded hf hd

end Sys2Proof.Machine
end

section
/-! PROOFS. Faults (`60_exceptions.md` R280 to R297): the word that no row matches, the refusal while a fault is
recorded, and the faults of the commands. That a command answers, and what its answer is check by check, is said once
for all commands (`exec_answers`, `exec_checksAnswer`). -/

namespace Sys2Proof.Machine

/-! ### Command words -/

/-- Settles O4: a word that decoded to a command would match the command's row. -/
theorem unlistedWordRaisesIllegalCommand : Obligations.UnlistedWordRaisesIllegalCommand := by
  intro s w rest hin hf hrow
  rw [step_cons hin]
  cases hd : decode w with
  | error e => exact runCommand_rejected hf hd
  | ok i => exact absurd (decodeFollowsMatchAndMask.1 w i hd) (hrow i)

/-- Settles O6: a recorded fault refuses the word before it is decoded. -/
theorem faultedBlockRefusesCommands : Obligations.FaultedBlockRefusesCommands := by
  intro s w rest hin hf
  rw [step_cons hin]
  exact runCommand_refused (s := { s with inbox := rest }) hf w

/-! ### A recorded fault -/

section

variable {s t u : State}

/-- `t` is `s` but for the queue and what the host may write (R74). -/
def OnlyHostWrites (s t : State) : Prop :=
  t = { s with inbox := t.inbox, arg0 := t.arg0, prob := t.prob, buf0 := t.buf0, buf1 := t.buf1 }

theorem OnlyHostWrites.trans (hu : OnlyHostWrites s u) (ht : OnlyHostWrites u t) : OnlyHostWrites s t :=
  calc
    t = { u with inbox := t.inbox, arg0 := t.arg0, prob := t.prob, buf0 := t.buf0, buf1 := t.buf1 } := ht
    _ = { s with inbox := t.inbox, arg0 := t.arg0, prob := t.prob, buf0 := t.buf0, buf1 := t.buf1 } := by rw [hu]

theorem OnlyHostWrites.status_eq (h : OnlyHostWrites s t) : t.status = s.status := by rw [h]

theorem OnlyHostWrites.of_setBuf (s : State) (sel : BufSel) (b : Buffer) : OnlyHostWrites s (s.setBuf sel b) := by
  cases sel <;> rfl

/-- With a fault recorded, every action but the reset is refused or one of the host's writes. -/
theorem act_of_fault (hf : s.status.fault = true) {a : HostAction} (ha : a ≠ .reset) (h : act a s = .next t) :
    OnlyHostWrites s t ∧ t.inbox = s.inbox := by
  cases a with
  | writeCmd w =>
    obtain rfl := Host.Outcome.next.inj ((runCommand_refused hf w).symm.trans h)
    exact ⟨rfl, rfl⟩
  | writeArg0 v => obtain rfl := Host.Outcome.next.inj h; exact ⟨rfl, rfl⟩
  | writeProb p => obtain rfl := Host.Outcome.next.inj h; exact ⟨rfl, rfl⟩
  | writeByte sel k v =>
    obtain ⟨-, rfl⟩ := hostWriteByte_next h
    exact ⟨.of_setBuf .., State.setBuf_inbox ..⟩
  | writeLen sel n =>
    obtain ⟨-, rfl⟩ := hostWriteLen_next h
    exact ⟨.of_setBuf .., State.setBuf_inbox ..⟩
  | reset => exact absurd rfl ha

/-- A step with a fault recorded and no reset queued, which queues none. -/
theorem step_of_fault (hf : s.status.fault = true) (hq : ∀ a ∈ s.inbox, a ≠ .reset) (h : step s = .next t) :
    OnlyHostWrites s t ∧ ∀ a ∈ t.inbox, a ≠ .reset := by
  obtain ⟨-, rfl⟩ | ⟨a, rest, hin, hact⟩ := step_cases h
  · exact ⟨rfl, hq⟩
  · rw [hin, List.forall_mem_cons] at hq
    obtain ⟨ha, hrest⟩ := hq
    have htaken : OnlyHostWrites s { s with inbox := rest } := rfl
    obtain ⟨hw, hinbox⟩ := act_of_fault (s := { s with inbox := rest }) hf ha hact
    exact ⟨htaken.trans hw, by rwa [hinbox]⟩

end

/-- Settles O7, by induction on the number of steps. -/
theorem faultStaysUntilReset : Obligations.FaultStaysUntilReset := by
  intro n
  induction n with
  | zero => rintro s t - - h; obtain rfl := Host.Outcome.next.inj h; rfl
  | succ n ih =>
    intro s t hf hq h
    obtain ⟨u, hstep, hrun⟩ := core_run_cases h
    obtain ⟨hu, hqu⟩ := step_of_fault hf hq hstep
    exact hu.trans (ih u t (by rwa [hu.status_eq]) hqu hrun)

/-! ### The checks of a command -/

/-- No command stops the model: each is a chain of one, two or three choices, or none, and every end is a next state. -/
theorem exec_answers (i : Instr) (s : State) : ∃ t, exec i s = .next t := by
  cases i with
  | bbLen _ | bsNew _ => exact ⟨_, rfl⟩
  | bbNew _ | bbRd _ | bbWr _ _ | bbByte _ | bsApp _ _ | fdivSetup | fmulSetup | fmulMul | bacDec _ | ransDec _ =>
    simp only [exec, execBbNew, execBbRd, execBbWr, execBbByte, execBsApp, execFdivSetup, execFmulSetup, execFmulMul,
      execBacDec, execRansDec]
    split <;> exact ⟨_, rfl⟩
  | fdivDiv | fdivDivmod | bacEnc _ | ransCfg | ransEnc _ | ransBlde | ransBldd =>
    simp only [exec, execFdivDiv, execFdivDivmod, execBacEnc, execRansCfg, execRansEnc, finishRansEnc, execRansBlde,
      execRansBldd]
    split
    · exact ⟨_, rfl⟩
    · split <;> exact ⟨_, rfl⟩
  | ransEnct _ | ransDect _ =>
    simp only [exec, execRansEnct, finishRansEnc, execRansDect]
    split
    · exact ⟨_, rfl⟩
    · split
      · exact ⟨_, rfl⟩
      · split <;> exact ⟨_, rfl⟩

/-- The answer `t` to a list of checks in `s`: the first one that fails is raised, and where all pass `Q` holds. -/
def ChecksAnswer (s t : State) (Q : Prop) : List (Prop × Cause) → Prop
  | [] => Q
  | (p, c) :: rest => (p ∧ t = s.raise c) ∨ (¬ p ∧ ChecksAnswer s t Q rest)

theorem ChecksAnswer.raised {s t : State} {Q : Prop} {l : List (Prop × Cause)} (h : ChecksAnswer s t Q l) {c : Cause}
    (hc : firstCause l c) : t = s.raise c := by
  induction l with
  | nil => exact hc.elim
  | cons check rest ih =>
    obtain ⟨hp, rfl⟩ | ⟨hp, hrest⟩ := hc <;> obtain ⟨hp', ht⟩ | ⟨hp', h⟩ := h
    · exact ht
    · exact absurd hp hp'
    · exact absurd hp' hp
    · exact ih h hrest

theorem ChecksAnswer.passed {s t : State} {Q : Prop} {l : List (Prop × Cause)} (h : ChecksAnswer s t Q l)
    (hn : ∀ c, ¬ firstCause l c) : Q := by
  induction l with
  | nil => exact h
  | cons check rest ih =>
    obtain ⟨hp, -⟩ | ⟨hp, h⟩ := h
    · exact absurd (.inl ⟨hp, rfl⟩) (hn check.2)
    · exact ih h fun c hc => hn c (.inr ⟨hp, hc⟩)

theorem finishRansDec_status {s t : State} {o : BufSel} {r : RansDecRun} (h : finishRansDec s o r = .next t) :
    t.status = s.status := by
  obtain rfl := Host.Outcome.next.inj h
  exact State.setBuf_status ..

theorem inUnit_eq_error_iff {p : Prob} : p.inUnit = .error .invalidProbability ↔ probOutOfUnit p := by
  cases p with
  | notNumber => exact ⟨fun _ => trivial, fun _ => rfl⟩
  | num q =>
    refine ⟨fun h => ?_, Prob.inUnit_outside⟩
    obtain ⟨-, hq | ⟨q', hq, hout⟩⟩ := Prob.inUnit_error h
    · cases hq
    · obtain rfl := Prob.num.inj hq
      exact hout

theorem not_probOutOfUnit {p : Prob} {q : ℚ} (h : p.inUnit = .ok q) : ¬ probOutOfUnit p := by
  rw [← inUnit_eq_error_iff, h]
  exact nofun

/-- Every command answers by its checks, and one that is no encoder records no fault after them. -/
theorem exec_checksAnswer {i : Instr} {s t : State} (h : exec i s = .next t) :
    ChecksAnswer s t (isEncoder i = false → t.status.fault = s.status.fault) (faultChecks i s) := by
  cases i with
  | bbNew sel =>
    exact (execBbNew_cases h).imp_right fun ⟨hc, ht⟩ => ⟨Nat.not_lt.mpr hc, fun _ => by simp [ht]⟩
  | bbRd sel =>
    exact (execBbRd_cases h).imp_right fun ⟨hc, ht⟩ => ⟨Nat.not_le.mpr hc, fun _ => by simp [ht]⟩
  | bbWr sel b =>
    exact (execBbWr_cases h).imp_right fun ⟨hc, ht⟩ => ⟨Nat.not_le.mpr hc, fun _ => by simp [ht]⟩
  | bbLen sel =>
    obtain rfl := execBbLen_cases h
    exact fun _ => rfl
  | bbByte sel =>
    exact (execBbByte_cases h).imp_right fun ⟨hc, ht⟩ => ⟨Nat.not_le.mpr hc, fun _ => by simp [ht]⟩
  | bsNew sel =>
    obtain rfl := execBsNew_cases h
    exact fun _ => by rw [State.setBuf_status]
  | bsApp sel b =>
    exact (execBsApp_cases h).imp_right fun ⟨_, ho, ht⟩ =>
      ⟨Nat.not_le.mpr (Buffer.bitAppend_ok ho).1, fun _ => by simp [ht]⟩
  | fdivSetup =>
    exact (execFdivSetup_cases h).imp_right fun ⟨hc, ht⟩ => ⟨Nat.not_le.mpr hc, fun _ => by simp [ht]⟩
  | fdivDiv =>
    obtain ⟨hv, ht⟩ | ⟨hv, hc, ht⟩ | ⟨hv, hc, rfl⟩ := execFdivDiv_cases h
    · exact .inl ⟨hv, ht⟩
    · exact .inr ⟨ne_false_of_eq_true hv, .inl ⟨hc, ht⟩⟩
    · exact .inr ⟨ne_false_of_eq_true hv, .inr ⟨Nat.not_le.mpr hc, fun _ => rfl⟩⟩
  | fdivDivmod =>
    obtain ⟨hv, ht⟩ | ⟨hv, hc, ht⟩ | ⟨hv, hc, rfl⟩ := execFdivDivmod_cases h
    · exact .inl ⟨hv, ht⟩
    · exact .inr ⟨ne_false_of_eq_true hv, .inl ⟨hc, ht⟩⟩
    · exact .inr ⟨ne_false_of_eq_true hv, .inr ⟨Nat.not_le.mpr hc, fun _ => rfl⟩⟩
  | fmulSetup =>
    exact (execFmulSetup_cases h).imp (.imp_left inUnit_eq_error_iff.mp) fun ⟨_, hp, ht⟩ =>
      ⟨not_probOutOfUnit hp, fun _ => by simp [ht]⟩
  | fmulMul =>
    exact (execFmulMul_cases h).imp_right fun ⟨hv, ht⟩ => ⟨ne_false_of_eq_true hv, fun _ => by simp [ht]⟩
  | bacEnc dir =>
    exact (execBacEnc_cases h).imp_right fun ⟨_, hp, _⟩ => ⟨by simp [hp], nofun⟩
  | bacDec dir =>
    exact (execBacDec_cases h).imp_right fun ⟨_, hp, ht⟩ => ⟨by simp [hp], fun _ => by simp [ht]⟩
  | ransCfg =>
    obtain ⟨hp, ht⟩ | ⟨p, hp, ⟨hc, ht⟩ | ⟨h2, h23, rfl⟩⟩ := execRansCfg_cases h
    · exact .inl ⟨inUnit_eq_error_iff.mp hp, ht⟩
    · exact .inr ⟨not_probOutOfUnit hp, .inl ⟨hc, ht⟩⟩
    · exact .inr ⟨not_probOutOfUnit hp, .inr ⟨by omega, fun _ => rfl⟩⟩
  | ransEnc dir =>
    exact (execRansEnc_cases h).imp_right fun ⟨hv, _⟩ => ⟨ne_false_of_eq_true hv, nofun⟩
  | ransEnct dir =>
    obtain ⟨hv, ht⟩ | ⟨hv, he, ht⟩ | ⟨hv, he, -⟩ := execRansEnct_cases h
    · exact .inl ⟨hv, ht⟩
    · exact .inr ⟨ne_false_of_eq_true hv, .inl ⟨he, ht⟩⟩
    · exact .inr ⟨ne_false_of_eq_true hv, .inr ⟨ne_false_of_eq_true he, nofun⟩⟩
  | ransDec dir =>
    exact (execRansDec_cases h).imp_right fun ⟨hv, hfin⟩ =>
      ⟨ne_false_of_eq_true hv, fun _ => by rw [finishRansDec_status hfin]⟩
  | ransDect dir =>
    obtain ⟨hv, ht⟩ | ⟨hv, hd, ht⟩ | ⟨hv, hd, hc, ht⟩ | ⟨hv, hd, hc, hfin⟩ := execRansDect_cases h
    · exact .inl ⟨hv, ht⟩
    · exact .inr ⟨ne_false_of_eq_true hv, .inl ⟨hd, ht⟩⟩
    · exact .inr ⟨ne_false_of_eq_true hv, .inr ⟨ne_false_of_eq_true hd, .inl ⟨hc, ht⟩⟩⟩
    · exact .inr ⟨ne_false_of_eq_true hv, .inr ⟨ne_false_of_eq_true hd,
        .inr ⟨Nat.not_le.mpr hc, fun _ => by rw [finishRansDec_status hfin]⟩⟩⟩
  | ransBlde =>
    obtain ⟨hv, ht⟩ | ⟨hv, hc, ht⟩ | ⟨hv, hc, rfl⟩ := execRansBlde_cases h
    · exact .inl ⟨hv, ht⟩
    · exact .inr ⟨ne_false_of_eq_true hv, .inl ⟨hc, ht⟩⟩
    · exact .inr ⟨ne_false_of_eq_true hv, .inr ⟨Nat.not_lt.mpr hc, fun _ => rfl⟩⟩
  | ransBldd =>
    obtain ⟨hv, ht⟩ | ⟨hv, hc, ht⟩ | ⟨hv, hc, rfl⟩ := execRansBldd_cases h
    · exact .inl ⟨hv, ht⟩
    · exact .inr ⟨ne_false_of_eq_true hv, .inl ⟨hc, ht⟩⟩
    · exact .inr ⟨ne_false_of_eq_true hv, .inr ⟨Nat.not_lt.mpr hc, fun _ => rfl⟩⟩

/-- Settles O11: the answer, of which there is one, is what the checks decide. -/
theorem commandsFaultExactlyAsListed : Obligations.CommandsFaultExactlyAsListed := by
  refine ⟨fun i s c hc => ?_, fun i s hf hi hn => ?_⟩
  · obtain ⟨t, ht⟩ := exec_answers i s
    rw [ht, (exec_checksAnswer ht).raised hc]
    rfl
  · obtain ⟨t, ht⟩ := exec_answers i s
    exact ⟨t, ht, ((exec_checksAnswer ht).passed hn hi).trans hf⟩

/-! ### A fault in the middle of an encoder -/

/-- A fault that a rANS encoder records after its checks. -/
theorem finishRansEnc_faulted {dir : BufSel} {c : RansConf} {tr : Word → Bool → Word} {s t : State}
    (hf : s.status.fault = false)
    (h : finishRansEnc s dir.other (ransEncode s.params.capBytes c tr (s.buf dir) (s.buf dir.other)) = .next t)
    (ht : t.status.fault = true) :
    t.status.cause = 9 ∧
    t = { s.setBuf dir.other (t.buf dir.other) with
      ransState := t.ransState, res0 := t.res0, freeCount := t.freeCount,
      status := { s.status with fault := true, cause := t.status.cause } } := by
  obtain ⟨e, he, rfl⟩ | ⟨r, -, rfl⟩ := finishRansEnc_cases h
  · obtain rfl := ransEncode_error he
    cases dir <;> exact ⟨rfl, rfl⟩
  · rw [State.setBuf_status, hf] at ht
    cases ht

/-- Settles O12: the error of the encoder's run is the cause, and `raisedInBacEnc` and `raisedInRansEnc` free the
listed items only. -/
theorem encoderFaultsChangeOnlyListedItems : Obligations.EncoderFaultsChangeOnlyListedItems := by
  refine ⟨fun dir s t hf hn h ht => ?_, ?_⟩
  · obtain ⟨hp, -⟩ | ⟨p, -, ⟨c, hc, rfl⟩ | ⟨r, -, rfl⟩⟩ := execBacEnc_cases h
    · exact absurd (.inl ⟨hp, rfl⟩) (hn .invalidProbability)
    · refine ⟨(bacEncode_error hc).imp (congrArg Cause.code) (congrArg Cause.code), ?_⟩
      cases dir <;> rfl
    · rw [State.setBuf_status, hf] at ht
      cases ht
  · rintro dir i s t (rfl | rfl) hf hn h ht
    · obtain ⟨hv, -⟩ | ⟨-, hfin⟩ := execRansEnc_cases h
      · exact absurd (.inl ⟨hv, rfl⟩) (hn .notConfigured)
      · exact finishRansEnc_faulted hf hfin ht
    · obtain ⟨hv, -⟩ | ⟨hv, he, -⟩ | ⟨-, -, hfin⟩ := execRansEnct_cases h
      · exact absurd (.inl ⟨hv, rfl⟩) (hn .notConfigured)
      · exact absurd (.inr ⟨ne_false_of_eq_true hv, .inl ⟨he, rfl⟩⟩) (hn .tableNotBuilt)
      · exact finishRansEnc_faulted hf hfin ht

end Sys2Proof.Machine
end

section
/-! PROOFS. The reset event (`70_reset_and_hazards.md` R310), which no recorded fault refuses. -/

namespace Sys2Proof.Machine

/-- The step that takes the reset event from the queue, with or without a recorded fault. -/
theorem step_reset {s : State} {rest : List HostAction} (h : s.inbox = .reset :: rest) :
    step s = .next { s with inbox := rest }.afterReset :=
  step_cons h

/-- After a reset event the host reads in `STATUS` what it reads right after reset (R36). -/
theorem State.afterReset_status_toWord (s : State) : s.afterReset.status.toWord = 0 := by
  obtain ⟨hstatus, -⟩ := resetMeetsTheInvariant
  rw [State.afterReset_status, hstatus]

/-- A reset event leaves both buffers empty. -/
theorem State.afterReset_buf_len (s : State) (sel : BufSel) : (s.afterReset.buf sel).len = 0 := by
  rw [State.afterReset_buf]

/-- Settles O8: the next state is `State.afterReset`, whose fields the rules for the reset event give. -/
theorem resetEventClearsStatusAndLengths : Obligations.ResetEventClearsStatusAndLengths := by
  intro s rest hin
  exact ⟨_, step_reset hin, State.afterReset_status_toWord _, State.afterReset_buf_len _,
    State.afterReset_inbox _, State.afterReset_params _⟩

end Sys2Proof.Machine
end
